-- ==== Sys2Proof/Word.lean ====
section
/-! DEFINITION. The words, register numbers and indices of MAT-CMD (spec/00_scope.md R5, R8, R9;
spec/20_memory.md R40). -/

namespace Sys2Proof

/-- One W-bit unsigned element: a scalar register, a matrix or vector element, the modulus (R5). -/
abbrev Elem := BitVec 16

/-- A 32-bit command word (R60) or response word (R46). -/
abbrev Word := BitVec 32

/-- The number of a scalar register `s0..s15`: a 4-bit field, so never out of range (R21, R40). -/
abbrev SReg := Fin 16

/-- The number of a matrix register `k0..k3`: a 2-bit field (R22, R40). -/
abbrev KReg := Fin 4

/-- The number of a vector register `v0..v3`: a 2-bit field (R23, R40). -/
abbrev VReg := Fin 4

/-- A row, column or vector element index 0..7: a 3-bit field (R40, R65). -/
abbrev Idx := Fin 8

end Sys2Proof
end

