-- ==== Sys2Proof/Syntax.lean ====
section
/-! DEFINITION. The 23 commands of spec/opcode_table.json, one constructor per row, the operands in the
order of the assembler forms of spec/30_encoding.md R64 to R66 (the destination first, R73). -/

namespace Sys2Proof

/-- A legal command of MAT-CMD version 1, as syntax (spec/30_encoding.md R68). -/
inductive Instr where
  /-- NOP: no effect (R80). -/
  | nop
  /-- SETM imm16: set the modulus (R81). -/
  | setm (imm : Elem)
  /-- CLRERR: leave the fault state (R82). -/
  | clrerr
  /-- RDSTAT: read status and modulus (R83). -/
  | rdstat
  /-- LDI sd, imm16: load a scalar register (R90). -/
  | ldi (sd : SReg) (imm : Elem)
  /-- RDS ss: read a scalar register (R91). -/
  | rds (ss : SReg)
  /-- AFF sd, sa, sx, sb: affine transform (R100). -/
  | aff (sd sa sx sb : SReg)
  /-- AFFI sd, sa, sy, sb: inverse affine transform (R101). -/
  | affi (sd sa sy sb : SReg)
  /-- INV sd, ss: modular inverse (R102). -/
  | inv (sd ss : SReg)
  /-- GCD sd, ss: greatest common divisor with the modulus (R103). -/
  | gcd (sd ss : SReg)
  /-- SOLVE2 sd, sx1, sy1, sx2, sy2: two-point solver, first half (R104). -/
  | solve2 (sd sx1 sy1 sx2 sy2 : SReg)
  /-- SOLK sda, sdb, sk: two-point solver, the k-th solution (R105). -/
  | solk (sda sdb sk : SReg)
  /-- MDIM kd, n: give a matrix register its dimension (R92). -/
  | mdim (kd : KReg) (n : Elem)
  /-- MSETI kd, i, j, imm16: write one matrix element (R93). -/
  | mseti (kd : KReg) (i j : Idx) (imm : Elem)
  /-- VSETI vd, i, imm16: write one vector element (R94). -/
  | vseti (vd : VReg) (i : Idx) (imm : Elem)
  /-- RDM ks, i, j: read one matrix element (R95). -/
  | rdm (ks : KReg) (i j : Idx)
  /-- RDV vs, i: read one vector element (R96). -/
  | rdv (vs : VReg) (i : Idx)
  /-- RDDIM ks: read a matrix register's dimension (R97). -/
  | rddim (ks : KReg)
  /-- VMUL vd, vs, ks: row vector times matrix (R120). -/
  | vmul (vd vs : VReg) (ks : KReg)
  /-- MVMUL vd, vs, ks: matrix times column vector (R121). -/
  | mvmul (vd vs : VReg) (ks : KReg)
  /-- DET sd, ks: determinant mod m (R132). -/
  | det (sd : SReg) (ks : KReg)
  /-- ADJ kd, ks: adjugate mod m (R133). -/
  | adj (kd ks : KReg)
  /-- MATINV kd, ks: matrix inverse mod m (R134). -/
  | matinv (kd ks : KReg)
  deriving DecidableEq, Repr

end Sys2Proof
end

