-- ==== Sys2Proof/WellFormed.lean ====
section
/-! DEFINITION. What a command must meet beyond the widths of its operands, which the types of `Instr`
already carry (spec/30_encoding.md R70). -/

namespace Sys2Proof

/-- A legal command: SOLK names two different destinations, "one register cannot hold both" results;
every other coincidence of register numbers is legal (spec/30_encoding.md R70). An operand value that is
legal to encode but wrong to execute, MDIM's n or SETM's 0, is well formed (R69). -/
def Instr.WellFormed (i : Instr) : Bool :=
  match i with
  | .solk sda sdb _ => sda != sdb
  | .nop | .setm _ | .clrerr | .rdstat | .ldi .. | .rds _ | .aff .. | .affi .. | .inv .. | .gcd ..
  | .solve2 .. | .mdim .. | .mseti .. | .vseti .. | .rdm .. | .rdv .. | .rddim _ | .vmul ..
  | .mvmul .. | .det .. | .adj .. | .matinv .. => true

end Sys2Proof
end

