-- ==== Sys2Proof/Decode.lean ====
section
/-! DEFINITION. The decoder and the encoder of spec/30_encoding.md. The decoder is total on 32-bit words:
a word is the one row of the opcode table it matches (R68, R71) or illegal (R69, R70). The encoder writes
a command's word from the six formats (R61 to R66). -/

namespace Sys2Proof

/-- `cmd[7:0]`, the opcode (R60). -/
def opcodeOf (w : Word) : BitVec 8 := w.extractLsb' 0 8

/-- `cmd[31:16]`, the only immediate, used as it stands (R67). -/
def immOf (w : Word) : Elem := w.extractLsb' 16 16

/-- The 4-bit scalar register number whose lowest bit is `lo` (R64). -/
def sregAt (w : Word) (lo : Nat) : SReg := (w.extractLsb' lo 4).toFin

/-- The 2-bit matrix or vector register number whose lowest bit is `lo` (R65, R66). -/
def kregAt (w : Word) (lo : Nat) : Fin 4 := (w.extractLsb' lo 2).toFin

/-- The 3-bit row, column or element index whose lowest bit is `lo` (R65). -/
def idxAt (w : Word) (lo : Nat) : Idx := (w.extractLsb' lo 3).toFin

/-- One row of the opcode table of R68: a word is this command exactly when `w &&& mask = matchBits`
and `build` answers a command (it answers none only for SOLK with equal destinations, R70). -/
structure OpRow where
  mnemonic  : String
  matchBits : Word
  mask      : Word
  build     : Word → Option Instr

/-- `w & mask = match` (R68). -/
def OpRow.accepts (r : OpRow) (w : Word) : Bool := w &&& r.mask == r.matchBits

/-- The fields of SOLK; a word with `cmd[11:8] = cmd[15:12]` is illegal (R70). -/
def buildSolk (w : Word) : Option Instr :=
  if sregAt w 8 = sregAt w 12 then none else some (.solk (sregAt w 8) (sregAt w 12) (sregAt w 16))

/-- The opcode map of R68, row by row, with the fields of R61 to R66. -/
def opTable : List OpRow := [
  ⟨"NOP",    0x00000000, 0xFFFFFFFF, fun _ => some .nop⟩,
  ⟨"SETM",   0x00000001, 0x0000FFFF, fun w => some (.setm (immOf w))⟩,
  ⟨"CLRERR", 0x00000002, 0xFFFFFFFF, fun _ => some .clrerr⟩,
  ⟨"RDSTAT", 0x00000003, 0xFFFFFFFF, fun _ => some .rdstat⟩,
  ⟨"LDI",    0x00000008, 0x0000F0FF, fun w => some (.ldi (sregAt w 8) (immOf w))⟩,
  ⟨"RDS",    0x00000009, 0xFFFFF0FF, fun w => some (.rds (sregAt w 8))⟩,
  ⟨"AFF",    0x00000010, 0xFF0000FF,
    fun w => some (.aff (sregAt w 8) (sregAt w 12) (sregAt w 16) (sregAt w 20))⟩,
  ⟨"AFFI",   0x00000011, 0xFF0000FF,
    fun w => some (.affi (sregAt w 8) (sregAt w 12) (sregAt w 16) (sregAt w 20))⟩,
  ⟨"INV",    0x00000012, 0xFFFF00FF, fun w => some (.inv (sregAt w 8) (sregAt w 12))⟩,
  ⟨"GCD",    0x00000013, 0xFFFF00FF, fun w => some (.gcd (sregAt w 8) (sregAt w 12))⟩,
  ⟨"SOLVE2", 0x00000014, 0xF00000FF, fun w =>
    some (.solve2 (sregAt w 8) (sregAt w 12) (sregAt w 16) (sregAt w 20) (sregAt w 24))⟩,
  ⟨"SOLK",   0x00000015, 0xFFF000FF, buildSolk⟩,
  ⟨"MDIM",   0x00000020, 0x0000FCFF, fun w => some (.mdim (kregAt w 8) (immOf w))⟩,
  ⟨"MSETI",  0x00000021, 0x000000FF,
    fun w => some (.mseti (kregAt w 8) (idxAt w 10) (idxAt w 13) (immOf w))⟩,
  ⟨"VSETI",  0x00000022, 0x0000E0FF,
    fun w => some (.vseti (kregAt w 8) (idxAt w 10) (immOf w))⟩,
  ⟨"RDM",    0x00000023, 0xFFFF00FF,
    fun w => some (.rdm (kregAt w 8) (idxAt w 10) (idxAt w 13))⟩,
  ⟨"RDV",    0x00000024, 0xFFFFE0FF, fun w => some (.rdv (kregAt w 8) (idxAt w 10))⟩,
  ⟨"RDDIM",  0x00000025, 0xFFFFFCFF, fun w => some (.rddim (kregAt w 8))⟩,
  ⟨"VMUL",   0x00000028, 0xFFFFC0FF,
    fun w => some (.vmul (kregAt w 8) (kregAt w 10) (kregAt w 12))⟩,
  ⟨"MVMUL",  0x00000029, 0xFFFFC0FF,
    fun w => some (.mvmul (kregAt w 8) (kregAt w 10) (kregAt w 12))⟩,
  ⟨"DET",    0x00000030, 0xFFF0CFFF, fun w => some (.det (sregAt w 16) (kregAt w 12))⟩,
  ⟨"ADJ",    0x00000031, 0xFFFFCCFF, fun w => some (.adj (kregAt w 8) (kregAt w 12))⟩,
  ⟨"MATINV", 0x00000032, 0xFFFFCCFF, fun w => some (.matinv (kregAt w 8) (kregAt w 12))⟩]

/-- The command a word is, or none for an illegal word (R69, R71): the row that accepts it, read with
that row's fields. No two rows accept the same word, so the order of the rows is of no account. -/
def decode (w : Word) : Option Instr := (opTable.find? (·.accepts w)).bind (·.build w)

/-- Each command's opcode, `cmd[7:0]` of every word that is the command (R68). -/
def Instr.opcode (i : Instr) : BitVec 8 :=
  match i with
  | .nop => 0x00 | .setm _ => 0x01 | .clrerr => 0x02 | .rdstat => 0x03
  | .ldi .. => 0x08 | .rds _ => 0x09
  | .aff .. => 0x10 | .affi .. => 0x11 | .inv .. => 0x12 | .gcd .. => 0x13
  | .solve2 .. => 0x14 | .solk .. => 0x15
  | .mdim .. => 0x20 | .mseti .. => 0x21 | .vseti .. => 0x22
  | .rdm .. => 0x23 | .rdv .. => 0x24 | .rddim _ => 0x25
  | .vmul .. => 0x28 | .mvmul .. => 0x29
  | .det .. => 0x30 | .adj .. => 0x31 | .matinv .. => 0x32

/-- Format Z: no operand (R61). -/
def formatZ (op : BitVec 8) : Word := 0#24 ++ op

/-- Format U: one 16-bit immediate (R62). -/
def formatU (imm : Elem) (op : BitVec 8) : Word := imm ++ 0#8 ++ op

/-- Format I: a scalar register and a 16-bit immediate (R63). -/
def formatI (imm : Elem) (sd : SReg) (op : BitVec 8) : Word :=
  imm ++ 0#4 ++ BitVec.ofFin (w := 4) sd ++ op

/-- Format S: up to five scalar register numbers, the unused ones 0 (R64). -/
def formatS (f5 f4 f3 f2 f1 : SReg) (op : BitVec 8) : Word :=
  0#4 ++ BitVec.ofFin (w := 4) f5 ++ BitVec.ofFin (w := 4) f4 ++ BitVec.ofFin (w := 4) f3 ++
    BitVec.ofFin (w := 4) f2 ++ BitVec.ofFin (w := 4) f1 ++ op

/-- Format E: one matrix or vector register, element indices, a 16-bit immediate (R65). -/
def formatE (imm : Elem) (j i : Idx) (r : Fin 4) (op : BitVec 8) : Word :=
  imm ++ BitVec.ofFin (w := 3) j ++ BitVec.ofFin (w := 3) i ++ BitVec.ofFin (w := 2) r ++ op

/-- Format X: whole-register matrix and vector operations (R66). -/
def formatX (sd : SReg) (rk rs rd : Fin 4) (op : BitVec 8) : Word :=
  0#12 ++ BitVec.ofFin (w := 4) sd ++ 0#2 ++ BitVec.ofFin (w := 2) rk ++
    BitVec.ofFin (w := 2) rs ++ BitVec.ofFin (w := 2) rd ++ op

/-- The command word of a command: its format's fields, every unused field 0 (R61 to R66). -/
def encode (i : Instr) : Word :=
  match i with
  | .nop => formatZ i.opcode
  | .setm imm => formatU imm i.opcode
  | .clrerr => formatZ i.opcode
  | .rdstat => formatZ i.opcode
  | .ldi sd imm => formatI imm sd i.opcode
  | .rds ss => formatS 0 0 0 0 ss i.opcode
  | .aff sd sa sx sb => formatS 0 sb sx sa sd i.opcode
  | .affi sd sa sy sb => formatS 0 sb sy sa sd i.opcode
  | .inv sd ss => formatS 0 0 0 ss sd i.opcode
  | .gcd sd ss => formatS 0 0 0 ss sd i.opcode
  | .solve2 sd sx1 sy1 sx2 sy2 => formatS sy2 sx2 sy1 sx1 sd i.opcode
  | .solk sda sdb sk => formatS 0 0 sk sdb sda i.opcode
  | .mdim kd n => formatE n 0 0 kd i.opcode
  | .mseti kd r c imm => formatE imm c r kd i.opcode
  | .vseti vd e imm => formatE imm 0 e vd i.opcode
  | .rdm ks r c => formatE 0 c r ks i.opcode
  | .rdv vs e => formatE 0 0 e vs i.opcode
  | .rddim ks => formatE 0 0 0 ks i.opcode
  | .vmul vd vs ks => formatX 0 ks vs vd i.opcode
  | .mvmul vd vs ks => formatX 0 ks vs vd i.opcode
  | .det sd ks => formatX sd ks 0 0 i.opcode
  | .adj kd ks => formatX 0 ks 0 kd i.opcode
  | .matinv kd ks => formatX 0 ks 0 kd i.opcode

/-- The command word that the low `nbits` bits of `w` are, every bit above them 0. A command is one
32-bit word on 32 parallel wires, so there is no byte order to lay it out in (R48, R60). -/
def tableWord (nbits w : Nat) : Word := BitVec.ofNat 32 (w % 2 ^ nbits)

/-- The command the decoder reads from a table row's bits, or none where it refuses (R71). -/
def decodeTableWord (nbits w : Nat) : Option Instr := decode (tableWord nbits w)

end Sys2Proof
end

