-- ==== Sys2Proof/Config.lean ====
section
/-! DEFINITION. What the spec fixes for this hardware (spec/00_scope.md R5 to R9). None of these is
open: spec/93_implementation_defined.md section 2 says that W, NMAX, NS, NK, NV and the reset modulus
are fixed. The one open parameter, the latency `LAT` (spec/70_reset_and_hazards.md R190), is no number
of the model: it is an input of the step (`ClockEdge.finish`, log entry 3). So there is no free value. -/

namespace Sys2Proof.Config

/-- `NMAX`, the largest matrix dimension (R7). -/
def nmax : Nat := 8

/-- The modulus after reset: the 26 letters of the default alphabet (R6, R9). -/
def resetModulus : Elem := 26

end Sys2Proof.Config
end

