-- ==== Sys2Proof/Machine/Arith.lean ====
section
/-! DEFINITION. The arithmetic primitives of spec/00_scope.md section 6 (R10 to R17) and the adjugate of
spec/44_matrix_inversion.md R131, over exact integers. A matrix is read through its entries `A i j`, i the
row and j the column, counted from 0; only the entries below its dimension matter. -/

namespace Sys2Proof.Machine

/-- `a mod m` for any integer a and m ≥ 1: the residue in [0, m), never negative (R10). -/
def residue (a : Int) (m : Nat) : Nat := (a % (m : Int)).toNat

/-- The extended Euclidean algorithm on remainders `r0`, `r1`, keeping the coefficient of the second
starting value (R14 leaves the method free; log entry 9). `fuel` above `r1` reaches the end. -/
def euclid (fuel r0 r1 : Nat) (t0 t1 : Int) : Int :=
  match fuel with
  | 0 => t0
  | f + 1 => if r1 = 0 then t0 else euclid f r1 (r0 % r1) t1 (t0 - ((r0 / r1 : Nat) : Int) * t1)

/-- `modinv(v, m)` for 0 ≤ v < m and gcd(v, m) = 1: the t in [0, m) with (v·t) mod m = 1 mod m (R14). -/
def modinv (v m : Nat) : Nat := residue (euclid (v + 1) m v 0 1) m

/-- `Σ_{i=0..n−1} f i`, the exact sum. -/
def sumTo (n : Nat) (f : Nat → Int) : Int :=
  match n with
  | 0 => 0
  | k + 1 => sumTo k f + f k

/-- `minor(A, r, c)`: row r and column c deleted (R15). -/
def minor (A : Nat → Nat → Int) (r c : Nat) : Nat → Nat → Int :=
  fun p q => A (p + if p ≥ r then 1 else 0) (q + if q ≥ c then 1 else 0)

/-- `idet(A)` of an n×n integer matrix: the exact determinant by cofactor expansion along row 0, 1 for the
0×0 matrix (R16). -/
def idet (n : Nat) (A : Nat → Nat → Int) : Int :=
  match n with
  | 0 => 1
  | k + 1 => sumTo (k + 1) fun j => (-1) ^ j * A 0 j * idet k (minor A 0 j)

/-- The cofactor `C[i][j]` mod m of an n×n matrix, n ≥ 1 (R131). -/
def cofactor (n : Nat) (A : Nat → Nat → Int) (m i j : Nat) : Nat :=
  residue ((-1) ^ (i + j) * idet (n - 1) (minor A i j)) m

/-- The adjugate mod m, the transpose of the cofactor matrix (R131). -/
def adjugate (n : Nat) (A : Nat → Nat → Int) (m i j : Nat) : Nat := cofactor n A m j i

end Sys2Proof.Machine
end

