-- ==== Sys2Proof/Machine/State.lean ====
section
/-! DEFINITION. The architectural state of the block (spec/10_state.md R20 to R33), its port state
(spec/20_memory.md R41 to R46), the clock edges to come, and the state after reset
(spec/70_reset_and_hazards.md R180). There is no memory in it: the block has none (spec/20_memory.md R40). -/

namespace Sys2Proof.Machine

/-- Why the machine stops: never. The spec's faults are next states (spec/60_exceptions.md R154), and R165
says "No stuck state, no hang", so nothing raises a machine stop and this type has no constructor. That is
safe: no behaviour of the block is cut short by it (log entry 12). -/
inductive Fault where
  deriving DecidableEq, Repr

/-- Why a step gives an instruction no meaning. -/
inductive Refusal where
  /-- Raised by an arm of `exec` whose instruction has no meaning yet. No arm raises it: all 23 commands
  have one. Safe: a refusal proves nothing about the hardware. -/
  | notModelled (mnemonic : String)
  deriving DecidableEq, Repr

/-- The causes of the spec's fault, `CODE` 1 to 5 (spec/60_exceptions.md R151). -/
inductive Cause where
  /-- The word is not a legal encoding (R152). -/
  | illegal
  /-- Configuration error (R156). -/
  | cfg
  /-- A source value is not a ring element, or SOLK's k is not below the count (R153). -/
  | range
  /-- The scalar to invert is not a unit (R158). -/
  | noninv
  /-- The determinant is not a unit (R158). -/
  | singular
  deriving DecidableEq, Repr

/-- The solver context `SOL` (spec/10_state.md R28). -/
structure SolverCtx where
  G  : Elem
  A0 : Elem
  MP : Elem
  X1 : Elem
  Y1 : Elem
  deriving DecidableEq, Repr

/-- A matrix register: `dim` and 64 elements, `e[i][j]` with i the row (spec/10_state.md R22). -/
structure MatReg where
  dim : BitVec 4
  e   : Vector (Vector Elem 8) 8
  deriving DecidableEq, Repr

/-- What one rising clock edge brings to the block (spec/20_memory.md R41): the input pins sampled at it,
and whether a command in progress completes at it. The last is the open latency (R190) as an input of the
step, which is where spec/10_state.md R32 puts it. -/
structure ClockEdge where
  rst      : Bool
  cmdValid : Bool
  cmdData  : Word
  rspReady : Bool
  finish   : Bool
  deriving DecidableEq, Repr

/-- The state of the block between two clock edges. -/
structure State where
  /-- `S[0..15]`, scalar registers (R21). -/
  S : Vector Elem 16
  /-- `K[0..3]`, matrix registers (R22). -/
  K : Vector MatReg 4
  /-- `V[0..3]`, vector registers (R23). -/
  V : Vector (Vector Elem 8) 4
  /-- The modulus m (R24). -/
  M : Elem
  /-- The modulus has been fixed (R25). -/
  MLOCK : Bool
  /-- The sticky fault flag (R26). -/
  FAULT : Bool
  /-- The cause of the fault (R26, R151). -/
  CODE : BitVec 4
  /-- The opcode byte of the faulting word (R26). -/
  FOP : BitVec 8
  /-- The solver context (R28). -/
  SOL : SolverCtx
  /-- Every word responded since reset, oldest first (R31). -/
  RSP : List Word
  /-- The one-word response slot: `rsp_valid` is whether it is full, `rsp_data` its word (R46). -/
  slot : Option Word
  /-- The accepted command that has not completed; `busy` is whether there is one (R45). -/
  inProgress : Option Word
  /-- The last clock edge was a reset edge, which holds `cmd_ready` at 0 (R42, R180). -/
  afterReset : Bool
  /-- The model's own field: the inputs of the coming clock edges, the next one first (R32). -/
  edges : List ClockEdge
  deriving DecidableEq, Repr

/-- The solver context after reset: all zero (R28, R33). -/
def SolverCtx.zero : SolverCtx := ⟨0, 0, 0, 0, 0⟩

/-- A matrix register after reset: no dimension, all elements zero (R33). -/
def MatReg.zero : MatReg := ⟨0, Vector.replicate 8 (Vector.replicate 8 0)⟩

/-- The machine right after a reset edge (spec/10_state.md R33, spec/70_reset_and_hazards.md R180): the
modulus is 26 and everything else 0, the response stream is empty, and the outputs `cmd_ready`, `rsp_valid`,
`busy` and `fault` are 0. No clock edge to come is listed (log entry 2). -/
def State.reset : State where
  S := Vector.replicate 16 0
  K := Vector.replicate 4 MatReg.zero
  V := Vector.replicate 4 (Vector.replicate 8 0)
  M := Config.resetModulus
  MLOCK := false
  FAULT := false
  CODE := 0
  FOP := 0
  SOL := SolverCtx.zero
  RSP := []
  slot := none
  inProgress := none
  afterReset := true
  edges := []

end Sys2Proof.Machine
end

