-- ==== Sys2Proof/Machine/Flags.lean ====
section
/-! DEFINITION. The control and status fields: `MLOCK`, the fault codes and the STATUS view
(spec/10_state.md R25 to R27, spec/60_exceptions.md R151). There are no condition codes, so no command
computes a flag from its result (spec/10_state.md R30). -/

namespace Sys2Proof.Machine

/-- The number of a cause in `CODE` (R151). -/
def Cause.code (c : Cause) : BitVec 4 :=
  match c with
  | .illegal => 1
  | .cfg => 2
  | .range => 3
  | .noninv => 4
  | .singular => 5

/-- `MLOCK <- 1` (R25). -/
def State.lock (s : State) : State := { s with MLOCK := true }

/-- `STATUS = {M, FOP, CODE, 0b00, MLOCK, FAULT}`, a view and not storage (R27). -/
def State.status (s : State) : Word :=
  s.M ++ s.FOP ++ s.CODE ++ 0#2 ++ BitVec.ofBool s.MLOCK ++ BitVec.ofBool s.FAULT

end Sys2Proof.Machine
end

