-- ==== Sys2Proof/Machine/Ops.lean ====
section
/-! DEFINITION. The named operations over the register files and the response stream, taking a fault and
returning from one, and the frame every command runs in (spec/20_memory.md R40, R44, R46;
spec/60_exceptions.md R154, R155, R161). -/

namespace Sys2Proof.Machine

/-! ## Register files -/

/-- `S[r]` (R21). -/
def State.getS (s : State) (r : SReg) : Elem := s.S[r]

/-- `S[r] <- x` (R21). -/
def State.setS (s : State) (r : SReg) (x : Elem) : State := { s with S := s.S.set r x }

/-- Element (i, j) of a matrix register, i the row (R22); 0 for a row or column number that does not
exist, which no command asks for while `dim ≤ 8` (log entry 10). -/
def MatReg.entry (k : MatReg) (i j : Nat) : Elem :=
  if h : i < 8 ∧ j < 8 then (k.e[i]'h.1)[j]'h.2 else 0

/-- `K[k].e[i][j]` (R22). -/
def State.getK (s : State) (k : KReg) (i j : Idx) : Elem := (s.K[k].e[i])[j]

/-- `K[k].e[i][j] <- x`; `dim` and every other element stay (R93). -/
def State.setK (s : State) (k : KReg) (i j : Idx) (x : Elem) : State :=
  { s with K := s.K.set k { s.K[k] with e := s.K[k].e.set i (s.K[k].e[i].set j x) } }

/-- `K[k].dim` (R22). -/
def State.getDim (s : State) (k : KReg) : BitVec 4 := s.K[k].dim

/-- `K[k].dim <- n`; all 64 elements stay (R92). -/
def State.setDim (s : State) (k : KReg) (n : BitVec 4) : State :=
  { s with K := s.K.set k { s.K[k] with dim := n } }

/-- A matrix register with dimension n and `e[i][j] <- R i j` for i, j < n; the elements outside the leading
block keep their values (R133). -/
def MatReg.withBlock (k : MatReg) (n : BitVec 4) (R : Nat → Nat → Elem) : MatReg where
  dim := n
  e := Vector.ofFn fun i => Vector.ofFn fun j =>
    if i.val < n.toNat ∧ j.val < n.toNat then R i j else (k.e[i])[j]

/-- `K[k].dim <- n` and `K[k].e[i][j] <- R i j` for i, j < n (R133, R134). -/
def State.setBlock (s : State) (k : KReg) (n : BitVec 4) (R : Nat → Nat → Elem) : State :=
  { s with K := s.K.set k (s.K[k].withBlock n R) }

/-- `V[v].e[i]` (R23). -/
def State.getV (s : State) (v : VReg) (i : Idx) : Elem := (s.V[v])[i]

/-- Element i of a vector register; 0 for an element number that does not exist (log entry 10). -/
def State.vecAt (s : State) (v : VReg) (i : Nat) : Elem :=
  if h : i < 8 then (s.V[v])[i]'h else 0

/-- `V[v].e[i] <- x` (R94). -/
def State.setV (s : State) (v : VReg) (i : Idx) (x : Elem) : State :=
  { s with V := s.V.set v (s.V[v].set i x) }

/-- `V[v].e[i] <- r i` for i < n; elements n..7 keep their values (R120, R121). -/
def State.setVec (s : State) (v : VReg) (n : Nat) (r : Nat → Elem) : State :=
  { s with V := s.V.set v (Vector.ofFn fun i => if i.val < n then r i else (s.V[v])[i]) }

/-- `M <- m` and `MLOCK <- 1`, a successful SETM (R81). -/
def State.setModulus (s : State) (m : Elem) : State := { s with M := m, MLOCK := true }

/-- `SOL <- c` (R28). -/
def State.setSol (s : State) (c : SolverCtx) : State := { s with SOL := c }

/-- `Respond(v)`: the word joins the response stream and waits in the response slot (R46). -/
def State.respond (s : State) (v : Word) : State :=
  { s with RSP := s.RSP ++ [v], slot := some v }

/-! ## Taking a fault and returning from it -/

/-- Fault entry, the three fields every fault writes: `FAULT <- 1`, `CODE <-` the cause, `FOP <- cmd[7:0]`
(R154). Nothing is saved and control goes nowhere. -/
def State.raise (s : State) (op : BitVec 8) (c : Cause) : State :=
  { s with FAULT := true, CODE := c.code, FOP := op }

/-- The return from the fault state, CLRERR's effect: the three fields become 0 and nothing is restored,
because nothing was saved (R82, R161). -/
def State.clearFault (s : State) : State := { s with FAULT := false, CODE := 0, FOP := 0 }

/-! ## The frame of a command -/

/-- What a command's pseudocode answers: the state with all its destinations written, or the first cause
that applies, in which case nothing is written (R44, R157). -/
abbrev Result := Except Cause State

/-- A command that is squashed in the fault state (R155) and is not a ring command: it completes with all
its writes, or faults and writes only the fault fields (R44, R154). -/
def runCommand (op : BitVec 8) (body : State → Result) (s : State) : State :=
  if s.FAULT then s
  else match body s with
    | .ok t => t
    | .error c => s.raise op c

/-- A ring command: as `runCommand`, and `MLOCK <- 1` whether it completes or faults; squashed, it sets
nothing (R25, R154, R155). -/
def runRing (op : BitVec 8) (body : State → Result) (s : State) : State :=
  if s.FAULT then s
  else match body s with
    | .ok t => t.lock
    | .error c => (s.raise op c).lock

/-- An illegal word: the fault ILLEGAL with the word's low byte as `FOP`, or squashed in the fault state;
it never sets `MLOCK` (R152, R155). -/
def illegalWord (op : BitVec 8) (s : State) : State :=
  if s.FAULT then s else s.raise op .illegal

end Sys2Proof.Machine
end

