-- ==== Sys2Proof/Machine/Operands.lean ====
section
/-! DEFINITION. Reading the operands of a ring command: `require_ring` (spec/60_exceptions.md R153), the
configured dimension (R156), a source matrix (spec/44_matrix_inversion.md R130) and a source vector
(spec/43_hill_multiply.md R120). Operands are register numbers used directly; there are no addressing modes
(spec/30_encoding.md R67). -/

namespace Sys2Proof.Machine

/-- A stored value is a ring element when it is below `M` (spec/00_scope.md R11). -/
def State.isRing (s : State) (x : Elem) : Bool := decide (x.toNat < s.M.toNat)

/-- `require_ring(v1, v2, ...)`: RANGE unless every value is below `M` (R153). -/
def requireRing (s : State) (xs : List Elem) : Except Cause Unit :=
  if xs.all s.isRing then .ok () else .error .range

/-- The dimension of a source matrix register: CFG when it has none (R156). -/
def requireDim (s : State) (k : KReg) : Except Cause Nat :=
  if s.getDim k = 0 then .error .cfg else .ok (s.getDim k).toNat

/-- The n² elements of the leading block, row by row (R22, R130). -/
def MatReg.block (k : MatReg) (n : Nat) : List Elem :=
  (List.range n).flatMap fun i => (List.range n).map fun j => k.entry i j

/-- The first n elements of a vector register (R23). -/
def State.vecBlock (s : State) (v : VReg) (n : Nat) : List Elem := (List.range n).map (s.vecAt v)

/-- The entries of a source matrix as integers: `A[i][j] <- K[ks].e[i][j]` (R130). -/
def State.entries (s : State) (k : KReg) : Nat → Nat → Int := fun i j => ((s.K[k].entry i j).toNat : Int)

/-- The elements of a source vector as integers: `v[i] <- V[vs].e[i]` (R120). -/
def State.vecEntries (s : State) (v : VReg) : Nat → Int := fun i => ((s.vecAt v i).toNat : Int)

/-- `read_matrix(ks)`: the dimension, after the CFG and RANGE checks in that order (R130, R157). The
matrix itself is `s.entries ks`. -/
def readMatrix (s : State) (k : KReg) : Except Cause Nat := do
  let n ← requireDim s k
  requireRing s (s.K[k].block n)
  pure n

/-- The operands of VMUL and MVMUL: the dimension, after CFG and then RANGE over the n² matrix elements
and the first n vector elements (R120, R157). -/
def readMatVec (s : State) (k : KReg) (v : VReg) : Except Cause Nat := do
  let n ← requireDim s k
  requireRing s (s.K[k].block n ++ s.vecBlock v n)
  pure n

/-- A number below 2^16 as a stored element. -/
def toElem (n : Nat) : Elem := BitVec.ofNat 16 n

end Sys2Proof.Machine
end

