-- ==== Sys2Proof/Machine/Affine.lean ====
section
/-! DEFINITION. Affine unit commands: AFF, AFFI, INV, GCD, SOLVE2, SOLK (spec/42_affine.md R100 to R105).
All six are ring commands. Each body reads its sources, then raises in the order RANGE, NONINV
(spec/60_exceptions.md R157), then writes. -/

namespace Sys2Proof.Machine

/-- AFF's pseudocode (R100). -/
def affBody (sd sa sx sb : SReg) (s : State) : Result := do
  let a := s.getS sa
  let x := s.getS sx
  let b := s.getS sb
  requireRing s [a, x, b]
  pure (s.setS sd (toElem ((a.toNat * x.toNat + b.toNat) % s.M.toNat)))

/-- AFF sd, sa, sx, sb: (a·x + b) mod m; a need not be a unit (R100). -/
def execAff (sd sa sx sb : SReg) (s : State) : Host.Outcome State Fault Refusal :=
  .next (runRing (Instr.aff sd sa sx sb).opcode (affBody sd sa sx sb) s)

/-- AFFI's pseudocode (R101). -/
def affiBody (sd sa sy sb : SReg) (s : State) : Result := do
  let a := s.getS sa
  let y := s.getS sy
  let b := s.getS sb
  let m := s.M.toNat
  requireRing s [a, y, b]
  if Nat.gcd a.toNat m ≠ 1 then .error .noninv
  else
    let diff := residue ((y.toNat : Int) - (b.toNat : Int)) m
    pure (s.setS sd (toElem ((modinv a.toNat m * diff) % m)))

/-- AFFI sd, sa, sy, sb: a_inv·(y − b) mod m; NONINV when a is not a unit (R101). -/
def execAffi (sd sa sy sb : SReg) (s : State) : Host.Outcome State Fault Refusal :=
  .next (runRing (Instr.affi sd sa sy sb).opcode (affiBody sd sa sy sb) s)

/-- INV's pseudocode (R102). -/
def invBody (sd ss : SReg) (s : State) : Result := do
  let v := s.getS ss
  requireRing s [v]
  if Nat.gcd v.toNat s.M.toNat ≠ 1 then .error .noninv
  else pure (s.setS sd (toElem (modinv v.toNat s.M.toNat)))

/-- INV sd, ss: the modular inverse; NONINV when the source is not a unit (R102). -/
def execInv (sd ss : SReg) (s : State) : Host.Outcome State Fault Refusal :=
  .next (runRing (Instr.inv sd ss).opcode (invBody sd ss) s)

/-- GCD's pseudocode (R103). -/
def gcdBody (sd ss : SReg) (s : State) : Result := do
  let v := s.getS ss
  requireRing s [v]
  pure (s.setS sd (toElem (Nat.gcd v.toNat s.M.toNat)))

/-- GCD sd, ss: gcd(v, m) in [1, m], m for v = 0; a non-unit is an answer, not a fault (R103). -/
def execGcd (sd ss : SReg) (s : State) : Host.Outcome State Fault Refusal :=
  .next (runRing (Instr.gcd sd ss).opcode (gcdBody sd ss) s)

/-- The solver context for the points (x1, y1), (x2, y2) mod m; its `G` is the count SOLVE2 writes (R104). -/
def solve (x1 y1 x2 y2 : Elem) (m : Nat) : SolverCtx :=
  let dx := residue ((x2.toNat : Int) - (x1.toNat : Int)) m
  let dy := residue ((y2.toNat : Int) - (y1.toNat : Int)) m
  let g := Nat.gcd dx m
  if dy % g ≠ 0 then ⟨0, 0, 0, x1, y1⟩
  else
    let m' := m / g
    let inv := modinv (dx / g) m'
    ⟨toElem g, toElem ((dy / g * inv) % m'), toElem m', x1, y1⟩

/-- SOLVE2's pseudocode (R104). -/
def solve2Body (sd sx1 sy1 sx2 sy2 : SReg) (s : State) : Result := do
  let x1 := s.getS sx1
  let y1 := s.getS sy1
  let x2 := s.getS sx2
  let y2 := s.getS sy2
  requireRing s [x1, y1, x2, y2]
  let c := solve x1 y1 x2 y2 s.M.toNat
  pure ((s.setSol c).setS sd c.G)

/-- SOLVE2 sd, sx1, sy1, sx2, sy2: the number of solutions, and the context that SOLK reads; no solution is
the count 0 and no fault (R104, R159). -/
def execSolve2 (sd sx1 sy1 sx2 sy2 : SReg) (s : State) : Host.Outcome State Fault Refusal :=
  .next (runRing (Instr.solve2 sd sx1 sy1 sx2 sy2).opcode (solve2Body sd sx1 sy1 sx2 sy2) s)

/-- `a_k` of a solver context (R105). -/
def SolverCtx.coeff (c : SolverCtx) (m k : Nat) : Nat := (c.A0.toNat + k * c.MP.toNat) % m

/-- `b_k` of a solver context (R105). -/
def SolverCtx.offset (c : SolverCtx) (m k : Nat) : Nat :=
  residue ((c.Y1.toNat : Int) - (c.coeff m k : Int) * (c.X1.toNat : Int)) m

/-- SOLK's pseudocode; k is checked against `SOL.G`, not against m (R105, R153). -/
def solkBody (sda sdb sk : SReg) (s : State) : Result := do
  let k := (s.getS sk).toNat
  if k ≥ s.SOL.G.toNat then .error .range
  else
    pure ((s.setS sda (toElem (s.SOL.coeff s.M.toNat k))).setS sdb (toElem (s.SOL.offset s.M.toNat k)))

/-- SOLK sda, sdb, sk: the k-th solution; `SOL` stays (R105). -/
def execSolk (sda sdb sk : SReg) (s : State) : Host.Outcome State Fault Refusal :=
  .next (runRing (Instr.solk sda sdb sk).opcode (solkBody sda sdb sk) s)

end Sys2Proof.Machine
end

