-- ==== Sys2Proof/Machine/Data.lean ====
section
/-! DEFINITION. Data movement commands: LDI, RDS, MDIM, MSETI, VSETI, RDM, RDV, RDDIM
(spec/41_data_movement.md R90 to R98). None reads `M`, checks a value or sets `MLOCK`; the four reads are
always executed (spec/60_exceptions.md R155). -/

namespace Sys2Proof.Machine

/-- LDI sd, imm16: any value is stored (R90). -/
def execLdi (sd : SReg) (imm : Elem) (s : State) : Host.Outcome State Fault Refusal :=
  .next (runCommand (Instr.ldi sd imm).opcode (fun s => .ok (s.setS sd imm)) s)

/-- RDS ss: respond the register, zero-extended (R91). -/
def execRds (ss : SReg) (s : State) : Host.Outcome State Fault Refusal :=
  .next (s.respond ((s.getS ss).setWidth 32))

/-- MDIM's pseudocode: CFG unless 1 ≤ n ≤ NMAX (R92, R156). -/
def mdimBody (kd : KReg) (n : Elem) (s : State) : Result :=
  if n.toNat = 0 ∨ n.toNat > Config.nmax then .error .cfg else .ok (s.setDim kd (n.setWidth 4))

/-- MDIM kd, n: give a matrix register its dimension (R92). -/
def execMdim (kd : KReg) (n : Elem) (s : State) : Host.Outcome State Fault Refusal :=
  .next (runCommand (Instr.mdim kd n).opcode (mdimBody kd n) s)

/-- MSETI kd, i, j, imm16: any element, inside the leading block or not, any value (R93). -/
def execMseti (kd : KReg) (i j : Idx) (imm : Elem) (s : State) : Host.Outcome State Fault Refusal :=
  .next (runCommand (Instr.mseti kd i j imm).opcode (fun s => .ok (s.setK kd i j imm)) s)

/-- VSETI vd, i, imm16: any element, any value (R94). -/
def execVseti (vd : VReg) (i : Idx) (imm : Elem) (s : State) : Host.Outcome State Fault Refusal :=
  .next (runCommand (Instr.vseti vd i imm).opcode (fun s => .ok (s.setV vd i imm)) s)

/-- RDM ks, i, j: respond the element, whatever `dim` is (R95). -/
def execRdm (ks : KReg) (i j : Idx) (s : State) : Host.Outcome State Fault Refusal :=
  .next (s.respond ((s.getK ks i j).setWidth 32))

/-- RDV vs, i: respond the element (R96). -/
def execRdv (vs : VReg) (i : Idx) (s : State) : Host.Outcome State Fault Refusal :=
  .next (s.respond ((s.getV vs i).setWidth 32))

/-- RDDIM ks: respond the dimension, 0 for a register never given one (R97). -/
def execRddim (ks : KReg) (s : State) : Host.Outcome State Fault Refusal :=
  .next (s.respond ((s.getDim ks).setWidth 32))

end Sys2Proof.Machine
end

