-- ==== Sys2Proof/Machine/Hill.lean ====
section
/-! DEFINITION. Hill multiply unit commands: VMUL and MVMUL (spec/43_hill_multiply.md R120, R121). Where the
formula and the literal of the source disagree, spec/90_conflicts.md C1: VMUL is row vector times matrix,
MVMUL is matrix times column vector. -/

namespace Sys2Proof.Machine

/-- `r[j] = (Σ_i v[i]·A[i][j]) mod m` (R120). -/
def rowTimes (n : Nat) (v : Nat → Int) (A : Nat → Nat → Int) (m j : Nat) : Nat :=
  residue (sumTo n fun i => v i * A i j) m

/-- `r[i] = (Σ_j A[i][j]·v[j]) mod m` (R121). -/
def timesCol (n : Nat) (A : Nat → Nat → Int) (v : Nat → Int) (m i : Nat) : Nat :=
  residue (sumTo n fun j => A i j * v j) m

/-- VMUL's pseudocode (R120). -/
def vmulBody (vd vs : VReg) (ks : KReg) (s : State) : Result := do
  let n ← readMatVec s ks vs
  pure (s.setVec vd n fun j => toElem (rowTimes n (s.vecEntries vs) (s.entries ks) s.M.toNat j))

/-- VMUL vd, vs, ks: row vector times matrix mod m (R120). -/
def execVmul (vd vs : VReg) (ks : KReg) (s : State) : Host.Outcome State Fault Refusal :=
  .next (runRing (Instr.vmul vd vs ks).opcode (vmulBody vd vs ks) s)

/-- MVMUL's pseudocode (R121). -/
def mvmulBody (vd vs : VReg) (ks : KReg) (s : State) : Result := do
  let n ← readMatVec s ks vs
  pure (s.setVec vd n fun i => toElem (timesCol n (s.entries ks) (s.vecEntries vs) s.M.toNat i))

/-- MVMUL vd, vs, ks: matrix times column vector mod m (R121). -/
def execMvmul (vd vs : VReg) (ks : KReg) (s : State) : Host.Outcome State Fault Refusal :=
  .next (runRing (Instr.mvmul vd vs ks).opcode (mvmulBody vd vs ks) s)

end Sys2Proof.Machine
end

