-- ==== Sys2Proof/Machine/Inversion.lean ====
section
/-! DEFINITION. Matrix inversion unit commands: DET, ADJ, MATINV (spec/44_matrix_inversion.md R130 to R134).
Faults in the order CFG, RANGE, SINGULAR (spec/60_exceptions.md R157). -/

namespace Sys2Proof.Machine

/-- `idet(A) mod m` of a source matrix register (R132). -/
def State.detResidue (s : State) (k : KReg) (n : Nat) : Nat := residue (idet n (s.entries k)) s.M.toNat

/-- DET's pseudocode (R132). -/
def detBody (sd : SReg) (ks : KReg) (s : State) : Result := do
  let n ← readMatrix s ks
  pure (s.setS sd (toElem (s.detResidue ks n)))

/-- DET sd, ks: determinant mod m; a non-unit is an answer, not a fault (R132). -/
def execDet (sd : SReg) (ks : KReg) (s : State) : Host.Outcome State Fault Refusal :=
  .next (runRing (Instr.det sd ks).opcode (detBody sd ks) s)

/-- ADJ's pseudocode (R133). -/
def adjBody (kd ks : KReg) (s : State) : Result := do
  let n ← readMatrix s ks
  pure (s.setBlock kd (s.getDim ks) fun i j => toElem (adjugate n (s.entries ks) s.M.toNat i j))

/-- ADJ kd, ks: adjugate mod m, with the source's dimension (R133). -/
def execAdj (kd ks : KReg) (s : State) : Host.Outcome State Fault Refusal :=
  .next (runRing (Instr.adj kd ks).opcode (adjBody kd ks) s)

/-- MATINV's pseudocode (R134). -/
def matinvBody (kd ks : KReg) (s : State) : Result := do
  let n ← readMatrix s ks
  let m := s.M.toNat
  let det := s.detResidue ks n
  if Nat.gcd det m ≠ 1 then .error .singular
  else
    let detInv := modinv det m
    pure (s.setBlock kd (s.getDim ks) fun i j =>
      toElem ((detInv * adjugate n (s.entries ks) m i j) % m))

/-- MATINV kd, ks: matrix inverse mod m; SINGULAR when the determinant is not a unit (R134). -/
def execMatinv (kd ks : KReg) (s : State) : Host.Outcome State Fault Refusal :=
  .next (runRing (Instr.matinv kd ks).opcode (matinvBody kd ks) s)

end Sys2Proof.Machine
end

