-- ==== Sys2Proof/Machine/System.lean ====
section
/-! DEFINITION. System and configuration commands: NOP, SETM, CLRERR, RDSTAT
(spec/40_system_config.md R80 to R83). -/

namespace Sys2Proof.Machine

/-- NOP: nothing, in the fault state too (R80, R155). -/
def execNop (s : State) : Host.Outcome State Fault Refusal := .next s

/-- SETM's pseudocode (R81). -/
def setmBody (imm : Elem) (s : State) : Result :=
  if s.MLOCK then .error .cfg
  else if imm = 0 then .error .cfg
  else .ok (s.setModulus imm)

/-- SETM imm16: fix the modulus once; CFG when it is fixed already or imm16 is 0 (R81, R156). -/
def execSetm (imm : Elem) (s : State) : Host.Outcome State Fault Refusal :=
  .next (runCommand (Instr.setm imm).opcode (setmBody imm) s)

/-- CLRERR: leave the fault state; always executed (R82, R161). -/
def execClrerr (s : State) : Host.Outcome State Fault Refusal := .next s.clearFault

/-- RDSTAT: respond STATUS; always executed, and reading clears nothing (R83). -/
def execRdstat (s : State) : Host.Outcome State Fault Refusal := .next (s.respond s.status)

end Sys2Proof.Machine
end

