-- ==== Sys2Proof/Machine/Dispatch.lean ====
section
/-! DEFINITION. One arm per command, each one call of its meaning. -/

namespace Sys2Proof.Machine

/-- The meaning of a legal command in a state (spec/20_memory.md R44): one indivisible transition. -/
def exec (i : Instr) (s : State) : Host.Outcome State Fault Refusal :=
  match i with
  | .nop => Sys2Proof.Machine.execNop s
  | .setm imm => Sys2Proof.Machine.execSetm imm s
  | .clrerr => Sys2Proof.Machine.execClrerr s
  | .rdstat => Sys2Proof.Machine.execRdstat s
  | .ldi sd imm => Sys2Proof.Machine.execLdi sd imm s
  | .rds ss => Sys2Proof.Machine.execRds ss s
  | .aff sd sa sx sb => Sys2Proof.Machine.execAff sd sa sx sb s
  | .affi sd sa sy sb => Sys2Proof.Machine.execAffi sd sa sy sb s
  | .inv sd ss => Sys2Proof.Machine.execInv sd ss s
  | .gcd sd ss => Sys2Proof.Machine.execGcd sd ss s
  | .solve2 sd sx1 sy1 sx2 sy2 => Sys2Proof.Machine.execSolve2 sd sx1 sy1 sx2 sy2 s
  | .solk sda sdb sk => Sys2Proof.Machine.execSolk sda sdb sk s
  | .mdim kd n => Sys2Proof.Machine.execMdim kd n s
  | .mseti kd r c imm => Sys2Proof.Machine.execMseti kd r c imm s
  | .vseti vd e imm => Sys2Proof.Machine.execVseti vd e imm s
  | .rdm ks r c => Sys2Proof.Machine.execRdm ks r c s
  | .rdv vs e => Sys2Proof.Machine.execRdv vs e s
  | .rddim ks => Sys2Proof.Machine.execRddim ks s
  | .vmul vd vs ks => Sys2Proof.Machine.execVmul vd vs ks s
  | .mvmul vd vs ks => Sys2Proof.Machine.execMvmul vd vs ks s
  | .det sd ks => Sys2Proof.Machine.execDet sd ks s
  | .adj kd ks => Sys2Proof.Machine.execAdj kd ks s
  | .matinv kd ks => Sys2Proof.Machine.execMatinv kd ks s

end Sys2Proof.Machine
end

