-- ==== Sys2Proof/Machine/Ports.lean ====
section
/-! DEFINITION. The ports (spec/20_memory.md R41): the outputs as views of the state, and what a clock edge
does beside a command's own transition (R42, R45, R46; spec/70_reset_and_hazards.md R180, R181). -/

namespace Sys2Proof.Machine

/-- `busy`: a command has been accepted and has not completed (R45). -/
def State.busy (s : State) : Bool := s.inProgress.isSome

/-- `rsp_valid`: a response word waits (R46). -/
def State.rspValid (s : State) : Bool := s.slot.isSome

/-- `rsp_data`, which has a value only while `rsp_valid = 1` (R46, log entry 8). -/
def State.rspData (s : State) : Option Word := s.slot

/-- `cmd_ready`: no command in progress, no response waiting, and the last edge was no reset edge (R42). -/
def State.cmdReady (s : State) : Bool := !s.busy && !s.rspValid && !s.afterReset

/-- `fault`: a level copy of `FAULT` (R41, spec/60_exceptions.md R162). -/
def State.faultOut (s : State) : Bool := s.FAULT

/-- The edge that comes when no edge is listed: the host neither resets nor offers a command and takes a
waiting response, and a command in progress completes (log entry 2; fairness of R47 and R190). -/
def ClockEdge.idle : ClockEdge := ⟨false, false, 0, true, true⟩

/-- The next clock edge. -/
def State.nextEdge (s : State) : ClockEdge := s.edges.headD ClockEdge.idle

/-- What every edge with `rst = 0` does first: it is used up, the cycle after a reset ends (R180), and the
host takes a waiting response if it is ready for it (R46). -/
def State.sampled (s : State) (e : ClockEdge) : State :=
  { s with edges := s.edges.tail, afterReset := false, slot := if e.rspReady then none else s.slot }

/-- A reset edge: every piece of state takes its reset value, a command in progress is abandoned and a
waiting response dropped (R180, R181); the coming edges stay the host's. -/
def State.resetEdge (s : State) : State := { State.reset with edges := s.edges.tail }

/-- The command word is accepted: `busy` becomes 1 (R42, R45). -/
def State.acceptWord (s : State) (w : Word) : State := { s with inProgress := some w }

/-- The command in progress is over; its transition takes effect at this edge (R45). -/
def State.complete (s : State) : State := { s with inProgress := none }

end Sys2Proof.Machine
end

