-- ==== Sys2Proof/Machine/Step.lean ====
section
/-! DEFINITION. The step: one rising clock edge (spec/20_memory.md R41 to R47), and the transition of one
accepted command word (spec/60_exceptions.md R152, R154, R155). -/

namespace Sys2Proof.Machine

/-- The transition of an accepted command word: its command's, or the illegal word's (R69, R152). -/
def execWord (w : Word) (s : State) : Host.Outcome State Fault Refusal :=
  match decode w with
  | some i => exec i s
  | none => .next (illegalWord (opcodeOf w) s)

/-- One rising clock edge. With `rst = 1` it resets (R180). Otherwise a command in progress completes if its
latency is over at this edge (R45, R190), and a word is accepted if it is offered and `cmd_ready = 1` before
the edge (R42). -/
def step (s : State) : Host.Outcome State Fault Refusal :=
  if s.nextEdge.rst then .next s.resetEdge
  else
    match s.inProgress with
    | some w =>
      if s.nextEdge.finish then execWord w (s.sampled s.nextEdge).complete
      else .next (s.sampled s.nextEdge)
    | none =>
      if s.nextEdge.cmdValid && s.cmdReady then
        .next ((s.sampled s.nextEdge).acceptWord s.nextEdge.cmdData)
      else .next (s.sampled s.nextEdge)

/-- The state in which the very next step runs the command whose word is `w` (its bits above `nbits` 0): that
word has been accepted, which takes a block with no response waiting and past the cycle after reset (R42), and
the next edge is the one at which it completes (log entry 4). -/
def State.withFetchWord (s : State) (nbits w : Nat) : State :=
  { s with
    inProgress := some (tableWord nbits w)
    slot := none
    afterReset := false
    edges := ClockEdge.idle :: s.edges }

end Sys2Proof.Machine
end

