-- ==== Sys2Proof/Machine/Asm.lean ====
section
/-! DEFINITION. The assembler of spec/30_encoding.md R73 and R74: one line of text to one command, and a command
back to text. A line is a list of characters. What R73 leaves open of the layout (which characters are white
space, where it may stand, how an `0x` numeral is cased) is log entry 13. -/

namespace Sys2Proof.Machine

/-- What the assembler makes of one line (R73). -/
inductive AsmLine where
  /-- Nothing but white space and a comment: ignored. -/
  | blank
  /-- One command. -/
  | command (i : Instr)
  /-- The assembler rejects the line; it does not truncate an operand (R73). -/
  | rejected
  deriving DecidableEq, Repr

/-- A line without its white space and comment: words and the commas between operands. -/
inductive Token where
  | word (cs : List Char)
  | comma
  deriving DecidableEq, Repr

/-- The white space of a line. -/
def isSpace (c : Char) : Bool := c == ' ' || c == '\t' || c == '\r'

/-- Mnemonics and register names are case-insensitive (R19, R73). -/
def lowerChar (c : Char) : Char :=
  if 65 ≤ c.toNat ∧ c.toNat ≤ 90 then Char.ofNat (c.toNat + 32) else c

/-- The word read so far, if any. -/
def endWord (acc : List Char) : List Token := if acc = [] then [] else [.word acc]

/-- The tokens of a line; `;` starts a comment that runs to its end (R73). -/
def tokens (acc : List Char) : List Char → List Token
  | [] => endWord acc
  | c :: cs =>
    if c = ';' then endWord acc
    else if c = ',' then endWord acc ++ .comma :: tokens [] cs
    else if isSpace c then endWord acc ++ tokens [] cs
    else tokens (acc ++ [c]) cs

/-- The operands after the mnemonic, "separated by commas" (R73). -/
def operandsAfter (first : List Char) : List Token → Option (List (List Char))
  | [] => some [first]
  | .comma :: .word w :: ts => (operandsAfter w ts).map (first :: ·)
  | _ => none

/-- The operands of a command: none, or words with commas between them. -/
def operandList (ts : List Token) : Option (List (List Char)) :=
  match ts with
  | [] => some []
  | .word w :: ts => operandsAfter w ts
  | .comma :: _ => none

/-! ## Operands -/

/-- A digit's value, hexadecimal digits in either case. -/
def digitValue (c : Char) : Option Nat :=
  let n := c.toNat
  if 48 ≤ n ∧ n ≤ 57 then some (n - 48)
  else if 97 ≤ n ∧ n ≤ 102 then some (n - 87)
  else if 65 ≤ n ∧ n ≤ 70 then some (n - 55)
  else none

/-- The value of a row of digits below `base`, after the value `acc` of the digits before them. -/
def digitsValue (base acc : Nat) : List Char → Option Nat
  | [] => some acc
  | c :: cs =>
    match digitValue c with
    | some d => if d < base then digitsValue base (acc * base + d) cs else none
    | none => none

/-- An unsigned numeral, decimal or `0x` hexadecimal, with no sign (R73). -/
def numeral (cs : List Char) : Option Nat :=
  match cs with
  | [] => none
  | ['0', 'x'] => none
  | '0' :: 'x' :: ds => digitsValue 16 0 ds
  | _ => digitsValue 10 0 cs

/-- The digits of n in base 10, in front of `acc`; `fuel` is at least their number. -/
def decimalDigits (fuel n : Nat) (acc : List Char) : List Char :=
  match fuel with
  | 0 => acc
  | f + 1 =>
    if n < 10 then Char.ofNat (48 + n) :: acc
    else decimalDigits f (n / 10) (Char.ofNat (48 + n % 10) :: acc)

/-- A number below 100000 in decimal. -/
def decimal (n : Nat) : List Char := decimalDigits 5 n []

/-- `s0`..`s15` (R73). -/
def sregText (r : SReg) : List Char := 's' :: decimal r

/-- `k0`..`k3` (R73). -/
def kregText (r : KReg) : List Char := 'k' :: decimal r

/-- `v0`..`v3` (R73). -/
def vregText (r : VReg) : List Char := 'v' :: decimal r

/-- A scalar register operand. -/
def readSreg (cs : List Char) : Option SReg := (List.finRange 16).find? fun r => sregText r == cs.map lowerChar

/-- A matrix register operand. -/
def readKreg (cs : List Char) : Option KReg := (List.finRange 4).find? fun r => kregText r == cs.map lowerChar

/-- A vector register operand. -/
def readVreg (cs : List Char) : Option VReg := (List.finRange 4).find? fun r => vregText r == cs.map lowerChar

/-- An index operand, 0..7, others rejected (R73). -/
def readIdx (cs : List Char) : Option Idx :=
  (numeral cs).bind fun n => if h : n < 8 then some ⟨n, h⟩ else none

/-- An immediate operand, 0..65535, others rejected (R73). -/
def readImm (cs : List Char) : Option Elem :=
  (numeral cs).bind fun n => if n < 65536 then some (BitVec.ofNat 16 n) else none

/-! ## Lines -/

/-- The forms of R73, mnemonic by mnemonic: what the operands build. There are no others (R74). -/
def asmForms : List (List Char × (List (List Char) → Option Instr)) := [
  (['n', 'o', 'p'], fun ops => match ops with | [] => some .nop | _ => none),
  (['s', 'e', 't', 'm'], fun ops => match ops with | [n] => do pure (.setm (← readImm n)) | _ => none),
  (['c', 'l', 'r', 'e', 'r', 'r'], fun ops => match ops with | [] => some .clrerr | _ => none),
  (['r', 'd', 's', 't', 'a', 't'], fun ops => match ops with | [] => some .rdstat | _ => none),
  (['l', 'd', 'i'], fun ops => match ops with
    | [d, n] => do pure (.ldi (← readSreg d) (← readImm n)) | _ => none),
  (['r', 'd', 's'], fun ops => match ops with | [r] => do pure (.rds (← readSreg r)) | _ => none),
  (['a', 'f', 'f'], fun ops => match ops with
    | [d, a, x, b] => do pure (.aff (← readSreg d) (← readSreg a) (← readSreg x) (← readSreg b)) | _ => none),
  (['a', 'f', 'f', 'i'], fun ops => match ops with
    | [d, a, y, b] => do pure (.affi (← readSreg d) (← readSreg a) (← readSreg y) (← readSreg b)) | _ => none),
  (['i', 'n', 'v'], fun ops => match ops with
    | [d, r] => do pure (.inv (← readSreg d) (← readSreg r)) | _ => none),
  (['g', 'c', 'd'], fun ops => match ops with
    | [d, r] => do pure (.gcd (← readSreg d) (← readSreg r)) | _ => none),
  (['s', 'o', 'l', 'v', 'e', '2'], fun ops => match ops with
    | [d, x1, y1, x2, y2] => do
      pure (.solve2 (← readSreg d) (← readSreg x1) (← readSreg y1) (← readSreg x2) (← readSreg y2))
    | _ => none),
  (['s', 'o', 'l', 'k'], fun ops => match ops with
    | [a, b, k] => do pure (.solk (← readSreg a) (← readSreg b) (← readSreg k)) | _ => none),
  (['m', 'd', 'i', 'm'], fun ops => match ops with
    | [d, n] => do pure (.mdim (← readKreg d) (← readImm n)) | _ => none),
  (['m', 's', 'e', 't', 'i'], fun ops => match ops with
    | [d, i, j, n] => do pure (.mseti (← readKreg d) (← readIdx i) (← readIdx j) (← readImm n)) | _ => none),
  (['v', 's', 'e', 't', 'i'], fun ops => match ops with
    | [d, i, n] => do pure (.vseti (← readVreg d) (← readIdx i) (← readImm n)) | _ => none),
  (['r', 'd', 'm'], fun ops => match ops with
    | [r, i, j] => do pure (.rdm (← readKreg r) (← readIdx i) (← readIdx j)) | _ => none),
  (['r', 'd', 'v'], fun ops => match ops with
    | [r, i] => do pure (.rdv (← readVreg r) (← readIdx i)) | _ => none),
  (['r', 'd', 'd', 'i', 'm'], fun ops => match ops with | [r] => do pure (.rddim (← readKreg r)) | _ => none),
  (['v', 'm', 'u', 'l'], fun ops => match ops with
    | [d, v, k] => do pure (.vmul (← readVreg d) (← readVreg v) (← readKreg k)) | _ => none),
  (['m', 'v', 'm', 'u', 'l'], fun ops => match ops with
    | [d, v, k] => do pure (.mvmul (← readVreg d) (← readVreg v) (← readKreg k)) | _ => none),
  (['d', 'e', 't'], fun ops => match ops with
    | [d, k] => do pure (.det (← readSreg d) (← readKreg k)) | _ => none),
  (['a', 'd', 'j'], fun ops => match ops with
    | [d, k] => do pure (.adj (← readKreg d) (← readKreg k)) | _ => none),
  (['m', 'a', 't', 'i', 'n', 'v'], fun ops => match ops with
    | [d, k] => do pure (.matinv (← readKreg d) (← readKreg k)) | _ => none)]

/-- The command of a mnemonic and its operands; a SOLK with equal destinations is no legal command (R70). -/
def readCommand (mnemonic : List Char) (ops : List (List Char)) : Option Instr := do
  let form ← asmForms.find? fun f => f.1 == mnemonic.map lowerChar
  let i ← form.2 ops
  if i.WellFormed then some i else none

/-- One line of assembler text (R73). -/
def assembleLine (line : List Char) : AsmLine :=
  match tokens [] line with
  | [] => .blank
  | .word mnemonic :: ts =>
    match (operandList ts).bind (readCommand mnemonic) with
    | some i => .command i
    | none => .rejected
  | .comma :: _ => .rejected

/-- The lines of a text. -/
def linesOf (acc : List Char) : List Char → List (List Char)
  | [] => [acc]
  | c :: cs => if c = '\n' then acc :: linesOf [] cs else linesOf (acc ++ [c]) cs

/-- The command words of a text, in order, which is the order the host offers them in; none when a line is
rejected. There are no labels and no directives (R73). -/
def assemble (text : List Char) : Option (List Word) :=
  (linesOf [] text).foldr (fun line rest =>
    match assembleLine line with
    | .blank => rest
    | .command i => rest.map (encode i :: ·)
    | .rejected => none) (some [])

/-! ## A command as text -/

/-- A command's mnemonic, in the lower case of the forms of R73. -/
def mnemonicText (i : Instr) : List Char :=
  match i with
  | .nop => ['n', 'o', 'p']
  | .setm _ => ['s', 'e', 't', 'm']
  | .clrerr => ['c', 'l', 'r', 'e', 'r', 'r']
  | .rdstat => ['r', 'd', 's', 't', 'a', 't']
  | .ldi .. => ['l', 'd', 'i']
  | .rds _ => ['r', 'd', 's']
  | .aff .. => ['a', 'f', 'f']
  | .affi .. => ['a', 'f', 'f', 'i']
  | .inv .. => ['i', 'n', 'v']
  | .gcd .. => ['g', 'c', 'd']
  | .solve2 .. => ['s', 'o', 'l', 'v', 'e', '2']
  | .solk .. => ['s', 'o', 'l', 'k']
  | .mdim .. => ['m', 'd', 'i', 'm']
  | .mseti .. => ['m', 's', 'e', 't', 'i']
  | .vseti .. => ['v', 's', 'e', 't', 'i']
  | .rdm .. => ['r', 'd', 'm']
  | .rdv .. => ['r', 'd', 'v']
  | .rddim _ => ['r', 'd', 'd', 'i', 'm']
  | .vmul .. => ['v', 'm', 'u', 'l']
  | .mvmul .. => ['m', 'v', 'm', 'u', 'l']
  | .det .. => ['d', 'e', 't']
  | .adj .. => ['a', 'd', 'j']
  | .matinv .. => ['m', 'a', 't', 'i', 'n', 'v']

/-- A command's operands in the order of R73, the destination first. -/
def operandTexts (i : Instr) : List (List Char) :=
  match i with
  | .nop | .clrerr | .rdstat => []
  | .setm imm => [decimal imm.toNat]
  | .ldi sd imm => [sregText sd, decimal imm.toNat]
  | .rds ss => [sregText ss]
  | .aff sd sa sx sb => [sregText sd, sregText sa, sregText sx, sregText sb]
  | .affi sd sa sy sb => [sregText sd, sregText sa, sregText sy, sregText sb]
  | .inv sd ss => [sregText sd, sregText ss]
  | .gcd sd ss => [sregText sd, sregText ss]
  | .solve2 sd sx1 sy1 sx2 sy2 => [sregText sd, sregText sx1, sregText sy1, sregText sx2, sregText sy2]
  | .solk sda sdb sk => [sregText sda, sregText sdb, sregText sk]
  | .mdim kd n => [kregText kd, decimal n.toNat]
  | .mseti kd r c imm => [kregText kd, decimal r, decimal c, decimal imm.toNat]
  | .vseti vd e imm => [vregText vd, decimal e, decimal imm.toNat]
  | .rdm ks r c => [kregText ks, decimal r, decimal c]
  | .rdv vs e => [vregText vs, decimal e]
  | .rddim ks => [kregText ks]
  | .vmul vd vs ks => [vregText vd, vregText vs, kregText ks]
  | .mvmul vd vs ks => [vregText vd, vregText vs, kregText ks]
  | .det sd ks => [sregText sd, kregText ks]
  | .adj kd ks => [kregText kd, kregText ks]
  | .matinv kd ks => [kregText kd, kregText ks]

/-- Operands with a comma and a space between them. -/
def operandLine (first : List Char) (rest : List (List Char)) : List Char :=
  match rest with
  | [] => first
  | w :: ws => first ++ ',' :: ' ' :: operandLine w ws

/-- A command as one line of text, in the layout of spec/30_encoding.md section 8. -/
def printCommand (i : Instr) : List Char :=
  match operandTexts i with
  | [] => mnemonicText i
  | w :: ws => mnemonicText i ++ ' ' :: operandLine w ws

end Sys2Proof.Machine
end

