-- ==== Sys2Proof/Safety.lean ====
section
/-! DEFINITION. The notions claims are stated in: the groups of commands the spec names, interleaved
reduction (spec/00_scope.md R17), runs of accepted words and of clock edges, a good end, and the invariants of
spec/70_reset_and_hazards.md R188. -/

namespace Sys2Proof

/-- A ring command: it computes in Z/mZ and sets `MLOCK` (spec/00_scope.md section 8, spec/10_state.md R25). -/
def Instr.isRing (i : Instr) : Bool :=
  match i with
  | .aff .. | .affi .. | .inv .. | .gcd .. | .solve2 .. | .solk .. | .vmul .. | .mvmul .. | .det ..
  | .adj .. | .matinv .. => true
  | .nop | .setm _ | .clrerr | .rdstat | .ldi .. | .rds _ | .mdim .. | .mseti .. | .vseti .. | .rdm ..
  | .rdv .. | .rddim _ => false

/-- A read command: it appends exactly one word to the response stream (spec/10_state.md R31). -/
def Instr.isRead (i : Instr) : Bool :=
  match i with
  | .rdstat | .rds _ | .rdm .. | .rdv .. | .rddim _ => true
  | .nop | .setm _ | .clrerr | .ldi .. | .aff .. | .affi .. | .inv .. | .gcd .. | .solve2 .. | .solk ..
  | .mdim .. | .mseti .. | .vseti .. | .vmul .. | .mvmul .. | .det .. | .adj .. | .matinv .. => false

/-- An always-execute command: executed in the fault state too (spec/60_exceptions.md R155). -/
def Instr.alwaysExecutes (i : Instr) : Bool :=
  match i with
  | .nop | .clrerr | .rdstat | .rds _ | .rdm .. | .rdv .. | .rddim _ => true
  | .setm _ | .ldi .. | .aff .. | .affi .. | .inv .. | .gcd .. | .solve2 .. | .solk .. | .mdim ..
  | .mseti .. | .vseti .. | .vmul .. | .mvmul .. | .det .. | .adj .. | .matinv .. => false

/-- The fault codes a command can raise: 2 CFG, 3 RANGE, 4 NONINV, 5 SINGULAR (spec/60_exceptions.md R164). -/
def Instr.mayRaise (i : Instr) : List (BitVec 4) :=
  match i with
  | .nop | .clrerr | .rdstat | .ldi .. | .rds _ | .mseti .. | .vseti .. | .rdm .. | .rdv .. | .rddim _ => []
  | .setm _ | .mdim .. => [2]
  | .aff .. | .gcd .. | .solve2 .. | .solk .. => [3]
  | .affi .. | .inv .. => [3, 4]
  | .vmul .. | .mvmul .. | .det .. | .adj .. => [2, 3]
  | .matinv .. => [2, 3, 5]

/-- The columns of the access matrix but the fault fields (spec/10_state.md R34). -/
inductive Column where
  | S | K | V | M | MLOCK | SOL | RSP
  deriving DecidableEq, Repr

/-- The `w` entries of a command's row in the access matrix (spec/10_state.md R34). -/
def Instr.writes (i : Instr) : List Column :=
  match i with
  | .nop | .clrerr => []
  | .setm _ => [.M, .MLOCK]
  | .rdstat | .rds _ | .rdm .. | .rdv .. | .rddim _ => [.RSP]
  | .ldi .. => [.S]
  | .aff .. | .affi .. | .inv .. | .gcd .. | .solk .. | .det .. => [.S, .MLOCK]
  | .solve2 .. => [.S, .MLOCK, .SOL]
  | .mdim .. | .mseti .. => [.K]
  | .vseti .. => [.V]
  | .vmul .. | .mvmul .. => [.V, .MLOCK]
  | .adj .. | .matinv .. => [.K, .MLOCK]

/-- The scalar registers a ring command takes its operands from. -/
def Instr.scalarSources (i : Instr) : List SReg :=
  match i with
  | .aff _ sa sx sb => [sa, sx, sb]
  | .affi _ sa sy sb => [sa, sy, sb]
  | .inv _ ss | .gcd _ ss => [ss]
  | .solve2 _ sx1 sy1 sx2 sy2 => [sx1, sy1, sx2, sy2]
  | .solk _ _ sk => [sk]
  | .nop | .setm _ | .clrerr | .rdstat | .ldi .. | .rds _ | .mdim .. | .mseti .. | .vseti .. | .rdm ..
  | .rdv .. | .rddim _ | .vmul .. | .mvmul .. | .det .. | .adj .. | .matinv .. => []

/-- The matrix register a ring command takes an operand from. -/
def Instr.matrixSources (i : Instr) : List KReg :=
  match i with
  | .vmul _ _ ks | .mvmul _ _ ks | .det _ ks | .adj _ ks | .matinv _ ks => [ks]
  | .nop | .setm _ | .clrerr | .rdstat | .ldi .. | .rds _ | .aff .. | .affi .. | .inv .. | .gcd ..
  | .solve2 .. | .solk .. | .mdim .. | .mseti .. | .vseti .. | .rdm .. | .rdv .. | .rddim _ => []

/-- The vector register a ring command takes an operand from. -/
def Instr.vectorSources (i : Instr) : List VReg :=
  match i with
  | .vmul _ vs _ | .mvmul _ vs _ => [vs]
  | .nop | .setm _ | .clrerr | .rdstat | .ldi .. | .rds _ | .aff .. | .affi .. | .inv .. | .gcd ..
  | .solve2 .. | .solk .. | .mdim .. | .mseti .. | .vseti .. | .rdm .. | .rdv .. | .rddim _ | .det ..
  | .adj .. | .matinv .. => []

/-- The scalar registers a ring command writes when it completes. -/
def Instr.scalarResults (i : Instr) : List SReg :=
  match i with
  | .aff sd _ _ _ | .affi sd _ _ _ | .inv sd _ | .gcd sd _ | .solve2 sd _ _ _ _ | .det sd _ => [sd]
  | .solk sda sdb _ => [sda, sdb]
  | .nop | .setm _ | .clrerr | .rdstat | .ldi .. | .rds _ | .mdim .. | .mseti .. | .vseti .. | .rdm ..
  | .rdv .. | .rddim _ | .vmul .. | .mvmul .. | .adj .. | .matinv .. => []

/-- The matrix register a ring command writes when it completes. -/
def Instr.matrixResults (i : Instr) : List KReg :=
  match i with
  | .adj kd _ | .matinv kd _ => [kd]
  | .nop | .setm _ | .clrerr | .rdstat | .ldi .. | .rds _ | .aff .. | .affi .. | .inv .. | .gcd ..
  | .solve2 .. | .solk .. | .mdim .. | .mseti .. | .vseti .. | .rdm .. | .rdv .. | .rddim _ | .vmul ..
  | .mvmul .. | .det .. => []

/-- The vector register a ring command writes when it completes. -/
def Instr.vectorResults (i : Instr) : List VReg :=
  match i with
  | .vmul vd _ _ | .mvmul vd _ _ => [vd]
  | .nop | .setm _ | .clrerr | .rdstat | .ldi .. | .rds _ | .aff .. | .affi .. | .inv .. | .gcd ..
  | .solve2 .. | .solk .. | .mdim .. | .mseti .. | .vseti .. | .rdm .. | .rdv .. | .rddim _ | .det ..
  | .adj .. | .matinv .. => []

/-- A word is the legal encoding of a read command (spec/70_reset_and_hazards.md R188 f). -/
def isReadWord (w : Word) : Bool :=
  match decode w with
  | some i => i.isRead
  | none => false

namespace Machine

/-- The n×n matrix whose entries `A` gives, as Mathlib's matrix. -/
def toMatrix (n : Nat) (A : Nat → Nat → Int) : Matrix (Fin n) (Fin n) Int := Matrix.of fun i j => A i j

/-- The matrix a register represents: its leading block (spec/10_state.md R22). -/
abbrev State.matrix (s : State) (k : KReg) : Matrix (Fin (s.getDim k).toNat) (Fin (s.getDim k).toNat) Int :=
  toMatrix (s.getDim k).toNat (s.entries k)

/-- Every element of a register's leading block is a ring element (spec/00_scope.md R11). -/
def State.blockRing (s : State) (k : KReg) : Prop :=
  ∀ i < (s.getDim k).toNat, ∀ j < (s.getDim k).toNat, (s.K[k].entry i j).toNat < s.M.toNat

/-- The first n elements of a vector register are ring elements. -/
def State.vecRing (s : State) (v : VReg) (n : Nat) : Prop := ∀ i < n, (s.vecAt v i).toNat < s.M.toNat

/-- A column of the access matrix is the same in two states (spec/10_state.md R34). -/
def sameColumn (c : Column) (s t : State) : Prop :=
  match c with
  | .S => t.S = s.S
  | .K => t.K = s.K
  | .V => t.V = s.V
  | .M => t.M = s.M
  | .MLOCK => t.MLOCK = s.MLOCK
  | .SOL => t.SOL = s.SOL
  | .RSP => t.RSP = s.RSP ∧ t.slot = s.slot

/-- Two states agree on everything a ring command may take its result from: `M`, the solver context if it is SOLK,
and the registers it names, a matrix on its leading block and a vector as far as the matrix reaches
(spec/10_state.md R20, R22, R23). -/
def sameSources (i : Instr) (s u : State) : Prop :=
  s.M = u.M ∧ (∀ sda sdb sk, i = .solk sda sdb sk → s.SOL = u.SOL) ∧
  (∀ r ∈ i.scalarSources, s.getS r = u.getS r) ∧
  ∀ k ∈ i.matrixSources, s.getDim k = u.getDim k ∧
    (∀ a < (s.getDim k).toNat, ∀ b < (s.getDim k).toNat, s.K[k].entry a b = u.K[k].entry a b) ∧
    ∀ v ∈ i.vectorSources, ∀ a < (s.getDim k).toNat, s.vecAt v a = u.vecAt v a

/-- Two states agree on everything a completed ring command has written. -/
def sameResults (i : Instr) (t v : State) : Prop :=
  (∀ r ∈ i.scalarResults, t.getS r = v.getS r) ∧
  (∀ k ∈ i.matrixResults, t.getDim k = v.getDim k ∧
    ∀ a < (t.getDim k).toNat, ∀ b < (t.getDim k).toNat, t.K[k].entry a b = v.K[k].entry a b) ∧
  (∀ r ∈ i.vectorResults, ∀ k ∈ i.matrixSources, ∀ a < (t.getDim k).toNat, t.vecAt r a = v.vecAt r a) ∧
  (Column.SOL ∈ i.writes → t.SOL = v.SOL)

/-- SOLK answers the pair (a, b) for the index k, in every state that holds the solver context and the modulus
of `t` and is not in the fault state (spec/42_affine.md R105, R107). -/
def State.solkGives (t : State) (k a b : Nat) : Prop :=
  ∀ (u : State) (sda sdb sk : SReg), sda ≠ sdb → u.FAULT = false → u.M = t.M → u.SOL = t.SOL →
    (u.getS sk).toNat = k →
    ∃ w, exec (.solk sda sdb sk) u = .next w ∧ w.FAULT = false ∧ (w.getS sda).toNat = a ∧
      (w.getS sdb).toNat = b

/-! ## Interleaved reduction (spec/00_scope.md R17) -/

/-- The sum of n reduced terms, reduced again after every addition. -/
def sumReduced (m n : Nat) (f : Nat → Int) : Nat :=
  match n with
  | 0 => residue 0 m
  | k + 1 => residue ((sumReduced m k f : Int) + (residue (f k) m : Int)) m

/-- Cofactor expansion along row 0 (R16) with every signed entry, minor, product and partial sum reduced
mod m. -/
def detReduced (m n : Nat) (A : Nat → Nat → Int) : Nat :=
  match n with
  | 0 => residue 1 m
  | k + 1 => sumReduced m (k + 1) fun j =>
    (residue ((-1) ^ j * A 0 j) m : Int) * (detReduced m k (minor A 0 j) : Int)

/-- Entry (i, j) of the adjugate (R131) from reduced minors. -/
def adjugateReduced (m n : Nat) (A : Nat → Nat → Int) (i j : Nat) : Nat :=
  residue ((-1) ^ (j + i) * (detReduced m (n - 1) (minor A j i) : Int)) m

/-- Element j of the row vector times the matrix (R120), every product and partial sum reduced. -/
def rowReduced (m n : Nat) (v : Nat → Int) (A : Nat → Nat → Int) (j : Nat) : Nat :=
  sumReduced m n fun i => v i * A i j

/-- Element i of the matrix times the column vector (R121), every product and partial sum reduced. -/
def colReduced (m n : Nat) (A : Nat → Nat → Int) (v : Nat → Int) (i : Nat) : Nat :=
  sumReduced m n fun j => A i j * v j

/-- An expression in integers with +, − and ×, as R17 speaks of. -/
inductive RingExpr where
  | num (x : Int)
  | add (e f : RingExpr)
  | sub (e f : RingExpr)
  | mul (e f : RingExpr)
  deriving DecidableEq, Repr

/-- The exact value of an expression. -/
def RingExpr.exact (e : RingExpr) : Int :=
  match e with
  | .num x => x
  | .add e f => e.exact + f.exact
  | .sub e f => e.exact - f.exact
  | .mul e f => e.exact * f.exact

/-- The values an evaluation of an expression can reach that may reduce any intermediate value mod m, at any
point, in R10's form (R17). -/
inductive Interleaved (m : Nat) : RingExpr → Int → Prop where
  | num (x : Int) : Interleaved m (.num x) x
  | add {e f : RingExpr} {a b : Int} : Interleaved m e a → Interleaved m f b → Interleaved m (.add e f) (a + b)
  | sub {e f : RingExpr} {a b : Int} : Interleaved m e a → Interleaved m f b → Interleaved m (.sub e f) (a - b)
  | mul {e f : RingExpr} {a b : Int} : Interleaved m e a → Interleaved m f b → Interleaved m (.mul e f) (a * b)
  | reduce {e : RingExpr} {a : Int} : Interleaved m e a → Interleaved m e (residue a m : Int)

/-- `Σ_{i=0..n−1} f i` as an expression. -/
def sumExpr (n : Nat) (f : Nat → RingExpr) : RingExpr :=
  match n with
  | 0 => .num 0
  | k + 1 => .add (sumExpr k f) (f k)

/-- The cofactor expansion of R16 as an expression. -/
def detExpr (n : Nat) (A : Nat → Nat → Int) : RingExpr :=
  match n with
  | 0 => .num 1
  | k + 1 => sumExpr (k + 1) fun j => .mul (.mul (.num ((-1) ^ j)) (.num (A 0 j))) (detExpr k (minor A 0 j))

/-- Entry (i, j) of the adjugate as an expression, the cofactor (j, i) (R131). -/
def adjExpr (n : Nat) (A : Nat → Nat → Int) (i j : Nat) : RingExpr :=
  .mul (.num ((-1) ^ (j + i))) (detExpr (n - 1) (minor A j i))

/-- Element j of the row vector times the matrix as an expression (R120). -/
def rowExpr (n : Nat) (v : Nat → Int) (A : Nat → Nat → Int) (j : Nat) : RingExpr :=
  sumExpr n fun i => .mul (.num (v i)) (.num (A i j))

/-- Element i of the matrix times the column vector as an expression (R121). -/
def colExpr (n : Nat) (A : Nat → Nat → Int) (v : Nat → Int) (i : Nat) : RingExpr :=
  sumExpr n fun j => .mul (.num (A i j)) (.num (v j))

/-! ## Runs -/

/-- The state an outcome answers, or `s` where it answers none (which no step of this machine does). -/
def stateOr (s : State) (o : Host.Outcome State Fault Refusal) : State :=
  match o with
  | .next t => t
  | .fault _ => s
  | .refused _ => s

/-- The state after an accepted word has completed (spec/70_reset_and_hazards.md R189). -/
def State.afterWord (s : State) (w : Word) : State := stateOr s (execWord w s)

/-- The state after a run of accepted words, each completed before the next is accepted (R189). -/
def State.afterWords (s : State) (ws : List Word) : State := ws.foldl State.afterWord s

/-- A run ends well when `FAULT = 0` at its end (R189). -/
def State.endsWell (s : State) : Bool := !s.FAULT

/-- The state one clock edge later. -/
def State.tick (s : State) : State := stateOr s (step s)

/-- The state k clock edges later. -/
def State.ticks (k : Nat) (s : State) : State :=
  match k with
  | 0 => s
  | n + 1 => State.ticks n s.tick

/-- None of the next k clock edges is a reset edge. -/
def State.noReset (k : Nat) (s : State) : Bool :=
  match k with
  | 0 => true
  | n + 1 => !s.nextEdge.rst && State.noReset n s.tick

/-- The word accepted at the next edge, if any (spec/20_memory.md R42). -/
def State.acceptsNow (s : State) : List Word :=
  if !s.nextEdge.rst && s.nextEdge.cmdValid && s.cmdReady then [s.nextEdge.cmdData] else []

/-- The word whose transition takes effect at the next edge, if any (R45). -/
def State.completesNow (s : State) : List Word :=
  if !s.nextEdge.rst && s.nextEdge.finish then s.inProgress.toList else []

/-- The response word the host takes at the next edge, if any (R46). -/
def State.takesNow (s : State) : List Word :=
  if !s.nextEdge.rst && s.nextEdge.rspReady then s.slot.toList else []

/-- What `f` reports at each of the next k edges, in order. -/
def State.trace (f : State → List Word) (k : Nat) (s : State) : List Word :=
  match k with
  | 0 => []
  | n + 1 => f s ++ State.trace f n s.tick

/-- The architectural state of spec/10_state.md R20, without the ports and the edges to come. -/
def State.arch (s : State) : State :=
  { s with slot := none, inProgress := none, afterReset := false, edges := [] }

/-! ## Invariants of every reachable state (R188) -/

/-- R188 (b): without a fault no cause and no opcode; with one a cause 1 to 5. -/
def State.faultCoherent (s : State) : Prop :=
  (s.FAULT = false → s.CODE = 0 ∧ s.FOP = 0) ∧ (s.FAULT = true → 1 ≤ s.CODE.toNat ∧ s.CODE.toNat ≤ 5)

/-- R188 (d): while the modulus is not fixed it is 26 and the solver context is zero. -/
def State.lockCoherent (s : State) : Prop := s.MLOCK = false → s.M = 26 ∧ s.SOL = SolverCtx.zero

/-- R188 (e): a solver context with a solution belongs to the modulus. -/
def State.solverCoherent (s : State) : Prop :=
  1 ≤ s.SOL.G.toNat → s.SOL.G.toNat * s.SOL.MP.toNat = s.M.toNat ∧ s.SOL.A0.toNat < s.SOL.MP.toNat ∧
    s.SOL.X1.toNat < s.M.toNat ∧ s.SOL.Y1.toNat < s.M.toNat ∧ s.MLOCK = true

/-- The handshake: a command in progress leaves no response waiting and was not accepted right after a reset,
a waiting response is the last one of the stream (spec/20_memory.md R42, R46; spec/10_state.md R31). -/
def State.portCoherent (s : State) : Prop :=
  (s.busy = true → s.slot = none ∧ s.afterReset = false) ∧
  (s.afterReset = true → s.slot = none) ∧
  (∀ w, s.slot = some w → s.RSP.getLast? = some w)

/-- The invariants of R188 (a) to (e), and of the handshake. -/
structure State.Inv (s : State) : Prop where
  modulus : 1 ≤ s.M.toNat
  fault   : s.faultCoherent
  dims    : ∀ k : KReg, (s.getDim k).toNat ≤ 8
  lock    : s.lockCoherent
  solver  : s.solverCoherent
  ports   : s.portCoherent

end Machine

end Sys2Proof
end

