-- ==== Sys2Proof/Certificates/Slice0/Obligations.lean ====
section
/-! DEFINITION. The statements about the machine, from the numbered rules of spec/. The fault codes and the
opcodes are written out as the spec's numbers, and results are said by their defining property (Mathlib's
determinant, an inverse as a number whose product is 1), not by the model's functions. A state on the right of
`.next` is the state before the command with the fields named changed and EVERY OTHER FIELD AS IT WAS: that is the
command's frame. -/

open Sys2Proof Sys2Proof.Machine

/-! ## Reset and the clock edges -/

/-- R33: every piece of state after reset. -/
def Obligations.ResetLeavesStatedValues : Prop :=
  State.reset.M = 26 ∧ State.reset.MLOCK = false ∧ State.reset.FAULT = false ∧ State.reset.CODE = 0 ∧
  State.reset.FOP = 0 ∧ (∀ r, State.reset.getS r = 0) ∧ (∀ k, State.reset.getDim k = 0) ∧
  (∀ k i j, State.reset.getK k i j = 0) ∧ (∀ v i, State.reset.getV v i = 0) ∧
  State.reset.SOL = ⟨0, 0, 0, 0, 0⟩ ∧ State.reset.RSP = [] ∧ State.reset.slot = none

/-- R180, R181: an edge with `rst = 1` puts every piece of state, a command in progress and a waiting response
among it, to its reset value, drives `cmd_ready`, `rsp_valid`, `busy` and `fault` to 0 and accepts nothing; at the
next edge with `rst = 0` the block becomes idle with `cmd_ready = 1`. -/
def Obligations.ResetEdgeResetsEverything : Prop :=
  ∀ s : State, s.nextEdge.rst = true →
    ∃ t, step s = .next t ∧ t = { State.reset with edges := s.edges.tail } ∧
      t.cmdReady = false ∧ t.rspValid = false ∧ t.busy = false ∧ t.faultOut = false ∧
      (t.nextEdge.rst = false → ∃ u, step t = .next u ∧
        u = { State.reset with afterReset := false, edges := t.edges.tail } ∧
        u.cmdReady = true ∧ u.busy = false)

/-- R42: when a word is accepted, which word, and when `cmd_ready` is 1. `afterReset` is 1 exactly after a reset
edge. -/
def Obligations.CommandHandshake : Prop :=
  ∀ s : State,
    (s.cmdReady = true ↔ s.busy = false ∧ s.rspValid = false ∧ s.afterReset = false) ∧
    ∃ t, step s = .next t ∧ t.afterReset = s.nextEdge.rst ∧
      (s.busy = false → t.inProgress =
        if s.nextEdge.rst = false ∧ s.nextEdge.cmdValid = true ∧ s.cmdReady = true
        then some s.nextEdge.cmdData else none)

/-- R46: a waiting response stays until an edge at which `rsp_ready = 1`, is gone after it, and holds
`cmd_ready` at 0 meanwhile. -/
def Obligations.ResponseWaitsUntilTaken : Prop :=
  ∀ (s : State) (w : Word), s.slot = some w → s.busy = false → s.nextEdge.rst = false →
    s.cmdReady = false ∧
    ∃ t, step s = .next t ∧ t.RSP = s.RSP ∧ t.busy = false ∧
      t.slot = if s.nextEdge.rspReady then none else some w

/-- A step at which the command in progress completes is that command's meaning, in the state in which the edge is
used up, the cycle after reset is over, a waiting response has been taken if the host was ready, and no command is
in progress. -/
def Obligations.StepRunsTheAcceptedCommand : Prop :=
  ∀ (s : State) (w : Word) (i : Instr), s.inProgress = some w → decode w = some i →
    s.nextEdge.rst = false → s.nextEdge.finish = true →
    step s = exec i
      { s with
        inProgress := none
        afterReset := false
        slot := if s.nextEdge.rspReady then none else s.slot
        edges := s.edges.tail }

/-- A step at which the command in progress does not complete changes nothing but the port state (R44, R45). -/
def Obligations.BusyEdgeChangesNothing : Prop :=
  ∀ (s : State) (w : Word), s.inProgress = some w → s.nextEdge.rst = false → s.nextEdge.finish = false →
    ∃ t, step s = .next t ∧ t.arch = s.arch ∧ t.inProgress = some w ∧ t.cmdReady = false

/-- R165: every step of the machine has a next state. -/
def Obligations.NothingStopsTheMachine : Prop :=
  (∀ (i : Instr) (s : State), ∃ t, exec i s = .next t) ∧ ∀ s : State, ∃ t, step s = .next t

/-! ## Encoding -/

/-- The worked encodings of 30_encoding.md section 8, decoded. -/
def Obligations.WorkedEncodingsDecode : Prop :=
  decode 0x00000003 = some .rdstat ∧ decode 0x000A0001 = some (.setm 10) ∧
  decode 0x000B0208 = some (.ldi 2 11) ∧ decode 0x00120310 = some (.aff 3 0 2 1) ∧
  decode 0x03210414 = some (.solve2 4 0 1 2 3) ∧ decode 0x00154421 = some (.mseti 0 1 2 21) ∧
  decode 0x00002728 = some (.vmul 3 1 2) ∧ decode 0x00000030 = some (.det 0 0) ∧
  decode 0x00002332 = some (.matinv 3 2)

/-- Decode and encode agree, one way: every well-formed command, with every operand at every value. -/
def Obligations.DecodeOfEncode : Prop :=
  ∀ i : Instr, i.WellFormed = true → decode (encode i) = some i

/-- Decode and encode agree, the other way: a legal word is the encoding of the one command it is, and that
command is well formed. -/
def Obligations.EncodeOfDecode : Prop :=
  ∀ (w : Word) (i : Instr), decode w = some i → encode i = w ∧ i.WellFormed = true

/-- R68 to R71: a word is legal exactly when it matches one of the 23 (match, mask) pairs and, for SOLK, names two
different destinations; it matches at most one of them. -/
def Obligations.LegalWordsAreTheTable : Prop :=
  let table : List (Word × Word) := [
    (0x00000000, 0xFFFFFFFF), (0x00000001, 0x0000FFFF), (0x00000002, 0xFFFFFFFF), (0x00000003, 0xFFFFFFFF),
    (0x00000008, 0x0000F0FF), (0x00000009, 0xFFFFF0FF), (0x00000010, 0xFF0000FF), (0x00000011, 0xFF0000FF),
    (0x00000012, 0xFFFF00FF), (0x00000013, 0xFFFF00FF), (0x00000014, 0xF00000FF), (0x00000015, 0xFFF000FF),
    (0x00000020, 0x0000FCFF), (0x00000021, 0x000000FF), (0x00000022, 0x0000E0FF), (0x00000023, 0xFFFF00FF),
    (0x00000024, 0xFFFFE0FF), (0x00000025, 0xFFFFFCFF), (0x00000028, 0xFFFFC0FF), (0x00000029, 0xFFFFC0FF),
    (0x00000030, 0xFFF0CFFF), (0x00000031, 0xFFFFCCFF), (0x00000032, 0xFFFFCCFF)]
  ∀ w : Word,
    ((decode w).isSome ↔ (∃ r ∈ table, w &&& r.2 = r.1) ∧
      (w.extractLsb' 0 8 = 0x15 → w.extractLsb' 8 4 ≠ w.extractLsb' 12 4)) ∧
    ∀ r ∈ table, ∀ q ∈ table, w &&& r.2 = r.1 → w &&& q.2 = q.1 → r = q

/-- R73: the texts of 30_encoding.md section 8 assemble to their words; case, white space, a comment and a
hexadecimal immediate change nothing; an operand out of its range is rejected, not truncated. -/
def Obligations.WorkedLinesAssemble : Prop :=
  assemble "rdstat\nsetm 10\nldi s2, 11\naff s3, s0, s2, s1\nsolve2 s4, s0, s1, s2, s3".toList =
    some [0x00000003, 0x000A0001, 0x000B0208, 0x00120310, 0x03210414] ∧
  assemble "mseti k0, 1, 2, 21\nvmul v3, v1, k2\n\ndet s0, k0\nmatinv k3, k2".toList =
    some [0x00154421, 0x00002728, 0x00000030, 0x00002332] ∧
  assembleLine "MSETI K0,1,2,0x15;entry (1, 2)".toList = .command (.mseti 0 1 2 21) ∧
  assembleLine "; nothing".toList = .blank ∧ assembleLine "ldi s0, 65536".toList = .rejected ∧
  assembleLine "rdv v0, 8".toList = .rejected ∧ assembleLine "rds s16".toList = .rejected

/-- R73, R74: every legal command has a text, and the assembler reads that text as the command, whatever comment
follows it. The layout of the text is the model's choice (log entry 13). -/
def Obligations.AssemblerReadsWhatIsPrinted : Prop :=
  ∀ (i : Instr) (comment : List Char), i.WellFormed = true →
    assembleLine (printCommand i) = .command i ∧
    assembleLine (printCommand i ++ ';' :: comment) = .command i

/-! ## Faults, the fault state, the lock -/

/-- R152: an illegal word. -/
def Obligations.IllegalWordFaultsOrIsSquashed : Prop :=
  ∀ (w : Word) (s : State), decode w = none →
    execWord w s = .next (if s.FAULT then s
      else { s with FAULT := true, CODE := 1, FOP := w.extractLsb' 0 8 })

/-- R154: fault entry is the whole transition of the faulting command, whatever the word. -/
def Obligations.FaultEntryIsTheWholeTransition : Prop :=
  ∀ (w : Word) (s t : State), s.FAULT = false → execWord w s = .next t → t.FAULT = true →
    1 ≤ t.CODE.toNat ∧ t.CODE.toNat ≤ 5 ∧
    t = { s with
      FAULT := true
      CODE := t.CODE
      FOP := w.extractLsb' 0 8
      MLOCK := s.MLOCK || (t.CODE != 1 && (decode w).any Instr.isRing) }

/-- R155: in the fault state a word that is not a legal encoding of an always-execute command is squashed; an
always-execute command can change nothing but the response stream and the fault fields, and a legal read command
still answers with exactly one response. -/
def Obligations.FaultStateSquashes : Prop :=
  ∀ (w : Word) (s : State), s.FAULT = true →
    ((decode w).any Instr.alwaysExecutes = false → execWord w s = .next s) ∧
    (∀ i, decode w = some i → i.alwaysExecutes = true →
      ∃ t, execWord w s = .next t ∧
        t = { s with FAULT := t.FAULT, CODE := t.CODE, FOP := t.FOP, RSP := t.RSP, slot := t.slot } ∧
        (i.isRead = true → t.FAULT = true ∧ t.CODE = s.CODE ∧ t.FOP = s.FOP ∧
          ∃ v, t.RSP = s.RSP ++ [v] ∧ t.slot = some v) ∧
        (i.isRead = false → t.RSP = s.RSP ∧ t.slot = s.slot))

/-- R164: which command can raise what. -/
def Obligations.OnlyTheStatedCodesAreRaised : Prop :=
  ∀ (i : Instr) (s t : State), s.FAULT = false → exec i s = .next t → t.FAULT = true →
    t.CODE ∈ i.mayRaise

/-- R25: `MLOCK` is set by a successful SETM and by every ring command that is not squashed, whether it completes
or faults; nothing clears it. -/
def Obligations.LockIsSetAndNeverCleared : Prop :=
  ∀ (i : Instr) (s t : State), exec i s = .next t →
    t.MLOCK = (s.MLOCK || (!s.FAULT && (i.isRing || match i with | .setm imm => imm != 0 | _ => false)))

/-- R24: `M` is written only by a successful SETM, only while `MLOCK = 0`, and never to 0; once fixed, no accepted
word changes it. -/
def Obligations.ModulusIsWrittenOnceBySetm : Prop :=
  ∀ (w : Word) (s t : State), execWord w s = .next t →
    (s.MLOCK = true → t.M = s.M ∧ t.MLOCK = true) ∧
    (t.M ≠ s.M → ∃ imm, decode w = some (.setm imm) ∧ imm ≠ 0 ∧ t.M = imm ∧ s.MLOCK = false ∧
      s.FAULT = false)

/-- R34, the `w` entries: a command leaves every column it has no `w` in as it was, completed, faulted or
squashed, the port state too; and the ten commands that cannot fault leave the fault fields, but for CLRERR. -/
def Obligations.CommandsWriteOnlyTheirColumns : Prop :=
  ∀ (i : Instr) (s t : State), exec i s = .next t →
    (∀ c, c ∉ i.writes → sameColumn c s t) ∧
    t.inProgress = s.inProgress ∧ t.afterReset = s.afterReset ∧ t.edges = s.edges ∧
    (i.mayRaise = [] → i ≠ .clrerr → t.FAULT = s.FAULT ∧ t.CODE = s.CODE ∧ t.FOP = s.FOP)

/-- R20: a ring command's result, or its fault, is a function of the registers it names, of `M`, and (SOLK only)
of `SOL`: two states that agree on those get the same one, whatever else they hold. -/
def Obligations.RingResultsDependOnNamedSourcesOnly : Prop :=
  ∀ (i : Instr) (s u : State), i.isRing = true → s.FAULT = false → u.FAULT = false → sameSources i s u →
    ∃ t v, exec i s = .next t ∧ exec i u = .next v ∧ t.FAULT = v.FAULT ∧
      (t.FAULT = true → t.CODE = v.CODE ∧ t.FOP = v.FOP) ∧ (t.FAULT = false → sameResults i t v)

/-! ## System and configuration commands -/

/-- R80. -/
def Obligations.NopChangesNothing : Prop :=
  decode 0x00000000 = some .nop ∧ ∀ s : State, exec .nop s = .next s

/-- R81, with its CFG faults (R156 a) and squashing. -/
def Obligations.SetmFixesTheModulus : Prop :=
  ∀ (imm : Elem) (s : State),
    decode (imm ++ 0#8 ++ 0x01#8) = some (.setm imm) ∧
    exec (.setm imm) s = .next (
      if s.FAULT then s
      else if s.MLOCK = true ∨ imm.toNat = 0 then { s with FAULT := true, CODE := 2, FOP := 0x01 }
      else { s with M := imm, MLOCK := true })

/-- R82: the return from the fault state: always executed, nothing else changes; beside reset nothing else leaves
the fault state, which keeps its cause and opcode while it lasts (R161). -/
def Obligations.ClrerrAloneLeavesTheFaultState : Prop :=
  decode 0x00000002 = some .clrerr ∧
  (∀ s : State, exec .clrerr s = .next { s with FAULT := false, CODE := 0, FOP := 0 }) ∧
  ∀ s t : State, s.FAULT = true → step s = .next t →
    (t.FAULT = true ∧ t.CODE = s.CODE ∧ t.FOP = s.FOP) ∨ s.nextEdge.rst = true ∨
    (s.inProgress = some 0x00000002 ∧ s.nextEdge.finish = true)

/-- R83, R27: STATUS is responded, in the fault state too, and reading clears nothing. -/
def Obligations.RdstatRespondsStatus : Prop :=
  decode 0x00000003 = some .rdstat ∧ State.reset.status = 0x001A0000 ∧
  ∀ s : State, ∃ w : Word,
    w.toNat = s.M.toNat * 65536 + s.FOP.toNat * 256 + s.CODE.toNat * 16 +
      (if s.MLOCK then 2 else 0) + (if s.FAULT then 1 else 0) ∧
    exec .rdstat s = .next { s with RSP := s.RSP ++ [w], slot := some w }

/-! ## Data movement commands -/

/-- R90: the register takes the immediate; every other register keeps its value. -/
def Obligations.LdiLoadsTheImmediate : Prop :=
  ∀ (sd : SReg) (imm : Elem) (s : State),
    decode (imm ++ 0#4 ++ BitVec.ofFin (w := 4) sd ++ 0x08#8) = some (.ldi sd imm) ∧
    (s.FAULT = true → exec (.ldi sd imm) s = .next s) ∧
    (s.FAULT = false → ∃ t, exec (.ldi sd imm) s = .next t ∧ t = { s with S := t.S } ∧
      ∀ q, t.getS q = if q = sd then imm else s.getS q)

/-- R91. -/
def Obligations.RdsRespondsTheRegister : Prop :=
  ∀ (ss : SReg) (s : State),
    decode (0#20 ++ BitVec.ofFin (w := 4) ss ++ 0x09#8) = some (.rds ss) ∧
    ∃ w : Word, w.toNat = (s.getS ss).toNat ∧
      exec (.rds ss) s = .next { s with RSP := s.RSP ++ [w], slot := some w }

/-- R92, with its CFG fault (R156 b): only `dim` changes, every element stays. -/
def Obligations.MdimGivesTheDimension : Prop :=
  ∀ (kd : KReg) (n : Elem) (s : State),
    decode (n ++ 0#6 ++ BitVec.ofFin (w := 2) kd ++ 0x20#8) = some (.mdim kd n) ∧
    (s.FAULT = true → exec (.mdim kd n) s = .next s) ∧
    (s.FAULT = false → n.toNat = 0 ∨ 8 < n.toNat →
      exec (.mdim kd n) s = .next { s with FAULT := true, CODE := 2, FOP := 0x20 }) ∧
    (s.FAULT = false → 1 ≤ n.toNat → n.toNat ≤ 8 →
      ∃ t, exec (.mdim kd n) s = .next t ∧ t = { s with K := t.K } ∧
        (∀ q, (t.getDim q).toNat = if q = kd then n.toNat else (s.getDim q).toNat) ∧
        ∀ q i j, t.getK q i j = s.getK q i j)

/-- R93: one element is written, inside the leading block or not; every other element and every `dim` stay. -/
def Obligations.MsetiWritesOneElement : Prop :=
  ∀ (kd : KReg) (i j : Idx) (imm : Elem) (s : State),
    decode (imm ++ BitVec.ofFin (w := 3) j ++ BitVec.ofFin (w := 3) i ++ BitVec.ofFin (w := 2) kd ++ 0x21#8) =
      some (.mseti kd i j imm) ∧
    (s.FAULT = true → exec (.mseti kd i j imm) s = .next s) ∧
    (s.FAULT = false → ∃ t, exec (.mseti kd i j imm) s = .next t ∧ t = { s with K := t.K } ∧
      (∀ q, t.getDim q = s.getDim q) ∧
      ∀ q a b, t.getK q a b = if q = kd ∧ a = i ∧ b = j then imm else s.getK q a b)

/-- R94: one element is written; every other element stays. -/
def Obligations.VsetiWritesOneElement : Prop :=
  ∀ (vd : VReg) (i : Idx) (imm : Elem) (s : State),
    decode (imm ++ 0#3 ++ BitVec.ofFin (w := 3) i ++ BitVec.ofFin (w := 2) vd ++ 0x22#8) =
      some (.vseti vd i imm) ∧
    (s.FAULT = true → exec (.vseti vd i imm) s = .next s) ∧
    (s.FAULT = false → ∃ t, exec (.vseti vd i imm) s = .next t ∧ t = { s with V := t.V } ∧
      ∀ q a, t.getV q a = if q = vd ∧ a = i then imm else s.getV q a)

/-- R95, R96, R97: the element or the dimension is responded, zero-extended, whatever `dim` and `FAULT` are. A
dimension is at most 8 in every reachable state (R188 c). -/
def Obligations.ElementReadsRespond : Prop :=
  ∀ (ks : KReg) (vs : VReg) (i j : Idx) (s : State),
    decode (0#16 ++ BitVec.ofFin (w := 3) j ++ BitVec.ofFin (w := 3) i ++ BitVec.ofFin (w := 2) ks ++ 0x23#8) =
      some (.rdm ks i j) ∧
    decode (0#19 ++ BitVec.ofFin (w := 3) i ++ BitVec.ofFin (w := 2) vs ++ 0x24#8) = some (.rdv vs i) ∧
    decode (0#22 ++ BitVec.ofFin (w := 2) ks ++ 0x25#8) = some (.rddim ks) ∧
    (∃ w : Word, w.toNat = (s.getK ks i j).toNat ∧
      exec (.rdm ks i j) s = .next { s with RSP := s.RSP ++ [w], slot := some w }) ∧
    (∃ w : Word, w.toNat = (s.getV vs i).toNat ∧
      exec (.rdv vs i) s = .next { s with RSP := s.RSP ++ [w], slot := some w }) ∧
    (∃ w : Word, w.toNat = (s.getDim ks).toNat ∧ ((s.getDim ks).toNat ≤ 8 → w.toNat ≤ 8) ∧
      exec (.rddim ks) s = .next { s with RSP := s.RSP ++ [w], slot := some w })

/-! ## Affine unit -/

/-- R100. -/
def Obligations.AffComputesTheAffineTransform : Prop :=
  ∀ (sd sa sx sb : SReg) (s : State),
    let m := s.M.toNat
    let a := (s.getS sa).toNat
    let x := (s.getS sx).toNat
    let b := (s.getS sb).toNat
    decode (0#8 ++ BitVec.ofFin (w := 4) sb ++ BitVec.ofFin (w := 4) sx ++ BitVec.ofFin (w := 4) sa ++
      BitVec.ofFin (w := 4) sd ++ 0x10#8) = some (.aff sd sa sx sb) ∧
    (s.FAULT = true → exec (.aff sd sa sx sb) s = .next s) ∧
    (s.FAULT = false → ¬ (a < m ∧ x < m ∧ b < m) →
      exec (.aff sd sa sx sb) s = .next { s with FAULT := true, CODE := 3, FOP := 0x10, MLOCK := true }) ∧
    (s.FAULT = false → a < m → x < m → b < m →
      ∃ y : Elem, y.toNat = (a * x + b) % m ∧
        exec (.aff sd sa sx sb) s = .next { s with S := s.S.set sd y, MLOCK := true })

/-- R101: the result is the inverse of a, times y − b, normalised into [0, m). -/
def Obligations.AffiInvertsTheAffineTransform : Prop :=
  ∀ (sd sa sy sb : SReg) (s : State),
    let m := s.M.toNat
    let a := (s.getS sa).toNat
    let y := (s.getS sy).toNat
    let b := (s.getS sb).toNat
    decode (0#8 ++ BitVec.ofFin (w := 4) sb ++ BitVec.ofFin (w := 4) sy ++ BitVec.ofFin (w := 4) sa ++
      BitVec.ofFin (w := 4) sd ++ 0x11#8) = some (.affi sd sa sy sb) ∧
    (s.FAULT = true → exec (.affi sd sa sy sb) s = .next s) ∧
    (s.FAULT = false → ¬ (a < m ∧ y < m ∧ b < m) →
      exec (.affi sd sa sy sb) s = .next { s with FAULT := true, CODE := 3, FOP := 0x11, MLOCK := true }) ∧
    (s.FAULT = false → a < m → y < m → b < m → Nat.gcd a m ≠ 1 →
      exec (.affi sd sa sy sb) s = .next { s with FAULT := true, CODE := 4, FOP := 0x11, MLOCK := true }) ∧
    (s.FAULT = false → a < m → y < m → b < m → Nat.gcd a m = 1 →
      ∃ (aInv : Nat) (x : Elem), aInv < m ∧ (a * aInv) % m = 1 % m ∧
        (x.toNat : Int) = ((aInv : Int) * ((y : Int) - (b : Int))) % (m : Int) ∧
        exec (.affi sd sa sy sb) s = .next { s with S := s.S.set sd x, MLOCK := true })

/-- R102: the result is the t in [0, m) with (v·t) mod m = 1 mod m (R14). -/
def Obligations.InvComputesTheModularInverse : Prop :=
  ∀ (sd ss : SReg) (s : State),
    let m := s.M.toNat
    let v := (s.getS ss).toNat
    decode (0#16 ++ BitVec.ofFin (w := 4) ss ++ BitVec.ofFin (w := 4) sd ++ 0x12#8) = some (.inv sd ss) ∧
    (s.FAULT = true → exec (.inv sd ss) s = .next s) ∧
    (s.FAULT = false → ¬ v < m →
      exec (.inv sd ss) s = .next { s with FAULT := true, CODE := 3, FOP := 0x12, MLOCK := true }) ∧
    (s.FAULT = false → v < m → Nat.gcd v m ≠ 1 →
      exec (.inv sd ss) s = .next { s with FAULT := true, CODE := 4, FOP := 0x12, MLOCK := true }) ∧
    (s.FAULT = false → v < m → Nat.gcd v m = 1 →
      ∃ t : Elem, t.toNat < m ∧ (v * t.toNat) % m = 1 % m ∧
        exec (.inv sd ss) s = .next { s with S := s.S.set sd t, MLOCK := true })

/-- R103: gcd with the modulus, m for 0; never NONINV. -/
def Obligations.GcdWithTheModulus : Prop :=
  ∀ (sd ss : SReg) (s : State),
    let m := s.M.toNat
    let v := (s.getS ss).toNat
    decode (0#16 ++ BitVec.ofFin (w := 4) ss ++ BitVec.ofFin (w := 4) sd ++ 0x13#8) = some (.gcd sd ss) ∧
    (s.FAULT = true → exec (.gcd sd ss) s = .next s) ∧
    (s.FAULT = false → ¬ v < m →
      exec (.gcd sd ss) s = .next { s with FAULT := true, CODE := 3, FOP := 0x13, MLOCK := true }) ∧
    (s.FAULT = false → v < m →
      ∃ g : Elem, g.toNat = Nat.gcd v m ∧ 1 ≤ g.toNat ∧ g.toNat ≤ m ∧ (v = 0 → g.toNat = m) ∧
        exec (.gcd sd ss) s = .next { s with S := s.S.set sd g, MLOCK := true })

/-- R104, R159: the count and the solver context; no solution is the count 0 and no fault. -/
def Obligations.Solve2FindsTheSolutionSet : Prop :=
  ∀ (sd sx1 sy1 sx2 sy2 : SReg) (s : State),
    let m := s.M.toNat
    let x1 := s.getS sx1
    let y1 := s.getS sy1
    let x2 := s.getS sx2
    let y2 := s.getS sy2
    let dx := (((x2.toNat : Int) - (x1.toNat : Int)) % (m : Int)).toNat
    let dy := (((y2.toNat : Int) - (y1.toNat : Int)) % (m : Int)).toNat
    let g := Nat.gcd dx m
    let ring := x1.toNat < m ∧ y1.toNat < m ∧ x2.toNat < m ∧ y2.toNat < m
    decode (0#4 ++ BitVec.ofFin (w := 4) sy2 ++ BitVec.ofFin (w := 4) sx2 ++ BitVec.ofFin (w := 4) sy1 ++
      BitVec.ofFin (w := 4) sx1 ++ BitVec.ofFin (w := 4) sd ++ 0x14#8) = some (.solve2 sd sx1 sy1 sx2 sy2) ∧
    (s.FAULT = true → exec (.solve2 sd sx1 sy1 sx2 sy2) s = .next s) ∧
    (s.FAULT = false → ¬ ring → exec (.solve2 sd sx1 sy1 sx2 sy2) s =
      .next { s with FAULT := true, CODE := 3, FOP := 0x14, MLOCK := true }) ∧
    (s.FAULT = false → ring → ¬ g ∣ dy → exec (.solve2 sd sx1 sy1 sx2 sy2) s =
      .next { s with S := s.S.set sd 0, SOL := ⟨0, 0, 0, x1, y1⟩, MLOCK := true }) ∧
    (s.FAULT = false → ring → g ∣ dy →
      ∃ (c : SolverCtx) (inv : Nat), inv < m / g ∧ (dx / g * inv) % (m / g) = 1 % (m / g) ∧
        c.G.toNat = g ∧ c.A0.toNat = (dy / g * inv) % (m / g) ∧ c.MP.toNat = m / g ∧ c.X1 = x1 ∧ c.Y1 = y1 ∧
        exec (.solve2 sd sx1 sy1 sx2 sy2) s =
          .next { s with S := s.S.set sd c.G, SOL := c, MLOCK := true })

/-- R105, R70: the k-th member of the solution set; `SOL` stays; equal destinations are no legal word. The modulus
is never 0 (R188 a), and the reduction of a_k never changes its value in a reachable state (R188 e). -/
def Obligations.SolkComputesTheKthSolution : Prop :=
  ∀ (sda sdb sk : SReg) (s : State), 1 ≤ s.M.toNat →
    let m := s.M.toNat
    let k := (s.getS sk).toNat
    decode (0#12 ++ BitVec.ofFin (w := 4) sk ++ BitVec.ofFin (w := 4) sdb ++ BitVec.ofFin (w := 4) sda ++
      0x15#8) = (if sda = sdb then none else some (.solk sda sdb sk)) ∧
    (s.FAULT = true → exec (.solk sda sdb sk) s = .next s) ∧
    (s.FAULT = false → s.SOL.G.toNat ≤ k →
      exec (.solk sda sdb sk) s = .next { s with FAULT := true, CODE := 3, FOP := 0x15, MLOCK := true }) ∧
    (s.FAULT = false → k < s.SOL.G.toNat →
      ∃ a b : Elem, a.toNat = (s.SOL.A0.toNat + k * s.SOL.MP.toNat) % m ∧
        (s.solverCoherent → a.toNat = s.SOL.A0.toNat + k * s.SOL.MP.toNat) ∧
        (b.toNat : Int) = ((s.SOL.Y1.toNat : Int) - (a.toNat : Int) * (s.SOL.X1.toNat : Int)) % (m : Int) ∧
        exec (.solk sda sdb sk) s = .next { s with S := (s.S.set sda a).set sdb b, MLOCK := true })

/-! ## Hill multiply unit -/

/-- R120: row vector times matrix; elements n to 7 of the destination stay. -/
def Obligations.VmulIsRowVectorTimesMatrix : Prop :=
  ∀ (vd vs : VReg) (ks : KReg) (s : State),
    let m := s.M.toNat
    let n := (s.getDim ks).toNat
    decode (0#18 ++ BitVec.ofFin (w := 2) ks ++ BitVec.ofFin (w := 2) vs ++ BitVec.ofFin (w := 2) vd ++
      0x28#8) = some (.vmul vd vs ks) ∧
    (s.FAULT = true → exec (.vmul vd vs ks) s = .next s) ∧
    (s.FAULT = false → n = 0 →
      exec (.vmul vd vs ks) s = .next { s with FAULT := true, CODE := 2, FOP := 0x28, MLOCK := true }) ∧
    (s.FAULT = false → n ≠ 0 → ¬ (s.blockRing ks ∧ s.vecRing vs n) →
      exec (.vmul vd vs ks) s = .next { s with FAULT := true, CODE := 3, FOP := 0x28, MLOCK := true }) ∧
    (s.FAULT = false → n ≠ 0 → s.blockRing ks → s.vecRing vs n →
      ∃ r : Vector Elem 8,
        (∀ j : Idx, j.val < n → (r[j]).toNat =
          (∑ i : Fin n, (s.vecAt vs i).toNat * (s.K[ks].entry i j).toNat) % m) ∧
        (∀ j : Idx, n ≤ j.val → r[j] = s.getV vd j) ∧
        exec (.vmul vd vs ks) s = .next { s with V := s.V.set vd r, MLOCK := true })

/-- R121: matrix times column vector; elements n to 7 of the destination stay. -/
def Obligations.MvmulIsMatrixTimesColumnVector : Prop :=
  ∀ (vd vs : VReg) (ks : KReg) (s : State),
    let m := s.M.toNat
    let n := (s.getDim ks).toNat
    decode (0#18 ++ BitVec.ofFin (w := 2) ks ++ BitVec.ofFin (w := 2) vs ++ BitVec.ofFin (w := 2) vd ++
      0x29#8) = some (.mvmul vd vs ks) ∧
    (s.FAULT = true → exec (.mvmul vd vs ks) s = .next s) ∧
    (s.FAULT = false → n = 0 →
      exec (.mvmul vd vs ks) s = .next { s with FAULT := true, CODE := 2, FOP := 0x29, MLOCK := true }) ∧
    (s.FAULT = false → n ≠ 0 → ¬ (s.blockRing ks ∧ s.vecRing vs n) →
      exec (.mvmul vd vs ks) s = .next { s with FAULT := true, CODE := 3, FOP := 0x29, MLOCK := true }) ∧
    (s.FAULT = false → n ≠ 0 → s.blockRing ks → s.vecRing vs n →
      ∃ r : Vector Elem 8,
        (∀ i : Idx, i.val < n → (r[i]).toNat =
          (∑ j : Fin n, (s.K[ks].entry i j).toNat * (s.vecAt vs j).toNat) % m) ∧
        (∀ i : Idx, n ≤ i.val → r[i] = s.getV vd i) ∧
        exec (.mvmul vd vs ks) s = .next { s with V := s.V.set vd r, MLOCK := true })

/-! ## Matrix inversion unit -/

/-- R132: the determinant of the leading block, reduced; never SINGULAR. -/
def Obligations.DetComputesTheDeterminant : Prop :=
  ∀ (sd : SReg) (ks : KReg) (s : State),
    let m := s.M.toNat
    decode (0#12 ++ BitVec.ofFin (w := 4) sd ++ 0#2 ++ BitVec.ofFin (w := 2) ks ++ 0#4 ++ 0x30#8) =
      some (.det sd ks) ∧
    (s.FAULT = true → exec (.det sd ks) s = .next s) ∧
    (s.FAULT = false → s.getDim ks = 0 →
      exec (.det sd ks) s = .next { s with FAULT := true, CODE := 2, FOP := 0x30, MLOCK := true }) ∧
    (s.FAULT = false → s.getDim ks ≠ 0 → ¬ s.blockRing ks →
      exec (.det sd ks) s = .next { s with FAULT := true, CODE := 3, FOP := 0x30, MLOCK := true }) ∧
    (s.FAULT = false → s.getDim ks ≠ 0 → s.blockRing ks →
      ∃ d : Elem, (d.toNat : Int) = (s.matrix ks).det % (m : Int) ∧
        exec (.det sd ks) s = .next { s with S := s.S.set sd d, MLOCK := true })

/-- R133: the adjugate of the leading block, reduced, with the source's dimension; elements outside the block
stay; never SINGULAR. -/
def Obligations.AdjComputesTheAdjugate : Prop :=
  ∀ (kd ks : KReg) (s : State),
    let m := s.M.toNat
    let n := (s.getDim ks).toNat
    decode (0#18 ++ BitVec.ofFin (w := 2) ks ++ 0#2 ++ BitVec.ofFin (w := 2) kd ++ 0x31#8) =
      some (.adj kd ks) ∧
    (s.FAULT = true → exec (.adj kd ks) s = .next s) ∧
    (s.FAULT = false → s.getDim ks = 0 →
      exec (.adj kd ks) s = .next { s with FAULT := true, CODE := 2, FOP := 0x31, MLOCK := true }) ∧
    (s.FAULT = false → s.getDim ks ≠ 0 → ¬ s.blockRing ks →
      exec (.adj kd ks) s = .next { s with FAULT := true, CODE := 3, FOP := 0x31, MLOCK := true }) ∧
    (s.FAULT = false → s.getDim ks ≠ 0 → s.blockRing ks →
      ∃ B : MatReg, B.dim = s.getDim ks ∧
        (∀ (i j : Idx) (hi : i.val < n) (hj : j.val < n),
          (((B.e[i])[j]).toNat : Int) = (s.matrix ks).adjugate ⟨i, hi⟩ ⟨j, hj⟩ % (m : Int)) ∧
        (∀ i j : Idx, ¬ (i.val < n ∧ j.val < n) → (B.e[i])[j] = s.getK kd i j) ∧
        exec (.adj kd ks) s = .next { s with K := s.K.set kd B, MLOCK := true })

/-- R134: the inverse of the determinant residue times the adjugate, reduced; SINGULAR when the determinant is
not a unit; in every fault nothing of the destination is written. -/
def Obligations.MatinvComputesTheInverse : Prop :=
  ∀ (kd ks : KReg) (s : State),
    let m := s.M.toNat
    let n := (s.getDim ks).toNat
    let det := ((s.matrix ks).det % (m : Int)).toNat
    decode (0#18 ++ BitVec.ofFin (w := 2) ks ++ 0#2 ++ BitVec.ofFin (w := 2) kd ++ 0x32#8) =
      some (.matinv kd ks) ∧
    (s.FAULT = true → exec (.matinv kd ks) s = .next s) ∧
    (s.FAULT = false → s.getDim ks = 0 →
      exec (.matinv kd ks) s = .next { s with FAULT := true, CODE := 2, FOP := 0x32, MLOCK := true }) ∧
    (s.FAULT = false → s.getDim ks ≠ 0 → ¬ s.blockRing ks →
      exec (.matinv kd ks) s = .next { s with FAULT := true, CODE := 3, FOP := 0x32, MLOCK := true }) ∧
    (s.FAULT = false → s.getDim ks ≠ 0 → s.blockRing ks → Nat.gcd det m ≠ 1 →
      exec (.matinv kd ks) s = .next { s with FAULT := true, CODE := 5, FOP := 0x32, MLOCK := true }) ∧
    (s.FAULT = false → s.getDim ks ≠ 0 → s.blockRing ks → Nat.gcd det m = 1 →
      ∃ (B : MatReg) (detInv : Nat), detInv < m ∧ (det * detInv) % m = 1 % m ∧ B.dim = s.getDim ks ∧
        (∀ (i j : Idx) (hi : i.val < n) (hj : j.val < n),
          (((B.e[i])[j]).toNat : Int) =
            ((detInv : Int) * (s.matrix ks).adjugate ⟨i, hi⟩ ⟨j, hj⟩) % (m : Int)) ∧
        (∀ i j : Idx, ¬ (i.val < n ∧ j.val < n) → (B.e[i])[j] = s.getK kd i j) ∧
        exec (.matinv kd ks) s = .next { s with K := s.K.set kd B, MLOCK := true })

/-- R22, R23: what stands outside the leading block of the source matrix, or beyond its dimension in the source
vector, changes nothing of a matrix command but itself: it is neither read, checked nor written. -/
def Obligations.OutsideTheLeadingBlockIsInvisible : Prop :=
  ∀ (s : State) (k : KReg) (vs : VReg) (a b : Idx) (x : Elem),
    ((s.getDim k).toNat ≤ a.val ∨ (s.getDim k).toNat ≤ b.val →
      ∀ (vd : VReg) (sd : SReg) (kd : KReg),
      ∀ i ∈ [Instr.vmul vd vs k, .mvmul vd vs k, .det sd k, .adj kd k, .matinv kd k],
        ∃ t, exec i s = .next t ∧ exec i (s.setK k a b x) = .next (t.setK k a b x)) ∧
    ((s.getDim k).toNat ≤ a.val →
      ∀ vd : VReg, ∀ i ∈ [Instr.vmul vd vs k, .mvmul vd vs k],
        ∃ t, exec i s = .next t ∧ exec i (s.setV vs a x) = .next (t.setV vs a x))

/-! ## Laws the rules imply -/

/-- R17: the cofactor expansion with every minor, product and partial sum reduced mod m gives DET's residue and
the adjugate, the row and column sums reduced after every addition give the products' elements; and so does any
other evaluation that reduces intermediate values where it likes. -/
def Obligations.ReductionMayBeInterleaved : Prop :=
  ∀ (n m : Nat) (A : Nat → Nat → Int) (v : Nat → Int), 1 ≤ m →
    detReduced m n A = residue (idet n A) m ∧
    (∀ (s : State) (k : KReg), s.M.toNat = m → detReduced m n (s.entries k) = s.detResidue k n) ∧
    (∀ i j, adjugateReduced m n A i j = adjugate n A m i j) ∧
    (∀ j, rowReduced m n v A j = rowTimes n v A m j) ∧
    (∀ i, colReduced m n A v i = timesCol n A v m i) ∧
    ∀ x : Int,
      (Interleaved m (detExpr n A) x → residue x m = residue (idet n A) m) ∧
      (∀ i j, Interleaved m (adjExpr n A i j) x → residue x m = adjugate n A m i j) ∧
      (∀ j, Interleaved m (rowExpr n v A j) x → residue x m = rowTimes n v A m j) ∧
      (∀ i, Interleaved m (colExpr n A v i) x → residue x m = timesCol n A v m i)

/-- R106: the affine round trip, both ways. -/
def Obligations.AffineRoundTrip : Prop :=
  ∀ (s : State) (sa sx sb sd se : SReg),
    let m := s.M.toNat
    s.FAULT = false → (s.getS sa).toNat < m → (s.getS sx).toNat < m → (s.getS sb).toNat < m →
    Nat.gcd (s.getS sa).toNat m = 1 → sd ≠ sa → sd ≠ sb →
    (∃ t u, exec (.aff sd sa sx sb) s = .next t ∧ exec (.affi se sa sd sb) t = .next u ∧
      u.FAULT = false ∧ u.getS se = s.getS sx) ∧
    (∃ t u, exec (.affi sd sa sx sb) s = .next t ∧ exec (.aff se sa sd sb) t = .next u ∧
      u.FAULT = false ∧ u.getS se = s.getS sx)

/-- R107 (i): every pair SOLK answers below the count lies on both points. -/
def Obligations.SolverIsSound : Prop :=
  ∀ (s : State) (sd sx1 sy1 sx2 sy2 : SReg),
    let m := s.M.toNat
    let x1 := (s.getS sx1).toNat
    let y1 := (s.getS sy1).toNat
    let x2 := (s.getS sx2).toNat
    let y2 := (s.getS sy2).toNat
    s.FAULT = false → x1 < m → y1 < m → x2 < m → y2 < m →
    ∃ t, exec (.solve2 sd sx1 sy1 sx2 sy2) s = .next t ∧
      ∀ k < (t.getS sd).toNat, ∃ a b, t.solkGives k a b ∧ a < m ∧ b < m ∧
        (a * x1 + b) % m = y1 ∧ (a * x2 + b) % m = y2

/-- R107 (ii): every pair of ring elements on both points is SOLK's answer for exactly one k below the count. -/
def Obligations.SolverIsComplete : Prop :=
  ∀ (s : State) (sd sx1 sy1 sx2 sy2 : SReg),
    let m := s.M.toNat
    let x1 := (s.getS sx1).toNat
    let y1 := (s.getS sy1).toNat
    let x2 := (s.getS sx2).toNat
    let y2 := (s.getS sy2).toNat
    s.FAULT = false → x1 < m → y1 < m → x2 < m → y2 < m →
    ∃ t, exec (.solve2 sd sx1 sy1 sx2 sy2) s = .next t ∧
      ∀ a < m, ∀ b < m, (a * x1 + b) % m = y1 → (a * x2 + b) % m = y2 →
        ∃! k, k < (t.getS sd).toNat ∧ t.solkGives k a b

/-- R107 (iii): the count is 0 exactly when gcd(dx, m) does not divide dy, and otherwise that gcd. -/
def Obligations.SolverCountsTheSolutions : Prop :=
  ∀ (s : State) (sd sx1 sy1 sx2 sy2 : SReg),
    let m := s.M.toNat
    let dx := ((((s.getS sx2).toNat : Int) - ((s.getS sx1).toNat : Int)) % (m : Int)).toNat
    let dy := ((((s.getS sy2).toNat : Int) - ((s.getS sy1).toNat : Int)) % (m : Int)).toNat
    s.FAULT = false → (s.getS sx1).toNat < m → (s.getS sy1).toNat < m → (s.getS sx2).toNat < m →
    (s.getS sy2).toNat < m →
    ∃ t, exec (.solve2 sd sx1 sy1 sx2 sy2) s = .next t ∧ t.FAULT = false ∧
      ((t.getS sd).toNat = 0 ↔ ¬ Nat.gcd dx m ∣ dy) ∧
      (Nat.gcd dx m ∣ dy → (t.getS sd).toNat = Nat.gcd dx m)

/-- R122: MVMUL with a matrix is VMUL with its transpose. -/
def Obligations.MvmulIsVmulOfTheTranspose : Prop :=
  ∀ (s : State) (vd vs : VReg) (k kT : KReg), s.FAULT = false → s.getDim k ≠ 0 →
    s.getDim kT = s.getDim k →
    (∀ i < (s.getDim k).toNat, ∀ j < (s.getDim k).toNat, s.K[kT].entry i j = s.K[k].entry j i) →
    s.blockRing k → s.vecRing vs (s.getDim k).toNat →
    ∃ t, exec (.mvmul vd vs k) s = .next t ∧ exec (.vmul vd vs kT) s = .next t ∧ t.FAULT = false

/-- R124: a block multiplied by a key and then by the key's inverse is the block again, in each orientation:
with the inverse taken first, into another register than the key's, or after the block was multiplied, into any
register, the key's own among them. -/
def Obligations.HillRoundTrip : Prop :=
  ∀ (s t : State) (kd ks : KReg) (vs v1 v2 : VReg), (s.getDim ks).toNat ≤ 8 →
    exec (.matinv kd ks) s = .next t → t.FAULT = false → s.vecRing vs (s.getDim ks).toNat →
    (kd ≠ ks →
      (∃ u w, exec (.vmul v1 vs ks) t = .next u ∧ exec (.vmul v2 v1 kd) u = .next w ∧ w.FAULT = false ∧
        ∀ i < (s.getDim ks).toNat, w.vecAt v2 i = s.vecAt vs i) ∧
      (∃ u w, exec (.mvmul v1 vs ks) t = .next u ∧ exec (.mvmul v2 v1 kd) u = .next w ∧ w.FAULT = false ∧
        ∀ i < (s.getDim ks).toNat, w.vecAt v2 i = s.vecAt vs i)) ∧
    (∃ u x w, exec (.vmul v1 vs ks) s = .next u ∧ exec (.matinv kd ks) u = .next x ∧
      exec (.vmul v2 v1 kd) x = .next w ∧ w.FAULT = false ∧
      ∀ i < (s.getDim ks).toNat, w.vecAt v2 i = s.vecAt vs i) ∧
    (∃ u x w, exec (.mvmul v1 vs ks) s = .next u ∧ exec (.matinv kd ks) u = .next x ∧
      exec (.mvmul v2 v1 kd) x = .next w ∧ w.FAULT = false ∧
      ∀ i < (s.getDim ks).toNat, w.vecAt v2 i = s.vecAt vs i)

/-- R135: inverting the inverse completes and gives the leading block back. -/
def Obligations.InverseOfTheInverse : Prop :=
  ∀ (s t : State) (ka kb kc : KReg), (s.getDim ka).toNat ≤ 8 →
    exec (.matinv kb ka) s = .next t → t.FAULT = false →
    ∃ u, exec (.matinv kc kb) t = .next u ∧ u.FAULT = false ∧ u.getDim kc = s.getDim ka ∧
      ∀ i < (s.getDim ka).toNat, ∀ j < (s.getDim ka).toNat, u.K[kc].entry i j = s.K[ka].entry i j

/-- R136: MATINV completes exactly when the determinant residue is a unit, which DET and then GCD tell without
inverting; its result is a two-sided inverse mod m. -/
def Obligations.InvertibilityCriterion : Prop :=
  ∀ (s : State) (kd ks : KReg) (sd : SReg),
    let m := s.M.toNat
    let n := (s.getDim ks).toNat
    s.FAULT = false → s.getDim ks ≠ 0 → n ≤ 8 → s.blockRing ks →
    ∃ t u w, exec (.matinv kd ks) s = .next t ∧ exec (.det sd ks) s = .next u ∧
      exec (.gcd sd sd) u = .next w ∧ u.FAULT = false ∧ w.FAULT = false ∧
      (t.FAULT = false ↔ (w.getS sd).toNat = 1) ∧
      (t.FAULT = true → t.CODE = 5 ∧ t.K = s.K) ∧
      (t.FAULT = false → ∀ i j : Fin n,
        (∑ l : Fin n, (s.K[ks].entry i l).toNat * (t.K[kd].entry l j).toNat) % m =
          (if i = j then 1 else 0) % m ∧
        (∑ l : Fin n, (t.K[kd].entry i l).toNat * (s.K[ks].entry l j).toNat) % m =
          (if i = j then 1 else 0) % m)

/-! ## Invariants and runs -/

/-- R188 (a) to (e) and the handshake hold at reset. -/
def Obligations.InvariantsHoldAtReset : Prop := State.reset.Inv

/-- R188 (a) to (e) and the handshake are kept by every clock edge from every state that meets them. -/
def Obligations.EveryStepKeepsTheInvariants : Prop :=
  ∀ s t : State, s.Inv → step s = .next t → t.Inv

/-- R188 (f): over a run of accepted words the response stream grows by one word for each legal read command,
whatever `FAULT` is. -/
def Obligations.OneResponsePerReadCommand : Prop :=
  ∀ (ws : List Word) (s : State),
    (s.afterWords ws).RSP.length = s.RSP.length + ws.countP isReadWord

/-- R43: the commands that complete over k edges are the ones accepted, in that order, the last one perhaps still
in progress. -/
def Obligations.CommandsCompleteInAcceptanceOrder : Prop :=
  ∀ (k : Nat) (s : State), State.noReset k s = true →
    s.inProgress.toList ++ State.trace State.acceptsNow k s =
      State.trace State.completesNow k s ++ (State.ticks k s).inProgress.toList

/-- R189, R190: over k edges without reset the architectural state is a function of the words completed alone: not
of how many edges each took, of the words on `cmd_data` between, or of when the host took the responses. -/
def Obligations.StateIsAFunctionOfTheCompletedWords : Prop :=
  ∀ (k : Nat) (s : State), State.noReset k s = true →
    (State.ticks k s).arch = (s.arch.afterWords (State.trace State.completesNow k s)).arch

/-- R46: responses leave in command order, none lost: what the host has taken, and the word still waiting, is what
was waiting at first and then every word responded. -/
def Obligations.NoResponseIsLost : Prop :=
  ∀ (k : Nat) (s : State), s.portCoherent → State.noReset k s = true →
    ∃ new, (State.ticks k s).RSP = s.RSP ++ new ∧
      s.slot.toList ++ new = State.trace State.takesNow k s ++ (State.ticks k s).slot.toList

/-- R45: a command in progress completes after finitely many edges. That the edges to come are a finite list, and
that a command completes at an edge that no list names, is the model's choice (log entries 2 and 3). -/
def Obligations.EveryCommandCompletes : Prop :=
  ∀ s : State, s.busy = true → (∀ e ∈ s.edges, e.rst = false) →
    ∃ k, 1 ≤ k ∧ k ≤ s.edges.length + 1 ∧ (State.ticks k s).busy = false

/-- R17 at the commands: what each ring command that computes with +, − and × writes to its destination registers
is fixed by whatever value an evaluation reaches that reduces intermediate values mod m where it likes. -/
def Obligations.CommandsMayReduceIntermediates : Prop :=
  ∀ s : State, s.FAULT = false → 1 ≤ s.M.toNat →
    let m := s.M.toNat
    let S (r : SReg) : RingExpr := .num (s.getS r).toNat
    let ring (r : SReg) : Prop := (s.getS r).toNat < m
    (∀ sd sa sx sb : SReg, ring sa → ring sx → ring sb →
      ∃ t, exec (.aff sd sa sx sb) s = .next t ∧ t.FAULT = false ∧
        ∀ x, Interleaved m (.add (.mul (S sa) (S sx)) (S sb)) x → ((t.getS sd).toNat : Int) = x % m) ∧
    (∀ (sd sa sy sb : SReg) (inv : Nat), ring sa → ring sy → ring sb → inv < m →
      ((s.getS sa).toNat * inv) % m = 1 % m →
      ∃ t, exec (.affi sd sa sy sb) s = .next t ∧ t.FAULT = false ∧
        ∀ x, Interleaved m (.mul (.num inv) (.sub (S sy) (S sb))) x → ((t.getS sd).toNat : Int) = x % m) ∧
    (∀ sd sx1 sy1 sx2 sy2 : SReg, ring sx1 → ring sy1 → ring sx2 → ring sy2 →
      ∃ t, exec (.solve2 sd sx1 sy1 sx2 sy2) s = .next t ∧ t.FAULT = false ∧
        ∀ dx dy, Interleaved m (.sub (S sx2) (S sx1)) dx → Interleaved m (.sub (S sy2) (S sy1)) dy →
          (t.getS sd).toNat = if ((Int.gcd dx m : Nat) : Int) ∣ dy then Int.gcd dx m else 0) ∧
    (∀ sda sdb sk : SReg, sda ≠ sdb → (s.getS sk).toNat < s.SOL.G.toNat →
      let a : RingExpr := .add (.num s.SOL.A0.toNat) (.mul (S sk) (.num s.SOL.MP.toNat))
      ∃ t, exec (.solk sda sdb sk) s = .next t ∧ t.FAULT = false ∧
        (∀ x, Interleaved m a x → ((t.getS sda).toNat : Int) = x % m) ∧
        ∀ x, Interleaved m (.sub (.num s.SOL.Y1.toNat) (.mul a (.num s.SOL.X1.toNat))) x →
          ((t.getS sdb).toNat : Int) = x % m) ∧
    ∀ ks : KReg, s.getDim ks ≠ 0 → (s.getDim ks).toNat ≤ 8 → s.blockRing ks →
      let n := (s.getDim ks).toNat
      let A := s.entries ks
      (∀ vd vs : VReg, s.vecRing vs n →
        (∃ t, exec (.vmul vd vs ks) s = .next t ∧ t.FAULT = false ∧
          ∀ j < n, ∀ x, Interleaved m (rowExpr n (s.vecEntries vs) A j) x → ((t.vecAt vd j).toNat : Int) = x % m) ∧
        (∃ t, exec (.mvmul vd vs ks) s = .next t ∧ t.FAULT = false ∧
          ∀ i < n, ∀ x, Interleaved m (colExpr n A (s.vecEntries vs) i) x →
            ((t.vecAt vd i).toNat : Int) = x % m)) ∧
      (∀ sd : SReg, ∃ t, exec (.det sd ks) s = .next t ∧ t.FAULT = false ∧
        ∀ x, Interleaved m (detExpr n A) x → ((t.getS sd).toNat : Int) = x % m) ∧
      ∀ kd : KReg,
        (∃ t, exec (.adj kd ks) s = .next t ∧ t.FAULT = false ∧
          ∀ i < n, ∀ j < n, ∀ x, Interleaved m (adjExpr n A i j) x →
            ((t.K[kd].entry i j).toNat : Int) = x % m) ∧
        (∃ t, exec (.matinv kd ks) s = .next t ∧
          ∀ d, Interleaved m (detExpr n A) d →
            (t.FAULT = false ↔ Int.gcd d m = 1) ∧
            ∀ inv : Nat, inv < m → (d * inv) % m = 1 % m →
              ∀ i < n, ∀ j < n, ∀ x, Interleaved m (.mul (.num inv) (adjExpr n A i j)) x →
                ((t.K[kd].entry i j).toNat : Int) = x % m)
end

