-- ==== Sys2Proof/Laws/Arith.lean ====
section
/-! SUPPORT. What the arithmetic primitives compute: `residue` (R10), `modinv` (R14), `sumTo`, `idet` (R16)
and the adjugate (R131), tied to Mathlib's sums, determinant and adjugate. -/

namespace Sys2Proof.Machine

/-! ## Residues -/

/-- The residue is the integer remainder (R10). -/
theorem residue_cast (a : Int) {m : Nat} (hm : 0 < m) : ((residue a m : Nat) : Int) = a % (m : Int) := by
  have : 0 ≤ a % (m : Int) := Int.emod_nonneg _ (by omega)
  simp only [residue, Int.toNat_of_nonneg this]

theorem residue_lt (a : Int) {m : Nat} (hm : 0 < m) : residue a m < m := by
  have h := residue_cast a hm
  have : a % (m : Int) < m := Int.emod_lt_of_pos _ (by omega)
  omega

/-- The residue of a natural number is the natural remainder. -/
theorem residue_natCast (n m : Nat) : residue (n : Int) m = n % m := by
  simp only [residue]
  omega

/-- A number below m is its own residue. -/
theorem residue_of_lt {n m : Nat} (h : n < m) : residue (n : Int) m = n := by
  rw [residue_natCast, Nat.mod_eq_of_lt h]

/-- The residue is congruent to the number. -/
theorem residue_modEq (a : Int) {m : Nat} (hm : 0 < m) : (residue a m : Int) ≡ a [ZMOD m] := by
  rw [residue_cast a hm]
  exact Int.mod_modEq a m

/-- Two numbers have one residue exactly when they are congruent. -/
theorem residue_eq_iff (a b : Int) {m : Nat} (hm : 0 < m) :
    residue a m = residue b m ↔ a ≡ b [ZMOD m] := by
  have ha := residue_cast a hm
  have hb := residue_cast b hm
  unfold Int.ModEq
  omega

/-- In Z/mZ the residue is the number itself. -/
theorem residue_zmod (a : Int) {m : Nat} (hm : 0 < m) : ((residue a m : Nat) : ZMod m) = (a : ZMod m) := by
  have h := (ZMod.intCast_eq_intCast_iff _ _ m).mpr (residue_modEq a hm)
  simpa using h

/-- Two numbers below m are equal when they are equal in Z/mZ. -/
theorem nat_eq_of_zmod_eq {m a b : Nat} (ha : a < m) (hb : b < m) (h : (a : ZMod m) = (b : ZMod m)) :
    a = b := by
  have := (ZMod.natCast_eq_natCast_iff a b m).mp h
  exact Nat.ModEq.eq_of_lt_of_lt this ha hb

/-! ## The modular inverse -/

/-- The extended Euclidean algorithm: with enough fuel, from remainders that are `t0·v` and `t1·v` mod m, the
answer times v is congruent to the greatest common divisor. -/
theorem euclid_spec (v m : Int) : ∀ (fuel r0 r1 : Nat) (t0 t1 : Int), r1 < fuel →
    t0 * v ≡ r0 [ZMOD m] → t1 * v ≡ r1 [ZMOD m] →
    euclid fuel r0 r1 t0 t1 * v ≡ Nat.gcd r0 r1 [ZMOD m] := by
  intro fuel
  induction fuel with
  | zero => intro r0 r1 t0 t1 h; omega
  | succ f ih =>
    intro r0 r1 t0 t1 hf h0 h1
    unfold euclid
    by_cases hr : r1 = 0
    · simpa [hr] using h0
    · rw [if_neg hr]
      have hlt : r0 % r1 < r1 := Nat.mod_lt _ (by omega)
      have hstep : (t0 - ((r0 / r1 : Nat) : Int) * t1) * v ≡ (r0 % r1 : Nat) [ZMOD m] := by
        have e1 : (t0 - ((r0 / r1 : Nat) : Int) * t1) * v = t0 * v - ((r0 / r1 : Nat) : Int) * (t1 * v) := by
          ring
        have e2 : ((r0 % r1 : Nat) : Int) = (r0 : Int) - ((r0 / r1 : Nat) : Int) * (r1 : Int) := by
          have := Nat.mod_add_div r0 r1
          have h3 : ((r0 % r1 : Nat) : Int) + (r1 : Int) * ((r0 / r1 : Nat) : Int) = r0 := by exact_mod_cast this
          linarith
        rw [e1, e2]
        exact h0.sub (h1.mul_left _)
      have := ih r1 (r0 % r1) t1 _ (by omega) h1 hstep
      rwa [show Nat.gcd r1 (r0 % r1) = Nat.gcd r0 r1 by rw [Nat.gcd_comm r1, ← Nat.gcd_rec, Nat.gcd_comm]] at this

/-- `modinv` is the inverse: in [0, m), and times v it is 1 mod m (R14). -/
theorem modinv_spec {v m : Nat} (hm : 0 < m) (h : Nat.gcd v m = 1) :
    modinv v m < m ∧ (v * modinv v m) % m = 1 % m := by
  refine ⟨residue_lt _ hm, ?_⟩
  have he := euclid_spec v m (v + 1) m v 0 1 (by omega) (by simp [Int.ModEq]) (by simp [Int.ModEq])
  rw [Nat.gcd_comm, h] at he
  have : ((v * modinv v m : Nat) : Int) ≡ ((1 : Nat) : Int) [ZMOD m] := by
    push_cast
    calc (v : Int) * (modinv v m : Int) ≡ v * euclid (v + 1) m v 0 1 [ZMOD m] :=
          (residue_modEq _ hm).mul_left _
      _ = euclid (v + 1) m v 0 1 * v := by ring
      _ ≡ 1 [ZMOD m] := by simpa using he
  exact (Int.natCast_modEq_iff.mp this)

theorem modinv_lt (v : Nat) {m : Nat} (hm : 0 < m) : modinv v m < m := residue_lt _ hm

/-- The modular inverse is unique (R14). -/
theorem modinv_unique {v m t : Nat} (hm : 0 < m) (h : Nat.gcd v m = 1) (ht : t < m)
    (hv : (v * t) % m = 1 % m) : t = modinv v m := by
  obtain ⟨hlt, hinv⟩ := modinv_spec hm h
  have hcop : Nat.Coprime m v := by rw [Nat.Coprime, Nat.gcd_comm]; exact h
  have : v * t ≡ v * modinv v m [MOD m] := by rw [Nat.ModEq, hv, hinv]
  exact Nat.ModEq.eq_of_lt_of_lt (Nat.ModEq.cancel_left_of_coprime hcop this) ht hlt

/-- In Z/mZ the modular inverse is an inverse. -/
theorem modinv_zmod {v m : Nat} (hm : 0 < m) (h : Nat.gcd v m = 1) :
    (v : ZMod m) * (modinv v m : ZMod m) = 1 := by
  have := (modinv_spec hm h).2
  have := (ZMod.natCast_eq_natCast_iff (v * modinv v m) 1 m).mpr this
  simpa using this

/-! ## Sums, determinants, adjugates -/

/-- The exact sum is Mathlib's sum over the first n numbers. -/
theorem sumTo_eq_sum (n : Nat) (f : Nat → Int) : sumTo n f = ∑ i : Fin n, f i := by
  induction n with
  | zero => simp [sumTo]
  | succ k ih => rw [sumTo, ih, Fin.sum_univ_castSucc]; simp

theorem sumTo_congr {n : Nat} {f g : Nat → Int} (h : ∀ i < n, f i = g i) : sumTo n f = sumTo n g := by
  rw [sumTo_eq_sum, sumTo_eq_sum]
  exact Finset.sum_congr rfl fun i _ => h i i.isLt

@[simp] theorem toMatrix_apply (n : Nat) (A : Nat → Nat → Int) (i j : Fin n) : toMatrix n A i j = A i j := rfl

/-- The minor is the submatrix without one row and one column (R15). -/
theorem toMatrix_minor (n : Nat) (A : Nat → Nat → Int) (r c : Fin (n + 1)) :
    toMatrix n (minor A r c) = (toMatrix (n + 1) A).submatrix r.succAbove c.succAbove := by
  have key : ∀ (a : Fin (n + 1)) (p : Fin n), ((a.succAbove p : Fin (n + 1)) : Nat) = p + if (p : Nat) ≥ a then 1 else 0 := by
    intro a p
    rw [Fin.succAbove]
    split <;> rename_i h <;> simp [Fin.lt_def] at h <;> simp <;> omega
  ext p q
  simp [minor, key]

/-- `idet` is the determinant (R16). -/
theorem idet_eq_det (n : Nat) (A : Nat → Nat → Int) : idet n A = (toMatrix n A).det := by
  induction n generalizing A with
  | zero => simp [idet]
  | succ k ih =>
    rw [idet, sumTo_eq_sum, Matrix.det_succ_row_zero]
    refine Finset.sum_congr rfl fun j _ => ?_
    rw [ih, show minor A 0 j = minor A (0 : Fin (k + 1)) j from rfl, toMatrix_minor, Fin.succAbove_zero]
    simp

/-- The adjugate mod m is the residue of the adjugate (R131). -/
theorem adjugate_eq (n : Nat) (A : Nat → Nat → Int) (m : Nat) (i j : Fin n) :
    adjugate n A m i j = residue ((toMatrix n A).adjugate i j) m := by
  cases n with
  | zero => exact i.elim0
  | succ k =>
    rw [adjugate, cofactor, Matrix.adjugate_fin_succ_eq_det_submatrix]
    congr 1
    rw [Nat.add_sub_cancel, idet_eq_det, toMatrix_minor]

end Sys2Proof.Machine
end

