-- ==== Sys2Proof/Laws/Asm.lean ====
section
/-! SUPPORT. What the assembler's lexer makes of a word, and that a printed number reads back. -/

namespace Sys2Proof.Machine

/-- A character that stands inside a word: no white space, no comma, no comment. -/
def isWordChar (c : Char) : Bool := c != ';' && c != ',' && !isSpace c

/-- The lexer runs through the characters of a word. -/
theorem tokens_word (w acc rest : List Char) (h : ∀ c ∈ w, isWordChar c = true) :
    tokens acc (w ++ rest) = tokens (acc ++ w) rest := by
  induction w generalizing acc with
  | nil => simp
  | cons c w ih =>
    have hc := h c (by simp)
    simp only [isWordChar, Bool.and_eq_true, bne_iff_ne, Bool.not_eq_true'] at hc
    rw [List.cons_append, tokens, if_neg hc.1.1, if_neg hc.1.2, hc.2]
    simp only [Bool.false_eq_true, if_false]
    rw [ih _ fun c hc => h c (by simp [hc])]
    simp

/-- Each decimal digit's value, and that it stands inside a word. -/
theorem digit_spec : ∀ d : Fin 10, digitValue (Char.ofNat (48 + d)) = some d.val ∧
    isWordChar (Char.ofNat (48 + d)) = true ∧ Char.ofNat (48 + d) ≠ 'x' := by decide

/-- The digits of a number, read back. -/
theorem digitsValue_decimalDigits (f n : Nat) (tail : List Char) (h : n < 10 ^ f) :
    digitsValue 10 0 (decimalDigits f n tail) = digitsValue 10 n tail := by
  have step : ∀ (a d : Nat) (t : List Char), d < 10 →
      digitsValue 10 a (Char.ofNat (48 + d) :: t) = digitsValue 10 (a * 10 + d) t := by
    intro a d t hd
    have := (digit_spec ⟨d, hd⟩).1
    simp only at this
    rw [digitsValue, this]
    simp [hd]
  induction f generalizing n tail with
  | zero =>
    have : n = 0 := by omega
    subst this
    rfl
  | succ f ih =>
    unfold decimalDigits
    split
    · next h10 => rw [step _ _ _ h10]; simp
    · rw [ih _ _ (by rw [pow_succ] at h; omega), step _ _ _ (Nat.mod_lt _ (by omega))]
      congr 1
      omega

/-- The digits of a number are word characters other than `x`. -/
theorem decimalDigits_chars (f n : Nat) (tail : List Char)
    (h : ∀ c ∈ tail, isWordChar c = true ∧ c ≠ 'x') :
    ∀ c ∈ decimalDigits f n tail, isWordChar c = true ∧ c ≠ 'x' := by
  have cons : ∀ (d : Nat) (t : List Char), d < 10 → (∀ c ∈ t, isWordChar c = true ∧ c ≠ 'x') →
      ∀ c ∈ Char.ofNat (48 + d) :: t, isWordChar c = true ∧ c ≠ 'x' := by
    intro d t hd ht c hc
    rcases List.mem_cons.mp hc with rfl | hc
    · exact (digit_spec ⟨d, hd⟩).2
    · exact ht c hc
  induction f generalizing n tail with
  | zero => exact h
  | succ f ih =>
    unfold decimalDigits
    split
    · next h10 => exact cons _ _ h10 h
    · exact ih _ _ (cons _ _ (Nat.mod_lt _ (by omega)) h)

theorem decimalDigits_ne_nil (f n : Nat) (tail : List Char) (h : tail ≠ [] ∨ f ≠ 0) :
    decimalDigits f n tail ≠ [] := by
  induction f generalizing n tail with
  | zero => exact h.resolve_right (by simp)
  | succ f ih =>
    unfold decimalDigits
    split
    · simp
    · exact ih _ _ (.inl (by simp))

/-- A printed number reads back. -/
theorem numeral_decimal {n : Nat} (h : n < 100000) : numeral (decimal n) = some n := by
  have h1 := digitsValue_decimalDigits 5 n [] (by simpa using h)
  have h2 := decimalDigits_chars 5 n [] (by simp)
  have h3 := decimalDigits_ne_nil 5 n [] (.inr (by simp))
  rw [show digitsValue 10 n [] = some n from rfl] at h1
  unfold decimal
  revert h1 h2 h3
  generalize decimalDigits 5 n [] = cs
  intro h1 h2 h3
  unfold numeral
  split
  · exact absurd rfl h3
  · exact absurd rfl (h2 'x' (by simp)).2
  · exact absurd rfl (h2 'x' (by simp)).2
  · exact h1

end Sys2Proof.Machine
end

