-- ==== Sys2Proof/Laws/State.lean ====
section
/-! SUPPORT. What each update does to each field of State, and to each register-file read of another file:
one lemma per field per update, all by rfl, so that no proof unfolds an update. -/

namespace Sys2Proof.Machine

variable (s : State)

/-! ### State.setS -/

@[simp] theorem State.setS_S (r : SReg) (x : Elem) : (s.setS r x).S = s.S.set r x := rfl
@[simp] theorem State.setS_K (r : SReg) (x : Elem) : (s.setS r x).K = s.K := rfl
@[simp] theorem State.setS_V (r : SReg) (x : Elem) : (s.setS r x).V = s.V := rfl
@[simp] theorem State.setS_M (r : SReg) (x : Elem) : (s.setS r x).M = s.M := rfl
@[simp] theorem State.setS_MLOCK (r : SReg) (x : Elem) : (s.setS r x).MLOCK = s.MLOCK := rfl
@[simp] theorem State.setS_FAULT (r : SReg) (x : Elem) : (s.setS r x).FAULT = s.FAULT := rfl
@[simp] theorem State.setS_CODE (r : SReg) (x : Elem) : (s.setS r x).CODE = s.CODE := rfl
@[simp] theorem State.setS_FOP (r : SReg) (x : Elem) : (s.setS r x).FOP = s.FOP := rfl
@[simp] theorem State.setS_SOL (r : SReg) (x : Elem) : (s.setS r x).SOL = s.SOL := rfl
@[simp] theorem State.setS_RSP (r : SReg) (x : Elem) : (s.setS r x).RSP = s.RSP := rfl
@[simp] theorem State.setS_slot (r : SReg) (x : Elem) : (s.setS r x).slot = s.slot := rfl
@[simp] theorem State.setS_inProgress (r : SReg) (x : Elem) : (s.setS r x).inProgress = s.inProgress := rfl
@[simp] theorem State.setS_afterReset (r : SReg) (x : Elem) : (s.setS r x).afterReset = s.afterReset := rfl
@[simp] theorem State.setS_edges (r : SReg) (x : Elem) : (s.setS r x).edges = s.edges := rfl
@[simp] theorem State.setS_getK (r : SReg) (x : Elem) (q : KReg) (a b : Idx) : (s.setS r x).getK q a b = s.getK q a b := rfl
@[simp] theorem State.setS_getDim (r : SReg) (x : Elem) (q : KReg) : (s.setS r x).getDim q = s.getDim q := rfl
@[simp] theorem State.setS_entries (r : SReg) (x : Elem) (q : KReg) : (s.setS r x).entries q = s.entries q := rfl
@[simp] theorem State.setS_getV (r : SReg) (x : Elem) (q : VReg) (a : Idx) : (s.setS r x).getV q a = s.getV q a := rfl
@[simp] theorem State.setS_vecAt (r : SReg) (x : Elem) (q : VReg) (a : Nat) : (s.setS r x).vecAt q a = s.vecAt q a := rfl
@[simp] theorem State.setS_vecEntries (r : SReg) (x : Elem) (q : VReg) : (s.setS r x).vecEntries q = s.vecEntries q := rfl

/-! ### State.setK -/

@[simp] theorem State.setK_S (k : KReg) (i j : Idx) (x : Elem) : (s.setK k i j x).S = s.S := rfl
@[simp] theorem State.setK_K (k : KReg) (i j : Idx) (x : Elem) : (s.setK k i j x).K = s.K.set k { s.K[k] with e := s.K[k].e.set i (s.K[k].e[i].set j x) } := rfl
@[simp] theorem State.setK_V (k : KReg) (i j : Idx) (x : Elem) : (s.setK k i j x).V = s.V := rfl
@[simp] theorem State.setK_M (k : KReg) (i j : Idx) (x : Elem) : (s.setK k i j x).M = s.M := rfl
@[simp] theorem State.setK_MLOCK (k : KReg) (i j : Idx) (x : Elem) : (s.setK k i j x).MLOCK = s.MLOCK := rfl
@[simp] theorem State.setK_FAULT (k : KReg) (i j : Idx) (x : Elem) : (s.setK k i j x).FAULT = s.FAULT := rfl
@[simp] theorem State.setK_CODE (k : KReg) (i j : Idx) (x : Elem) : (s.setK k i j x).CODE = s.CODE := rfl
@[simp] theorem State.setK_FOP (k : KReg) (i j : Idx) (x : Elem) : (s.setK k i j x).FOP = s.FOP := rfl
@[simp] theorem State.setK_SOL (k : KReg) (i j : Idx) (x : Elem) : (s.setK k i j x).SOL = s.SOL := rfl
@[simp] theorem State.setK_RSP (k : KReg) (i j : Idx) (x : Elem) : (s.setK k i j x).RSP = s.RSP := rfl
@[simp] theorem State.setK_slot (k : KReg) (i j : Idx) (x : Elem) : (s.setK k i j x).slot = s.slot := rfl
@[simp] theorem State.setK_inProgress (k : KReg) (i j : Idx) (x : Elem) : (s.setK k i j x).inProgress = s.inProgress := rfl
@[simp] theorem State.setK_afterReset (k : KReg) (i j : Idx) (x : Elem) : (s.setK k i j x).afterReset = s.afterReset := rfl
@[simp] theorem State.setK_edges (k : KReg) (i j : Idx) (x : Elem) : (s.setK k i j x).edges = s.edges := rfl
@[simp] theorem State.setK_getS (k : KReg) (i j : Idx) (x : Elem) (q : SReg) : (s.setK k i j x).getS q = s.getS q := rfl
@[simp] theorem State.setK_getV (k : KReg) (i j : Idx) (x : Elem) (q : VReg) (a : Idx) : (s.setK k i j x).getV q a = s.getV q a := rfl
@[simp] theorem State.setK_vecAt (k : KReg) (i j : Idx) (x : Elem) (q : VReg) (a : Nat) : (s.setK k i j x).vecAt q a = s.vecAt q a := rfl
@[simp] theorem State.setK_vecEntries (k : KReg) (i j : Idx) (x : Elem) (q : VReg) : (s.setK k i j x).vecEntries q = s.vecEntries q := rfl

/-! ### State.setDim -/

@[simp] theorem State.setDim_S (k : KReg) (n : BitVec 4) : (s.setDim k n).S = s.S := rfl
@[simp] theorem State.setDim_K (k : KReg) (n : BitVec 4) : (s.setDim k n).K = s.K.set k { s.K[k] with dim := n } := rfl
@[simp] theorem State.setDim_V (k : KReg) (n : BitVec 4) : (s.setDim k n).V = s.V := rfl
@[simp] theorem State.setDim_M (k : KReg) (n : BitVec 4) : (s.setDim k n).M = s.M := rfl
@[simp] theorem State.setDim_MLOCK (k : KReg) (n : BitVec 4) : (s.setDim k n).MLOCK = s.MLOCK := rfl
@[simp] theorem State.setDim_FAULT (k : KReg) (n : BitVec 4) : (s.setDim k n).FAULT = s.FAULT := rfl
@[simp] theorem State.setDim_CODE (k : KReg) (n : BitVec 4) : (s.setDim k n).CODE = s.CODE := rfl
@[simp] theorem State.setDim_FOP (k : KReg) (n : BitVec 4) : (s.setDim k n).FOP = s.FOP := rfl
@[simp] theorem State.setDim_SOL (k : KReg) (n : BitVec 4) : (s.setDim k n).SOL = s.SOL := rfl
@[simp] theorem State.setDim_RSP (k : KReg) (n : BitVec 4) : (s.setDim k n).RSP = s.RSP := rfl
@[simp] theorem State.setDim_slot (k : KReg) (n : BitVec 4) : (s.setDim k n).slot = s.slot := rfl
@[simp] theorem State.setDim_inProgress (k : KReg) (n : BitVec 4) : (s.setDim k n).inProgress = s.inProgress := rfl
@[simp] theorem State.setDim_afterReset (k : KReg) (n : BitVec 4) : (s.setDim k n).afterReset = s.afterReset := rfl
@[simp] theorem State.setDim_edges (k : KReg) (n : BitVec 4) : (s.setDim k n).edges = s.edges := rfl
@[simp] theorem State.setDim_getS (k : KReg) (n : BitVec 4) (q : SReg) : (s.setDim k n).getS q = s.getS q := rfl
@[simp] theorem State.setDim_getV (k : KReg) (n : BitVec 4) (q : VReg) (a : Idx) : (s.setDim k n).getV q a = s.getV q a := rfl
@[simp] theorem State.setDim_vecAt (k : KReg) (n : BitVec 4) (q : VReg) (a : Nat) : (s.setDim k n).vecAt q a = s.vecAt q a := rfl
@[simp] theorem State.setDim_vecEntries (k : KReg) (n : BitVec 4) (q : VReg) : (s.setDim k n).vecEntries q = s.vecEntries q := rfl

/-! ### State.setBlock -/

@[simp] theorem State.setBlock_S (k : KReg) (n : BitVec 4) (R : Nat → Nat → Elem) : (s.setBlock k n R).S = s.S := rfl
@[simp] theorem State.setBlock_K (k : KReg) (n : BitVec 4) (R : Nat → Nat → Elem) : (s.setBlock k n R).K = s.K.set k (s.K[k].withBlock n R) := rfl
@[simp] theorem State.setBlock_V (k : KReg) (n : BitVec 4) (R : Nat → Nat → Elem) : (s.setBlock k n R).V = s.V := rfl
@[simp] theorem State.setBlock_M (k : KReg) (n : BitVec 4) (R : Nat → Nat → Elem) : (s.setBlock k n R).M = s.M := rfl
@[simp] theorem State.setBlock_MLOCK (k : KReg) (n : BitVec 4) (R : Nat → Nat → Elem) : (s.setBlock k n R).MLOCK = s.MLOCK := rfl
@[simp] theorem State.setBlock_FAULT (k : KReg) (n : BitVec 4) (R : Nat → Nat → Elem) : (s.setBlock k n R).FAULT = s.FAULT := rfl
@[simp] theorem State.setBlock_CODE (k : KReg) (n : BitVec 4) (R : Nat → Nat → Elem) : (s.setBlock k n R).CODE = s.CODE := rfl
@[simp] theorem State.setBlock_FOP (k : KReg) (n : BitVec 4) (R : Nat → Nat → Elem) : (s.setBlock k n R).FOP = s.FOP := rfl
@[simp] theorem State.setBlock_SOL (k : KReg) (n : BitVec 4) (R : Nat → Nat → Elem) : (s.setBlock k n R).SOL = s.SOL := rfl
@[simp] theorem State.setBlock_RSP (k : KReg) (n : BitVec 4) (R : Nat → Nat → Elem) : (s.setBlock k n R).RSP = s.RSP := rfl
@[simp] theorem State.setBlock_slot (k : KReg) (n : BitVec 4) (R : Nat → Nat → Elem) : (s.setBlock k n R).slot = s.slot := rfl
@[simp] theorem State.setBlock_inProgress (k : KReg) (n : BitVec 4) (R : Nat → Nat → Elem) : (s.setBlock k n R).inProgress = s.inProgress := rfl
@[simp] theorem State.setBlock_afterReset (k : KReg) (n : BitVec 4) (R : Nat → Nat → Elem) : (s.setBlock k n R).afterReset = s.afterReset := rfl
@[simp] theorem State.setBlock_edges (k : KReg) (n : BitVec 4) (R : Nat → Nat → Elem) : (s.setBlock k n R).edges = s.edges := rfl
@[simp] theorem State.setBlock_getS (k : KReg) (n : BitVec 4) (R : Nat → Nat → Elem) (q : SReg) : (s.setBlock k n R).getS q = s.getS q := rfl
@[simp] theorem State.setBlock_getV (k : KReg) (n : BitVec 4) (R : Nat → Nat → Elem) (q : VReg) (a : Idx) : (s.setBlock k n R).getV q a = s.getV q a := rfl
@[simp] theorem State.setBlock_vecAt (k : KReg) (n : BitVec 4) (R : Nat → Nat → Elem) (q : VReg) (a : Nat) : (s.setBlock k n R).vecAt q a = s.vecAt q a := rfl
@[simp] theorem State.setBlock_vecEntries (k : KReg) (n : BitVec 4) (R : Nat → Nat → Elem) (q : VReg) : (s.setBlock k n R).vecEntries q = s.vecEntries q := rfl

/-! ### State.setV -/

@[simp] theorem State.setV_S (v : VReg) (i : Idx) (x : Elem) : (s.setV v i x).S = s.S := rfl
@[simp] theorem State.setV_K (v : VReg) (i : Idx) (x : Elem) : (s.setV v i x).K = s.K := rfl
@[simp] theorem State.setV_V (v : VReg) (i : Idx) (x : Elem) : (s.setV v i x).V = s.V.set v (s.V[v].set i x) := rfl
@[simp] theorem State.setV_M (v : VReg) (i : Idx) (x : Elem) : (s.setV v i x).M = s.M := rfl
@[simp] theorem State.setV_MLOCK (v : VReg) (i : Idx) (x : Elem) : (s.setV v i x).MLOCK = s.MLOCK := rfl
@[simp] theorem State.setV_FAULT (v : VReg) (i : Idx) (x : Elem) : (s.setV v i x).FAULT = s.FAULT := rfl
@[simp] theorem State.setV_CODE (v : VReg) (i : Idx) (x : Elem) : (s.setV v i x).CODE = s.CODE := rfl
@[simp] theorem State.setV_FOP (v : VReg) (i : Idx) (x : Elem) : (s.setV v i x).FOP = s.FOP := rfl
@[simp] theorem State.setV_SOL (v : VReg) (i : Idx) (x : Elem) : (s.setV v i x).SOL = s.SOL := rfl
@[simp] theorem State.setV_RSP (v : VReg) (i : Idx) (x : Elem) : (s.setV v i x).RSP = s.RSP := rfl
@[simp] theorem State.setV_slot (v : VReg) (i : Idx) (x : Elem) : (s.setV v i x).slot = s.slot := rfl
@[simp] theorem State.setV_inProgress (v : VReg) (i : Idx) (x : Elem) : (s.setV v i x).inProgress = s.inProgress := rfl
@[simp] theorem State.setV_afterReset (v : VReg) (i : Idx) (x : Elem) : (s.setV v i x).afterReset = s.afterReset := rfl
@[simp] theorem State.setV_edges (v : VReg) (i : Idx) (x : Elem) : (s.setV v i x).edges = s.edges := rfl
@[simp] theorem State.setV_getS (v : VReg) (i : Idx) (x : Elem) (q : SReg) : (s.setV v i x).getS q = s.getS q := rfl
@[simp] theorem State.setV_getK (v : VReg) (i : Idx) (x : Elem) (q : KReg) (a b : Idx) : (s.setV v i x).getK q a b = s.getK q a b := rfl
@[simp] theorem State.setV_getDim (v : VReg) (i : Idx) (x : Elem) (q : KReg) : (s.setV v i x).getDim q = s.getDim q := rfl
@[simp] theorem State.setV_entries (v : VReg) (i : Idx) (x : Elem) (q : KReg) : (s.setV v i x).entries q = s.entries q := rfl

/-! ### State.setVec -/

@[simp] theorem State.setVec_S (v : VReg) (n : Nat) (r : Nat → Elem) : (s.setVec v n r).S = s.S := rfl
@[simp] theorem State.setVec_K (v : VReg) (n : Nat) (r : Nat → Elem) : (s.setVec v n r).K = s.K := rfl
@[simp] theorem State.setVec_V (v : VReg) (n : Nat) (r : Nat → Elem) : (s.setVec v n r).V = s.V.set v (Vector.ofFn fun i => if i.val < n then r i else (s.V[v])[i]) := rfl
@[simp] theorem State.setVec_M (v : VReg) (n : Nat) (r : Nat → Elem) : (s.setVec v n r).M = s.M := rfl
@[simp] theorem State.setVec_MLOCK (v : VReg) (n : Nat) (r : Nat → Elem) : (s.setVec v n r).MLOCK = s.MLOCK := rfl
@[simp] theorem State.setVec_FAULT (v : VReg) (n : Nat) (r : Nat → Elem) : (s.setVec v n r).FAULT = s.FAULT := rfl
@[simp] theorem State.setVec_CODE (v : VReg) (n : Nat) (r : Nat → Elem) : (s.setVec v n r).CODE = s.CODE := rfl
@[simp] theorem State.setVec_FOP (v : VReg) (n : Nat) (r : Nat → Elem) : (s.setVec v n r).FOP = s.FOP := rfl
@[simp] theorem State.setVec_SOL (v : VReg) (n : Nat) (r : Nat → Elem) : (s.setVec v n r).SOL = s.SOL := rfl
@[simp] theorem State.setVec_RSP (v : VReg) (n : Nat) (r : Nat → Elem) : (s.setVec v n r).RSP = s.RSP := rfl
@[simp] theorem State.setVec_slot (v : VReg) (n : Nat) (r : Nat → Elem) : (s.setVec v n r).slot = s.slot := rfl
@[simp] theorem State.setVec_inProgress (v : VReg) (n : Nat) (r : Nat → Elem) : (s.setVec v n r).inProgress = s.inProgress := rfl
@[simp] theorem State.setVec_afterReset (v : VReg) (n : Nat) (r : Nat → Elem) : (s.setVec v n r).afterReset = s.afterReset := rfl
@[simp] theorem State.setVec_edges (v : VReg) (n : Nat) (r : Nat → Elem) : (s.setVec v n r).edges = s.edges := rfl
@[simp] theorem State.setVec_getS (v : VReg) (n : Nat) (r : Nat → Elem) (q : SReg) : (s.setVec v n r).getS q = s.getS q := rfl
@[simp] theorem State.setVec_getK (v : VReg) (n : Nat) (r : Nat → Elem) (q : KReg) (a b : Idx) : (s.setVec v n r).getK q a b = s.getK q a b := rfl
@[simp] theorem State.setVec_getDim (v : VReg) (n : Nat) (r : Nat → Elem) (q : KReg) : (s.setVec v n r).getDim q = s.getDim q := rfl
@[simp] theorem State.setVec_entries (v : VReg) (n : Nat) (r : Nat → Elem) (q : KReg) : (s.setVec v n r).entries q = s.entries q := rfl

/-! ### State.setModulus -/

@[simp] theorem State.setModulus_S (m : Elem) : (s.setModulus m).S = s.S := rfl
@[simp] theorem State.setModulus_K (m : Elem) : (s.setModulus m).K = s.K := rfl
@[simp] theorem State.setModulus_V (m : Elem) : (s.setModulus m).V = s.V := rfl
@[simp] theorem State.setModulus_M (m : Elem) : (s.setModulus m).M = m := rfl
@[simp] theorem State.setModulus_MLOCK (m : Elem) : (s.setModulus m).MLOCK = true := rfl
@[simp] theorem State.setModulus_FAULT (m : Elem) : (s.setModulus m).FAULT = s.FAULT := rfl
@[simp] theorem State.setModulus_CODE (m : Elem) : (s.setModulus m).CODE = s.CODE := rfl
@[simp] theorem State.setModulus_FOP (m : Elem) : (s.setModulus m).FOP = s.FOP := rfl
@[simp] theorem State.setModulus_SOL (m : Elem) : (s.setModulus m).SOL = s.SOL := rfl
@[simp] theorem State.setModulus_RSP (m : Elem) : (s.setModulus m).RSP = s.RSP := rfl
@[simp] theorem State.setModulus_slot (m : Elem) : (s.setModulus m).slot = s.slot := rfl
@[simp] theorem State.setModulus_inProgress (m : Elem) : (s.setModulus m).inProgress = s.inProgress := rfl
@[simp] theorem State.setModulus_afterReset (m : Elem) : (s.setModulus m).afterReset = s.afterReset := rfl
@[simp] theorem State.setModulus_edges (m : Elem) : (s.setModulus m).edges = s.edges := rfl
@[simp] theorem State.setModulus_getS (m : Elem) (q : SReg) : (s.setModulus m).getS q = s.getS q := rfl
@[simp] theorem State.setModulus_getK (m : Elem) (q : KReg) (a b : Idx) : (s.setModulus m).getK q a b = s.getK q a b := rfl
@[simp] theorem State.setModulus_getDim (m : Elem) (q : KReg) : (s.setModulus m).getDim q = s.getDim q := rfl
@[simp] theorem State.setModulus_entries (m : Elem) (q : KReg) : (s.setModulus m).entries q = s.entries q := rfl
@[simp] theorem State.setModulus_getV (m : Elem) (q : VReg) (a : Idx) : (s.setModulus m).getV q a = s.getV q a := rfl
@[simp] theorem State.setModulus_vecAt (m : Elem) (q : VReg) (a : Nat) : (s.setModulus m).vecAt q a = s.vecAt q a := rfl
@[simp] theorem State.setModulus_vecEntries (m : Elem) (q : VReg) : (s.setModulus m).vecEntries q = s.vecEntries q := rfl

/-! ### State.setSol -/

@[simp] theorem State.setSol_S (c : SolverCtx) : (s.setSol c).S = s.S := rfl
@[simp] theorem State.setSol_K (c : SolverCtx) : (s.setSol c).K = s.K := rfl
@[simp] theorem State.setSol_V (c : SolverCtx) : (s.setSol c).V = s.V := rfl
@[simp] theorem State.setSol_M (c : SolverCtx) : (s.setSol c).M = s.M := rfl
@[simp] theorem State.setSol_MLOCK (c : SolverCtx) : (s.setSol c).MLOCK = s.MLOCK := rfl
@[simp] theorem State.setSol_FAULT (c : SolverCtx) : (s.setSol c).FAULT = s.FAULT := rfl
@[simp] theorem State.setSol_CODE (c : SolverCtx) : (s.setSol c).CODE = s.CODE := rfl
@[simp] theorem State.setSol_FOP (c : SolverCtx) : (s.setSol c).FOP = s.FOP := rfl
@[simp] theorem State.setSol_SOL (c : SolverCtx) : (s.setSol c).SOL = c := rfl
@[simp] theorem State.setSol_RSP (c : SolverCtx) : (s.setSol c).RSP = s.RSP := rfl
@[simp] theorem State.setSol_slot (c : SolverCtx) : (s.setSol c).slot = s.slot := rfl
@[simp] theorem State.setSol_inProgress (c : SolverCtx) : (s.setSol c).inProgress = s.inProgress := rfl
@[simp] theorem State.setSol_afterReset (c : SolverCtx) : (s.setSol c).afterReset = s.afterReset := rfl
@[simp] theorem State.setSol_edges (c : SolverCtx) : (s.setSol c).edges = s.edges := rfl
@[simp] theorem State.setSol_getS (c : SolverCtx) (q : SReg) : (s.setSol c).getS q = s.getS q := rfl
@[simp] theorem State.setSol_getK (c : SolverCtx) (q : KReg) (a b : Idx) : (s.setSol c).getK q a b = s.getK q a b := rfl
@[simp] theorem State.setSol_getDim (c : SolverCtx) (q : KReg) : (s.setSol c).getDim q = s.getDim q := rfl
@[simp] theorem State.setSol_entries (c : SolverCtx) (q : KReg) : (s.setSol c).entries q = s.entries q := rfl
@[simp] theorem State.setSol_getV (c : SolverCtx) (q : VReg) (a : Idx) : (s.setSol c).getV q a = s.getV q a := rfl
@[simp] theorem State.setSol_vecAt (c : SolverCtx) (q : VReg) (a : Nat) : (s.setSol c).vecAt q a = s.vecAt q a := rfl
@[simp] theorem State.setSol_vecEntries (c : SolverCtx) (q : VReg) : (s.setSol c).vecEntries q = s.vecEntries q := rfl

/-! ### State.respond -/

@[simp] theorem State.respond_S (v : Word) : (s.respond v).S = s.S := rfl
@[simp] theorem State.respond_K (v : Word) : (s.respond v).K = s.K := rfl
@[simp] theorem State.respond_V (v : Word) : (s.respond v).V = s.V := rfl
@[simp] theorem State.respond_M (v : Word) : (s.respond v).M = s.M := rfl
@[simp] theorem State.respond_MLOCK (v : Word) : (s.respond v).MLOCK = s.MLOCK := rfl
@[simp] theorem State.respond_FAULT (v : Word) : (s.respond v).FAULT = s.FAULT := rfl
@[simp] theorem State.respond_CODE (v : Word) : (s.respond v).CODE = s.CODE := rfl
@[simp] theorem State.respond_FOP (v : Word) : (s.respond v).FOP = s.FOP := rfl
@[simp] theorem State.respond_SOL (v : Word) : (s.respond v).SOL = s.SOL := rfl
@[simp] theorem State.respond_RSP (v : Word) : (s.respond v).RSP = s.RSP ++ [v] := rfl
@[simp] theorem State.respond_slot (v : Word) : (s.respond v).slot = some v := rfl
@[simp] theorem State.respond_inProgress (v : Word) : (s.respond v).inProgress = s.inProgress := rfl
@[simp] theorem State.respond_afterReset (v : Word) : (s.respond v).afterReset = s.afterReset := rfl
@[simp] theorem State.respond_edges (v : Word) : (s.respond v).edges = s.edges := rfl
@[simp] theorem State.respond_getS (v : Word) (q : SReg) : (s.respond v).getS q = s.getS q := rfl
@[simp] theorem State.respond_getK (v : Word) (q : KReg) (a b : Idx) : (s.respond v).getK q a b = s.getK q a b := rfl
@[simp] theorem State.respond_getDim (v : Word) (q : KReg) : (s.respond v).getDim q = s.getDim q := rfl
@[simp] theorem State.respond_entries (v : Word) (q : KReg) : (s.respond v).entries q = s.entries q := rfl
@[simp] theorem State.respond_getV (v : Word) (q : VReg) (a : Idx) : (s.respond v).getV q a = s.getV q a := rfl
@[simp] theorem State.respond_vecAt (v : Word) (q : VReg) (a : Nat) : (s.respond v).vecAt q a = s.vecAt q a := rfl
@[simp] theorem State.respond_vecEntries (v : Word) (q : VReg) : (s.respond v).vecEntries q = s.vecEntries q := rfl

/-! ### State.raise -/

@[simp] theorem State.raise_S (op : BitVec 8) (c : Cause) : (s.raise op c).S = s.S := rfl
@[simp] theorem State.raise_K (op : BitVec 8) (c : Cause) : (s.raise op c).K = s.K := rfl
@[simp] theorem State.raise_V (op : BitVec 8) (c : Cause) : (s.raise op c).V = s.V := rfl
@[simp] theorem State.raise_M (op : BitVec 8) (c : Cause) : (s.raise op c).M = s.M := rfl
@[simp] theorem State.raise_MLOCK (op : BitVec 8) (c : Cause) : (s.raise op c).MLOCK = s.MLOCK := rfl
@[simp] theorem State.raise_FAULT (op : BitVec 8) (c : Cause) : (s.raise op c).FAULT = true := rfl
@[simp] theorem State.raise_CODE (op : BitVec 8) (c : Cause) : (s.raise op c).CODE = c.code := rfl
@[simp] theorem State.raise_FOP (op : BitVec 8) (c : Cause) : (s.raise op c).FOP = op := rfl
@[simp] theorem State.raise_SOL (op : BitVec 8) (c : Cause) : (s.raise op c).SOL = s.SOL := rfl
@[simp] theorem State.raise_RSP (op : BitVec 8) (c : Cause) : (s.raise op c).RSP = s.RSP := rfl
@[simp] theorem State.raise_slot (op : BitVec 8) (c : Cause) : (s.raise op c).slot = s.slot := rfl
@[simp] theorem State.raise_inProgress (op : BitVec 8) (c : Cause) : (s.raise op c).inProgress = s.inProgress := rfl
@[simp] theorem State.raise_afterReset (op : BitVec 8) (c : Cause) : (s.raise op c).afterReset = s.afterReset := rfl
@[simp] theorem State.raise_edges (op : BitVec 8) (c : Cause) : (s.raise op c).edges = s.edges := rfl
@[simp] theorem State.raise_getS (op : BitVec 8) (c : Cause) (q : SReg) : (s.raise op c).getS q = s.getS q := rfl
@[simp] theorem State.raise_getK (op : BitVec 8) (c : Cause) (q : KReg) (a b : Idx) : (s.raise op c).getK q a b = s.getK q a b := rfl
@[simp] theorem State.raise_getDim (op : BitVec 8) (c : Cause) (q : KReg) : (s.raise op c).getDim q = s.getDim q := rfl
@[simp] theorem State.raise_entries (op : BitVec 8) (c : Cause) (q : KReg) : (s.raise op c).entries q = s.entries q := rfl
@[simp] theorem State.raise_getV (op : BitVec 8) (c : Cause) (q : VReg) (a : Idx) : (s.raise op c).getV q a = s.getV q a := rfl
@[simp] theorem State.raise_vecAt (op : BitVec 8) (c : Cause) (q : VReg) (a : Nat) : (s.raise op c).vecAt q a = s.vecAt q a := rfl
@[simp] theorem State.raise_vecEntries (op : BitVec 8) (c : Cause) (q : VReg) : (s.raise op c).vecEntries q = s.vecEntries q := rfl

/-! ### State.clearFault -/

@[simp] theorem State.clearFault_S : (s.clearFault).S = s.S := rfl
@[simp] theorem State.clearFault_K : (s.clearFault).K = s.K := rfl
@[simp] theorem State.clearFault_V : (s.clearFault).V = s.V := rfl
@[simp] theorem State.clearFault_M : (s.clearFault).M = s.M := rfl
@[simp] theorem State.clearFault_MLOCK : (s.clearFault).MLOCK = s.MLOCK := rfl
@[simp] theorem State.clearFault_FAULT : (s.clearFault).FAULT = false := rfl
@[simp] theorem State.clearFault_CODE : (s.clearFault).CODE = 0 := rfl
@[simp] theorem State.clearFault_FOP : (s.clearFault).FOP = 0 := rfl
@[simp] theorem State.clearFault_SOL : (s.clearFault).SOL = s.SOL := rfl
@[simp] theorem State.clearFault_RSP : (s.clearFault).RSP = s.RSP := rfl
@[simp] theorem State.clearFault_slot : (s.clearFault).slot = s.slot := rfl
@[simp] theorem State.clearFault_inProgress : (s.clearFault).inProgress = s.inProgress := rfl
@[simp] theorem State.clearFault_afterReset : (s.clearFault).afterReset = s.afterReset := rfl
@[simp] theorem State.clearFault_edges : (s.clearFault).edges = s.edges := rfl
@[simp] theorem State.clearFault_getS (q : SReg) : (s.clearFault).getS q = s.getS q := rfl
@[simp] theorem State.clearFault_getK (q : KReg) (a b : Idx) : (s.clearFault).getK q a b = s.getK q a b := rfl
@[simp] theorem State.clearFault_getDim (q : KReg) : (s.clearFault).getDim q = s.getDim q := rfl
@[simp] theorem State.clearFault_entries (q : KReg) : (s.clearFault).entries q = s.entries q := rfl
@[simp] theorem State.clearFault_getV (q : VReg) (a : Idx) : (s.clearFault).getV q a = s.getV q a := rfl
@[simp] theorem State.clearFault_vecAt (q : VReg) (a : Nat) : (s.clearFault).vecAt q a = s.vecAt q a := rfl
@[simp] theorem State.clearFault_vecEntries (q : VReg) : (s.clearFault).vecEntries q = s.vecEntries q := rfl

/-! ### State.lock -/

@[simp] theorem State.lock_S : (s.lock).S = s.S := rfl
@[simp] theorem State.lock_K : (s.lock).K = s.K := rfl
@[simp] theorem State.lock_V : (s.lock).V = s.V := rfl
@[simp] theorem State.lock_M : (s.lock).M = s.M := rfl
@[simp] theorem State.lock_MLOCK : (s.lock).MLOCK = true := rfl
@[simp] theorem State.lock_FAULT : (s.lock).FAULT = s.FAULT := rfl
@[simp] theorem State.lock_CODE : (s.lock).CODE = s.CODE := rfl
@[simp] theorem State.lock_FOP : (s.lock).FOP = s.FOP := rfl
@[simp] theorem State.lock_SOL : (s.lock).SOL = s.SOL := rfl
@[simp] theorem State.lock_RSP : (s.lock).RSP = s.RSP := rfl
@[simp] theorem State.lock_slot : (s.lock).slot = s.slot := rfl
@[simp] theorem State.lock_inProgress : (s.lock).inProgress = s.inProgress := rfl
@[simp] theorem State.lock_afterReset : (s.lock).afterReset = s.afterReset := rfl
@[simp] theorem State.lock_edges : (s.lock).edges = s.edges := rfl
@[simp] theorem State.lock_getS (q : SReg) : (s.lock).getS q = s.getS q := rfl
@[simp] theorem State.lock_getK (q : KReg) (a b : Idx) : (s.lock).getK q a b = s.getK q a b := rfl
@[simp] theorem State.lock_getDim (q : KReg) : (s.lock).getDim q = s.getDim q := rfl
@[simp] theorem State.lock_entries (q : KReg) : (s.lock).entries q = s.entries q := rfl
@[simp] theorem State.lock_getV (q : VReg) (a : Idx) : (s.lock).getV q a = s.getV q a := rfl
@[simp] theorem State.lock_vecAt (q : VReg) (a : Nat) : (s.lock).vecAt q a = s.vecAt q a := rfl
@[simp] theorem State.lock_vecEntries (q : VReg) : (s.lock).vecEntries q = s.vecEntries q := rfl

/-! ### State.sampled -/

@[simp] theorem State.sampled_S (e : ClockEdge) : (s.sampled e).S = s.S := rfl
@[simp] theorem State.sampled_K (e : ClockEdge) : (s.sampled e).K = s.K := rfl
@[simp] theorem State.sampled_V (e : ClockEdge) : (s.sampled e).V = s.V := rfl
@[simp] theorem State.sampled_M (e : ClockEdge) : (s.sampled e).M = s.M := rfl
@[simp] theorem State.sampled_MLOCK (e : ClockEdge) : (s.sampled e).MLOCK = s.MLOCK := rfl
@[simp] theorem State.sampled_FAULT (e : ClockEdge) : (s.sampled e).FAULT = s.FAULT := rfl
@[simp] theorem State.sampled_CODE (e : ClockEdge) : (s.sampled e).CODE = s.CODE := rfl
@[simp] theorem State.sampled_FOP (e : ClockEdge) : (s.sampled e).FOP = s.FOP := rfl
@[simp] theorem State.sampled_SOL (e : ClockEdge) : (s.sampled e).SOL = s.SOL := rfl
@[simp] theorem State.sampled_RSP (e : ClockEdge) : (s.sampled e).RSP = s.RSP := rfl
@[simp] theorem State.sampled_slot (e : ClockEdge) : (s.sampled e).slot = if e.rspReady then none else s.slot := rfl
@[simp] theorem State.sampled_inProgress (e : ClockEdge) : (s.sampled e).inProgress = s.inProgress := rfl
@[simp] theorem State.sampled_afterReset (e : ClockEdge) : (s.sampled e).afterReset = false := rfl
@[simp] theorem State.sampled_edges (e : ClockEdge) : (s.sampled e).edges = s.edges.tail := rfl
@[simp] theorem State.sampled_getS (e : ClockEdge) (q : SReg) : (s.sampled e).getS q = s.getS q := rfl
@[simp] theorem State.sampled_getK (e : ClockEdge) (q : KReg) (a b : Idx) : (s.sampled e).getK q a b = s.getK q a b := rfl
@[simp] theorem State.sampled_getDim (e : ClockEdge) (q : KReg) : (s.sampled e).getDim q = s.getDim q := rfl
@[simp] theorem State.sampled_entries (e : ClockEdge) (q : KReg) : (s.sampled e).entries q = s.entries q := rfl
@[simp] theorem State.sampled_getV (e : ClockEdge) (q : VReg) (a : Idx) : (s.sampled e).getV q a = s.getV q a := rfl
@[simp] theorem State.sampled_vecAt (e : ClockEdge) (q : VReg) (a : Nat) : (s.sampled e).vecAt q a = s.vecAt q a := rfl
@[simp] theorem State.sampled_vecEntries (e : ClockEdge) (q : VReg) : (s.sampled e).vecEntries q = s.vecEntries q := rfl

/-! ### State.acceptWord -/

@[simp] theorem State.acceptWord_S (w : Word) : (s.acceptWord w).S = s.S := rfl
@[simp] theorem State.acceptWord_K (w : Word) : (s.acceptWord w).K = s.K := rfl
@[simp] theorem State.acceptWord_V (w : Word) : (s.acceptWord w).V = s.V := rfl
@[simp] theorem State.acceptWord_M (w : Word) : (s.acceptWord w).M = s.M := rfl
@[simp] theorem State.acceptWord_MLOCK (w : Word) : (s.acceptWord w).MLOCK = s.MLOCK := rfl
@[simp] theorem State.acceptWord_FAULT (w : Word) : (s.acceptWord w).FAULT = s.FAULT := rfl
@[simp] theorem State.acceptWord_CODE (w : Word) : (s.acceptWord w).CODE = s.CODE := rfl
@[simp] theorem State.acceptWord_FOP (w : Word) : (s.acceptWord w).FOP = s.FOP := rfl
@[simp] theorem State.acceptWord_SOL (w : Word) : (s.acceptWord w).SOL = s.SOL := rfl
@[simp] theorem State.acceptWord_RSP (w : Word) : (s.acceptWord w).RSP = s.RSP := rfl
@[simp] theorem State.acceptWord_slot (w : Word) : (s.acceptWord w).slot = s.slot := rfl
@[simp] theorem State.acceptWord_inProgress (w : Word) : (s.acceptWord w).inProgress = some w := rfl
@[simp] theorem State.acceptWord_afterReset (w : Word) : (s.acceptWord w).afterReset = s.afterReset := rfl
@[simp] theorem State.acceptWord_edges (w : Word) : (s.acceptWord w).edges = s.edges := rfl
@[simp] theorem State.acceptWord_getS (w : Word) (q : SReg) : (s.acceptWord w).getS q = s.getS q := rfl
@[simp] theorem State.acceptWord_getK (w : Word) (q : KReg) (a b : Idx) : (s.acceptWord w).getK q a b = s.getK q a b := rfl
@[simp] theorem State.acceptWord_getDim (w : Word) (q : KReg) : (s.acceptWord w).getDim q = s.getDim q := rfl
@[simp] theorem State.acceptWord_entries (w : Word) (q : KReg) : (s.acceptWord w).entries q = s.entries q := rfl
@[simp] theorem State.acceptWord_getV (w : Word) (q : VReg) (a : Idx) : (s.acceptWord w).getV q a = s.getV q a := rfl
@[simp] theorem State.acceptWord_vecAt (w : Word) (q : VReg) (a : Nat) : (s.acceptWord w).vecAt q a = s.vecAt q a := rfl
@[simp] theorem State.acceptWord_vecEntries (w : Word) (q : VReg) : (s.acceptWord w).vecEntries q = s.vecEntries q := rfl

/-! ### State.complete -/

@[simp] theorem State.complete_S : (s.complete).S = s.S := rfl
@[simp] theorem State.complete_K : (s.complete).K = s.K := rfl
@[simp] theorem State.complete_V : (s.complete).V = s.V := rfl
@[simp] theorem State.complete_M : (s.complete).M = s.M := rfl
@[simp] theorem State.complete_MLOCK : (s.complete).MLOCK = s.MLOCK := rfl
@[simp] theorem State.complete_FAULT : (s.complete).FAULT = s.FAULT := rfl
@[simp] theorem State.complete_CODE : (s.complete).CODE = s.CODE := rfl
@[simp] theorem State.complete_FOP : (s.complete).FOP = s.FOP := rfl
@[simp] theorem State.complete_SOL : (s.complete).SOL = s.SOL := rfl
@[simp] theorem State.complete_RSP : (s.complete).RSP = s.RSP := rfl
@[simp] theorem State.complete_slot : (s.complete).slot = s.slot := rfl
@[simp] theorem State.complete_inProgress : (s.complete).inProgress = none := rfl
@[simp] theorem State.complete_afterReset : (s.complete).afterReset = s.afterReset := rfl
@[simp] theorem State.complete_edges : (s.complete).edges = s.edges := rfl
@[simp] theorem State.complete_getS (q : SReg) : (s.complete).getS q = s.getS q := rfl
@[simp] theorem State.complete_getK (q : KReg) (a b : Idx) : (s.complete).getK q a b = s.getK q a b := rfl
@[simp] theorem State.complete_getDim (q : KReg) : (s.complete).getDim q = s.getDim q := rfl
@[simp] theorem State.complete_entries (q : KReg) : (s.complete).entries q = s.entries q := rfl
@[simp] theorem State.complete_getV (q : VReg) (a : Idx) : (s.complete).getV q a = s.getV q a := rfl
@[simp] theorem State.complete_vecAt (q : VReg) (a : Nat) : (s.complete).vecAt q a = s.vecAt q a := rfl
@[simp] theorem State.complete_vecEntries (q : VReg) : (s.complete).vecEntries q = s.vecEntries q := rfl

end Sys2Proof.Machine
end

