-- ==== Sys2Proof/Laws/Ops.lean ====
section
/-! SUPPORT. Read after write for the register files, and everything a command's frame can do. -/

namespace Sys2Proof.Machine

variable (s : State)

/-! ## Read after write -/

theorem getS_setS (r q : SReg) (x : Elem) : (s.setS r x).getS q = if q = r then x else s.getS q := by
  simp only [State.getS, State.setS, Fin.getElem_fin, Vector.getElem_set, Fin.ext_iff]
  split <;> split <;> first | rfl | omega

@[simp] theorem getS_setS_same (r : SReg) (x : Elem) : (s.setS r x).getS r = x := by simp [getS_setS]

theorem getDim_setDim (k q : KReg) (n : BitVec 4) :
    (s.setDim k n).getDim q = if q = k then n else s.getDim q := by
  simp only [State.getDim, State.setDim, Fin.getElem_fin, Vector.getElem_set, Fin.ext_iff]
  split <;> split <;> first | rfl | omega

theorem getDim_setBlock (k q : KReg) (n : BitVec 4) (R : Nat → Nat → Elem) :
    (s.setBlock k n R).getDim q = if q = k then n else s.getDim q := by
  simp only [State.getDim, State.setBlock, Fin.getElem_fin, Vector.getElem_set, Fin.ext_iff]
  split <;> split <;> first | rfl | omega

@[simp] theorem getDim_setK (k q : KReg) (i j : Idx) (x : Elem) :
    (s.setK k i j x).getDim q = s.getDim q := by
  simp only [State.getDim, State.setK, Fin.getElem_fin, Vector.getElem_set]
  split
  · next h => simp only [h]
  · rfl

theorem getK_setK (k q : KReg) (i j a b : Idx) (x : Elem) :
    (s.setK k i j x).getK q a b = if q = k ∧ a = i ∧ b = j then x else s.getK q a b := by
  simp only [State.getK, State.setK, Fin.getElem_fin, Vector.getElem_set, Fin.ext_iff]
  by_cases hk : (k : Nat) = q <;> by_cases hi : (i : Nat) = a <;> by_cases hj : (j : Nat) = b <;>
    simp [hk, hi, hj, eq_comm]

theorem getV_setV (v q : VReg) (i a : Idx) (x : Elem) :
    (s.setV v i x).getV q a = if q = v ∧ a = i then x else s.getV q a := by
  simp only [State.getV, State.setV, Fin.getElem_fin, Vector.getElem_set, Fin.ext_iff]
  by_cases hv : (v : Nat) = q <;> by_cases hi : (i : Nat) = a <;>
    simp [hv, hi, eq_comm]

/-- What each element of a rewritten vector register holds. -/
theorem getV_setVec (v q : VReg) (n : Nat) (r : Nat → Elem) (a : Idx) :
    (s.setVec v n r).getV q a = if q = v ∧ a.val < n then r a else s.getV q a := by
  simp only [State.getV, State.setVec, Fin.getElem_fin, Vector.getElem_set, Fin.ext_iff]
  by_cases hv : (v : Nat) = q <;> simp [hv, eq_comm]

/-- What each element of a rewritten matrix register holds. -/
theorem getK_setBlock (k q : KReg) (n : BitVec 4) (R : Nat → Nat → Elem) (a b : Idx) :
    (s.setBlock k n R).getK q a b =
      if q = k ∧ a.val < n.toNat ∧ b.val < n.toNat then R a b else s.getK q a b := by
  simp only [State.getK, State.setBlock, MatReg.withBlock, Fin.getElem_fin, Vector.getElem_set, Fin.ext_iff]
  by_cases hk : (k : Nat) = q <;> simp [hk, eq_comm]

/-! ## Entries by number -/

theorem MatReg.entry_of_lt (k : MatReg) {i j : Nat} (hi : i < 8) (hj : j < 8) :
    k.entry i j = (k.e[i])[j] := by
  simp [MatReg.entry, hi, hj]

theorem entry_eq_getK (k : KReg) (i j : Idx) : s.K[k].entry i j = s.getK k i j := by
  simp [MatReg.entry, State.getK]

theorem vecAt_eq_getV (v : VReg) (i : Idx) : s.vecAt v i = s.getV v i := by
  simp [State.vecAt, State.getV]

theorem MatReg.entry_withBlock (k : MatReg) (n : BitVec 4) (R : Nat → Nat → Elem) {i j : Nat}
    (hi : i < 8) (hj : j < 8) :
    (k.withBlock n R).entry i j = if i < n.toNat ∧ j < n.toNat then R i j else k.entry i j := by
  simp [MatReg.entry, MatReg.withBlock, hi, hj]

/-- The entries of a rewritten matrix register. -/
theorem entry_setBlock (k q : KReg) (n : BitVec 4) (R : Nat → Nat → Elem) {i j : Nat} (hi : i < 8)
    (hj : j < 8) : (s.setBlock k n R).K[q].entry i j =
      if q = k ∧ i < n.toNat ∧ j < n.toNat then R i j else s.K[q].entry i j := by
  have h1 := entry_eq_getK (s.setBlock k n R) q ⟨i, hi⟩ ⟨j, hj⟩
  have h2 := entry_eq_getK s q ⟨i, hi⟩ ⟨j, hj⟩
  simp only at h1 h2
  rw [h1, h2, getK_setBlock]

/-- The elements of a rewritten vector register. -/
theorem vecAt_setVec (v q : VReg) (n : Nat) (r : Nat → Elem) {i : Nat} (hi : i < 8) :
    (s.setVec v n r).vecAt q i = if q = v ∧ i < n then r i else s.vecAt q i := by
  have h1 := vecAt_eq_getV (s.setVec v n r) q ⟨i, hi⟩
  have h2 := vecAt_eq_getV s q ⟨i, hi⟩
  simp only at h1 h2
  rw [h1, h2, getV_setVec]

/-- The entries of a matrix register with one element rewritten. -/
theorem entry_setK (k q : KReg) (a b : Idx) (x : Elem) {i j : Nat} (h : ¬ (i = a ∧ j = b)) :
    (s.setK k a b x).K[q].entry i j = s.K[q].entry i j := by
  by_cases hb : i < 8 ∧ j < 8
  · have h1 := entry_eq_getK (s.setK k a b x) q ⟨i, hb.1⟩ ⟨j, hb.2⟩
    have h2 := entry_eq_getK s q ⟨i, hb.1⟩ ⟨j, hb.2⟩
    simp only at h1 h2
    rw [h1, h2, getK_setK, if_neg]
    rintro ⟨-, h3, h4⟩
    exact h ⟨congrArg Fin.val h3, congrArg Fin.val h4⟩
  · simp [MatReg.entry, hb]

/-! ## Register files are equal when every read of them is -/

variable {s} in
theorem S_eq_of_reads {t : State} (h : ∀ r, s.getS r = t.getS r) : s.S = t.S :=
  Vector.ext fun i hi => h ⟨i, hi⟩

variable {s} in
theorem V_eq_of_reads {t : State} (h : ∀ v i, s.getV v i = t.getV v i) : s.V = t.V :=
  Vector.ext fun i hi => Vector.ext fun j hj => h ⟨i, hi⟩ ⟨j, hj⟩

theorem MatReg.eq_of_fields {k q : MatReg} (hd : k.dim = q.dim) (he : k.e = q.e) : k = q := by
  cases k; cases q; cases hd; cases he; rfl

variable {s} in
theorem K_eq_of_reads {t : State} (hd : ∀ k, s.getDim k = t.getDim k)
    (he : ∀ k i j, s.getK k i j = t.getK k i j) : s.K = t.K :=
  Vector.ext fun i hi => MatReg.eq_of_fields (hd ⟨i, hi⟩)
    (Vector.ext fun j hj => Vector.ext fun l hl => he ⟨i, hi⟩ ⟨j, hj⟩ ⟨l, hl⟩)

/-! ## The frame of a command -/

variable (op : BitVec 8) (body : State → Result)

theorem runCommand_squashed (h : s.FAULT = true) : runCommand op body s = s := by simp [runCommand, h]

theorem runCommand_ok {t : State} (h : s.FAULT = false) (hb : body s = .ok t) :
    runCommand op body s = t := by simp [runCommand, h, hb]

theorem runCommand_error {c : Cause} (h : s.FAULT = false) (hb : body s = .error c) :
    runCommand op body s = s.raise op c := by simp [runCommand, h, hb]

/-- Everything a command that is no ring command can do: nothing, all its writes, or fault entry. -/
theorem runCommand_cases :
    (s.FAULT = true ∧ runCommand op body s = s) ∨
    (s.FAULT = false ∧ ∃ t, body s = .ok t ∧ runCommand op body s = t) ∨
    (s.FAULT = false ∧ ∃ c, body s = .error c ∧ runCommand op body s = s.raise op c) := by
  unfold runCommand
  cases hF : s.FAULT
  · cases hb : body s <;> simp
  · simp

theorem runRing_squashed (h : s.FAULT = true) : runRing op body s = s := by simp [runRing, h]

theorem runRing_ok {t : State} (h : s.FAULT = false) (hb : body s = .ok t) :
    runRing op body s = t.lock := by simp [runRing, h, hb]

theorem runRing_error {c : Cause} (h : s.FAULT = false) (hb : body s = .error c) :
    runRing op body s = (s.raise op c).lock := by simp [runRing, h, hb]

/-- Everything a ring command can do: nothing, all its writes and the lock, or fault entry and the lock. -/
theorem runRing_cases :
    (s.FAULT = true ∧ runRing op body s = s) ∨
    (s.FAULT = false ∧ ∃ t, body s = .ok t ∧ runRing op body s = t.lock) ∨
    (s.FAULT = false ∧ ∃ c, body s = .error c ∧ runRing op body s = (s.raise op c).lock) := by
  unfold runRing
  cases hF : s.FAULT
  · cases hb : body s <;> simp
  · simp

/-- Everything an illegal word can do (R152, R155). -/
theorem illegalWord_cases :
    (s.FAULT = true ∧ illegalWord op s = s) ∨
    (s.FAULT = false ∧ illegalWord op s = s.raise op .illegal) := by
  unfold illegalWord
  cases hF : s.FAULT <;> simp

end Sys2Proof.Machine
end

