-- ==== Sys2Proof/Laws/Operands.lean ====
section
/-! SUPPORT. When the operand checks of a ring command pass and what they answer. -/

namespace Sys2Proof.Machine

variable (s : State)

theorem isRing_iff (x : Elem) : s.isRing x = true ↔ x.toNat < s.M.toNat := by simp [State.isRing]

theorem requireRing_ok (xs : List Elem) (h : ∀ x ∈ xs, x.toNat < s.M.toNat) :
    requireRing s xs = .ok () := by
  rw [requireRing, if_pos]
  simpa [State.isRing] using h

theorem requireRing_error (xs : List Elem) (h : ¬ ∀ x ∈ xs, x.toNat < s.M.toNat) :
    requireRing s xs = .error .range := by
  rw [requireRing, if_neg]
  simpa [State.isRing] using h

/-- Everything `require_ring` can do (R153). -/
theorem requireRing_cases (xs : List Elem) :
    ((∀ x ∈ xs, x.toNat < s.M.toNat) ∧ requireRing s xs = .ok ()) ∨
    ((¬ ∀ x ∈ xs, x.toNat < s.M.toNat) ∧ requireRing s xs = .error .range) := by
  by_cases h : ∀ x ∈ xs, x.toNat < s.M.toNat
  · exact .inl ⟨h, requireRing_ok s xs h⟩
  · exact .inr ⟨h, requireRing_error s xs h⟩

/-- The leading block's elements are ring elements exactly when each entry is. -/
theorem block_ring_iff (k : KReg) :
    (∀ x ∈ s.K[k].block (s.getDim k).toNat, x.toNat < s.M.toNat) ↔ s.blockRing k := by
  simp only [MatReg.block, State.blockRing, List.mem_flatMap, List.mem_map, List.mem_range]
  constructor
  · intro h i hi j hj
    exact h _ ⟨i, hi, j, hj, rfl⟩
  · rintro h x ⟨i, hi, j, hj, rfl⟩
    exact h i hi j hj

theorem vecBlock_ring_iff (v : VReg) (n : Nat) :
    (∀ x ∈ s.vecBlock v n, x.toNat < s.M.toNat) ↔ s.vecRing v n := by
  simp [State.vecBlock, State.vecRing]

/-- Everything `read_matrix` can do: CFG, then RANGE, then the dimension (R130). -/
theorem readMatrix_cases (k : KReg) :
    (s.getDim k = 0 ∧ readMatrix s k = .error .cfg) ∨
    (s.getDim k ≠ 0 ∧ ¬ s.blockRing k ∧ readMatrix s k = .error .range) ∨
    (s.getDim k ≠ 0 ∧ s.blockRing k ∧ readMatrix s k = .ok (s.getDim k).toNat) := by
  by_cases hd : s.getDim k = 0
  · exact .inl ⟨hd, by simp [readMatrix, requireDim, hd]; rfl⟩
  · by_cases hb : s.blockRing k
    · refine .inr (.inr ⟨hd, hb, ?_⟩)
      simp only [readMatrix, requireDim, hd, if_false]
      have := requireRing_ok s _ ((block_ring_iff s k).mpr hb)
      simp only [bind, Except.bind, this]
      rfl
    · refine .inr (.inl ⟨hd, hb, ?_⟩)
      simp only [readMatrix, requireDim, hd, if_false]
      have := requireRing_error s _ (mt (block_ring_iff s k).mp hb)
      simp only [bind, Except.bind, this]

/-- Everything the operand check of VMUL and MVMUL can do: CFG, then RANGE, then the dimension (R120). -/
theorem readMatVec_cases (k : KReg) (v : VReg) :
    (s.getDim k = 0 ∧ readMatVec s k v = .error .cfg) ∨
    (s.getDim k ≠ 0 ∧ ¬ (s.blockRing k ∧ s.vecRing v (s.getDim k).toNat) ∧
      readMatVec s k v = .error .range) ∨
    (s.getDim k ≠ 0 ∧ s.blockRing k ∧ s.vecRing v (s.getDim k).toNat ∧
      readMatVec s k v = .ok (s.getDim k).toNat) := by
  by_cases hd : s.getDim k = 0
  · exact .inl ⟨hd, by simp [readMatVec, requireDim, hd]; rfl⟩
  · have hall : (∀ x ∈ s.K[k].block (s.getDim k).toNat ++ s.vecBlock v (s.getDim k).toNat,
        x.toNat < s.M.toNat) ↔ s.blockRing k ∧ s.vecRing v (s.getDim k).toNat := by
      rw [List.forall_mem_append, block_ring_iff, vecBlock_ring_iff]
    by_cases hb : s.blockRing k ∧ s.vecRing v (s.getDim k).toNat
    · refine .inr (.inr ⟨hd, hb.1, hb.2, ?_⟩)
      simp only [readMatVec, requireDim, hd, if_false]
      have := requireRing_ok s _ (hall.mpr hb)
      simp only [bind, Except.bind, this]
      rfl
    · refine .inr (.inl ⟨hd, hb, ?_⟩)
      simp only [readMatVec, requireDim, hd, if_false]
      have := requireRing_error s _ (mt hall.mp hb)
      simp only [bind, Except.bind, this]

/-- A stored element below 2^16 reads back. -/
theorem toElem_toNat {n : Nat} (h : n < 65536) : (toElem n).toNat = n := by
  simp only [toElem, BitVec.toNat_ofNat]
  exact Nat.mod_eq_of_lt h

/-- A residue mod `M` reads back: `M` is a 16-bit number. -/
theorem toElem_mod_toNat {n : Nat} (M : Elem) (h : n < M.toNat) : (toElem n).toNat = n :=
  toElem_toNat (lt_trans h M.isLt)

end Sys2Proof.Machine
end

