-- ==== Sys2Proof/Laws/Bodies.lean ====
section
/-! SUPPORT. Everything each command's pseudocode can answer: its faults in the order of priority
(spec/60_exceptions.md R157), each with its condition, and its writes otherwise. Proofs cite these and do not
unfold a body. -/

namespace Sys2Proof.Machine

theorem ok_bind {α β : Type} (a : α) (f : α → Except Cause β) : (Except.ok a >>= f) = f a := rfl

theorem error_bind {α β : Type} (c : Cause) (f : α → Except Cause β) :
    (Except.error c >>= f) = Except.error c := rfl

variable (s : State)

theorem setmBody_cases (imm : Elem) :
    (s.MLOCK = true ∧ setmBody imm s = .error .cfg) ∨
    (s.MLOCK = false ∧ imm = 0 ∧ setmBody imm s = .error .cfg) ∨
    (s.MLOCK = false ∧ imm ≠ 0 ∧ setmBody imm s = .ok (s.setModulus imm)) := by
  unfold setmBody
  cases s.MLOCK
  · by_cases h : imm = 0
    · exact .inr (.inl ⟨rfl, h, by simp [h]⟩)
    · exact .inr (.inr ⟨rfl, h, by rw [if_neg (by simp), if_neg h]⟩)
  · exact .inl ⟨rfl, rfl⟩

theorem mdimBody_cases (kd : KReg) (n : Elem) :
    ((n.toNat = 0 ∨ 8 < n.toNat) ∧ mdimBody kd n s = .error .cfg) ∨
    (1 ≤ n.toNat ∧ n.toNat ≤ 8 ∧ mdimBody kd n s = .ok (s.setDim kd (n.setWidth 4))) := by
  have hn : Config.nmax = 8 := rfl
  by_cases h : n.toNat = 0 ∨ 8 < n.toNat
  · exact .inl ⟨h, by rw [mdimBody, hn, if_pos h]⟩
  · exact .inr ⟨by omega, by omega, by rw [mdimBody, hn, if_neg h]⟩

theorem affBody_cases (sd sa sx sb : SReg) :
    let ring := (s.getS sa).toNat < s.M.toNat ∧ (s.getS sx).toNat < s.M.toNat ∧
      (s.getS sb).toNat < s.M.toNat
    (¬ ring ∧ affBody sd sa sx sb s = .error .range) ∨
    (ring ∧ affBody sd sa sx sb s = .ok (s.setS sd
      (toElem (((s.getS sa).toNat * (s.getS sx).toNat + (s.getS sb).toNat) % s.M.toNat)))) := by
  rcases requireRing_cases s [s.getS sa, s.getS sx, s.getS sb] with ⟨h, e⟩ | ⟨h, e⟩
  · exact .inr ⟨by simpa using h, by simp only [affBody, e, ok_bind]; rfl⟩
  · exact .inl ⟨by simpa using h, by simp only [affBody, e, error_bind]⟩

theorem affiBody_cases (sd sa sy sb : SReg) :
    let m := s.M.toNat
    let ring := (s.getS sa).toNat < m ∧ (s.getS sy).toNat < m ∧ (s.getS sb).toNat < m
    (¬ ring ∧ affiBody sd sa sy sb s = .error .range) ∨
    (ring ∧ Nat.gcd (s.getS sa).toNat m ≠ 1 ∧ affiBody sd sa sy sb s = .error .noninv) ∨
    (ring ∧ Nat.gcd (s.getS sa).toNat m = 1 ∧ affiBody sd sa sy sb s = .ok (s.setS sd
      (toElem ((modinv (s.getS sa).toNat m *
        residue (((s.getS sy).toNat : Int) - ((s.getS sb).toNat : Int)) m) % m)))) := by
  rcases requireRing_cases s [s.getS sa, s.getS sy, s.getS sb] with ⟨h, e⟩ | ⟨h, e⟩
  · by_cases hg : Nat.gcd (s.getS sa).toNat s.M.toNat = 1
    · exact .inr (.inr ⟨by simpa using h, hg, by simp only [affiBody, e, ok_bind, hg]; rfl⟩)
    · exact .inr (.inl ⟨by simpa using h, hg, by simp only [affiBody, e, ok_bind]; exact if_pos hg⟩)
  · exact .inl ⟨by simpa using h, by simp only [affiBody, e, error_bind]⟩

theorem invBody_cases (sd ss : SReg) :
    let m := s.M.toNat
    (¬ (s.getS ss).toNat < m ∧ invBody sd ss s = .error .range) ∨
    ((s.getS ss).toNat < m ∧ Nat.gcd (s.getS ss).toNat m ≠ 1 ∧ invBody sd ss s = .error .noninv) ∨
    ((s.getS ss).toNat < m ∧ Nat.gcd (s.getS ss).toNat m = 1 ∧
      invBody sd ss s = .ok (s.setS sd (toElem (modinv (s.getS ss).toNat m)))) := by
  rcases requireRing_cases s [s.getS ss] with ⟨h, e⟩ | ⟨h, e⟩
  · by_cases hg : Nat.gcd (s.getS ss).toNat s.M.toNat = 1
    · exact .inr (.inr ⟨by simpa using h, hg, by simp only [invBody, e, ok_bind, hg]; rfl⟩)
    · exact .inr (.inl ⟨by simpa using h, hg, by simp only [invBody, e, ok_bind]; exact if_pos hg⟩)
  · exact .inl ⟨by simpa using h, by simp only [invBody, e, error_bind]⟩

theorem gcdBody_cases (sd ss : SReg) :
    (¬ (s.getS ss).toNat < s.M.toNat ∧ gcdBody sd ss s = .error .range) ∨
    ((s.getS ss).toNat < s.M.toNat ∧
      gcdBody sd ss s = .ok (s.setS sd (toElem (Nat.gcd (s.getS ss).toNat s.M.toNat)))) := by
  rcases requireRing_cases s [s.getS ss] with ⟨h, e⟩ | ⟨h, e⟩
  · exact .inr ⟨by simpa using h, by simp only [gcdBody, e, ok_bind]; rfl⟩
  · exact .inl ⟨by simpa using h, by simp only [gcdBody, e, error_bind]⟩

theorem solve2Body_cases (sd sx1 sy1 sx2 sy2 : SReg) :
    let m := s.M.toNat
    let ring := (s.getS sx1).toNat < m ∧ (s.getS sy1).toNat < m ∧ (s.getS sx2).toNat < m ∧
      (s.getS sy2).toNat < m
    let c := solve (s.getS sx1) (s.getS sy1) (s.getS sx2) (s.getS sy2) m
    (¬ ring ∧ solve2Body sd sx1 sy1 sx2 sy2 s = .error .range) ∨
    (ring ∧ solve2Body sd sx1 sy1 sx2 sy2 s = .ok ((s.setSol c).setS sd c.G)) := by
  rcases requireRing_cases s [s.getS sx1, s.getS sy1, s.getS sx2, s.getS sy2] with ⟨h, e⟩ | ⟨h, e⟩
  · exact .inr ⟨by simpa using h, by simp only [solve2Body, e, ok_bind]; rfl⟩
  · exact .inl ⟨by simpa using h, by simp only [solve2Body, e, error_bind]⟩

/-- The solver context in its two cases (R104). -/
theorem solve_cases (x1 y1 x2 y2 : Elem) (m : Nat) :
    let dx := residue ((x2.toNat : Int) - (x1.toNat : Int)) m
    let dy := residue ((y2.toNat : Int) - (y1.toNat : Int)) m
    let g := Nat.gcd dx m
    (¬ g ∣ dy ∧ solve x1 y1 x2 y2 m = ⟨0, 0, 0, x1, y1⟩) ∨
    (g ∣ dy ∧ solve x1 y1 x2 y2 m =
      ⟨toElem g, toElem ((dy / g * modinv (dx / g) (m / g)) % (m / g)), toElem (m / g), x1, y1⟩) := by
  intro dx dy g
  by_cases h : g ∣ dy
  · exact .inr ⟨h, if_neg (not_not.mpr (Nat.mod_eq_zero_of_dvd h))⟩
  · exact .inl ⟨h, if_pos (mt Nat.dvd_of_mod_eq_zero h)⟩

theorem solkBody_cases (sda sdb sk : SReg) :
    let k := (s.getS sk).toNat
    (s.SOL.G.toNat ≤ k ∧ solkBody sda sdb sk s = .error .range) ∨
    (k < s.SOL.G.toNat ∧ solkBody sda sdb sk s =
      .ok ((s.setS sda (toElem (s.SOL.coeff s.M.toNat k))).setS sdb
        (toElem (s.SOL.offset s.M.toNat k)))) := by
  intro k
  by_cases h : s.SOL.G.toNat ≤ k
  · exact .inl ⟨h, if_pos h⟩
  · exact .inr ⟨by omega, if_neg h⟩

theorem vmulBody_cases (vd vs : VReg) (ks : KReg) :
    let n := (s.getDim ks).toNat
    (s.getDim ks = 0 ∧ vmulBody vd vs ks s = .error .cfg) ∨
    (s.getDim ks ≠ 0 ∧ ¬ (s.blockRing ks ∧ s.vecRing vs n) ∧ vmulBody vd vs ks s = .error .range) ∨
    (s.getDim ks ≠ 0 ∧ s.blockRing ks ∧ s.vecRing vs n ∧ vmulBody vd vs ks s = .ok (s.setVec vd n fun j =>
      toElem (rowTimes n (s.vecEntries vs) (s.entries ks) s.M.toNat j))) := by
  rcases readMatVec_cases s ks vs with ⟨h, e⟩ | ⟨h, hr, e⟩ | ⟨h, hb, hv, e⟩
  · exact .inl ⟨h, by simp only [vmulBody, e, error_bind]⟩
  · exact .inr (.inl ⟨h, hr, by simp only [vmulBody, e, error_bind]⟩)
  · exact .inr (.inr ⟨h, hb, hv, by simp only [vmulBody, e, ok_bind]; rfl⟩)

theorem mvmulBody_cases (vd vs : VReg) (ks : KReg) :
    let n := (s.getDim ks).toNat
    (s.getDim ks = 0 ∧ mvmulBody vd vs ks s = .error .cfg) ∨
    (s.getDim ks ≠ 0 ∧ ¬ (s.blockRing ks ∧ s.vecRing vs n) ∧ mvmulBody vd vs ks s = .error .range) ∨
    (s.getDim ks ≠ 0 ∧ s.blockRing ks ∧ s.vecRing vs n ∧ mvmulBody vd vs ks s = .ok (s.setVec vd n fun i =>
      toElem (timesCol n (s.entries ks) (s.vecEntries vs) s.M.toNat i))) := by
  rcases readMatVec_cases s ks vs with ⟨h, e⟩ | ⟨h, hr, e⟩ | ⟨h, hb, hv, e⟩
  · exact .inl ⟨h, by simp only [mvmulBody, e, error_bind]⟩
  · exact .inr (.inl ⟨h, hr, by simp only [mvmulBody, e, error_bind]⟩)
  · exact .inr (.inr ⟨h, hb, hv, by simp only [mvmulBody, e, ok_bind]; rfl⟩)

theorem detBody_cases (sd : SReg) (ks : KReg) :
    (s.getDim ks = 0 ∧ detBody sd ks s = .error .cfg) ∨
    (s.getDim ks ≠ 0 ∧ ¬ s.blockRing ks ∧ detBody sd ks s = .error .range) ∨
    (s.getDim ks ≠ 0 ∧ s.blockRing ks ∧
      detBody sd ks s = .ok (s.setS sd (toElem (s.detResidue ks (s.getDim ks).toNat)))) := by
  rcases readMatrix_cases s ks with ⟨h, e⟩ | ⟨h, hr, e⟩ | ⟨h, hb, e⟩
  · exact .inl ⟨h, by simp only [detBody, e, error_bind]⟩
  · exact .inr (.inl ⟨h, hr, by simp only [detBody, e, error_bind]⟩)
  · exact .inr (.inr ⟨h, hb, by simp only [detBody, e, ok_bind]; rfl⟩)

theorem adjBody_cases (kd ks : KReg) :
    let n := (s.getDim ks).toNat
    (s.getDim ks = 0 ∧ adjBody kd ks s = .error .cfg) ∨
    (s.getDim ks ≠ 0 ∧ ¬ s.blockRing ks ∧ adjBody kd ks s = .error .range) ∨
    (s.getDim ks ≠ 0 ∧ s.blockRing ks ∧ adjBody kd ks s = .ok (s.setBlock kd (s.getDim ks) fun i j =>
      toElem (adjugate n (s.entries ks) s.M.toNat i j))) := by
  rcases readMatrix_cases s ks with ⟨h, e⟩ | ⟨h, hr, e⟩ | ⟨h, hb, e⟩
  · exact .inl ⟨h, by simp only [adjBody, e, error_bind]⟩
  · exact .inr (.inl ⟨h, hr, by simp only [adjBody, e, error_bind]⟩)
  · exact .inr (.inr ⟨h, hb, by simp only [adjBody, e, ok_bind]; rfl⟩)

theorem matinvBody_cases (kd ks : KReg) :
    let m := s.M.toNat
    let n := (s.getDim ks).toNat
    let d := s.detResidue ks n
    (s.getDim ks = 0 ∧ matinvBody kd ks s = .error .cfg) ∨
    (s.getDim ks ≠ 0 ∧ ¬ s.blockRing ks ∧ matinvBody kd ks s = .error .range) ∨
    (s.getDim ks ≠ 0 ∧ s.blockRing ks ∧ Nat.gcd d m ≠ 1 ∧ matinvBody kd ks s = .error .singular) ∨
    (s.getDim ks ≠ 0 ∧ s.blockRing ks ∧ Nat.gcd d m = 1 ∧
      matinvBody kd ks s = .ok (s.setBlock kd (s.getDim ks) fun i j =>
        toElem ((modinv d m * adjugate n (s.entries ks) m i j) % m))) := by
  rcases readMatrix_cases s ks with ⟨h, e⟩ | ⟨h, hr, e⟩ | ⟨h, hb, e⟩
  · exact .inl ⟨h, by simp only [matinvBody, e, error_bind]⟩
  · exact .inr (.inl ⟨h, hr, by simp only [matinvBody, e, error_bind]⟩)
  · by_cases hg : Nat.gcd (s.detResidue ks (s.getDim ks).toNat) s.M.toNat = 1
    · exact .inr (.inr (.inr ⟨h, hb, hg, by simp only [matinvBody, e, ok_bind, hg]; rfl⟩))
    · exact .inr (.inr (.inl ⟨h, hb, hg, by simp only [matinvBody, e, ok_bind]; exact if_pos hg⟩))

end Sys2Proof.Machine
end

