-- ==== Sys2Proof/Laws/Decode.lean ====
section
/-! SUPPORT. The opcode table's rows exclude one another (R71), so a word that a row accepts is decoded by that
row; the fields of a word that a format wrote. -/

namespace Sys2Proof

/-- No word is accepted by both of two rows: some bit that both masks select differs. -/
def OpRow.excludes (r q : OpRow) : Bool := r.mask &&& q.mask &&& (r.matchBits ^^^ q.matchBits) != 0

theorem opTable_excludes : opTable.Pairwise fun r q => r.excludes q = true := by decide

theorem OpRow.excludes_not_accepts {r q : OpRow} {w : Word} (h : r.excludes q = true)
    (hr : r.accepts w = true) : q.accepts w = false := by
  rw [Bool.eq_false_iff]
  intro hq
  simp only [OpRow.excludes, OpRow.accepts, beq_iff_eq, bne_iff_ne] at h hr hq
  apply h
  rw [← hr, ← hq]
  ext i hi
  simp only [BitVec.getElem_and, BitVec.getElem_xor]
  cases w[i] <;> cases r.mask[i] <;> cases q.mask[i] <;> simp

/-- The first row of a table of excluding rows that accepts a word is the row that accepts it. -/
theorem find_of_accepts {l : List OpRow} (hp : l.Pairwise fun r q => r.excludes q = true) {r : OpRow}
    {w : Word} (hm : r ∈ l) (hr : r.accepts w = true) : l.find? (·.accepts w) = some r := by
  induction l with
  | nil => cases hm
  | cons q l ih =>
    rw [List.pairwise_cons] at hp
    rcases List.mem_cons.mp hm with rfl | hm
    · simp [hr]
    · have hne : q.accepts w = false := by
        by_contra hq
        have := OpRow.excludes_not_accepts (hp.1 r hm) (by simpa using hq)
        rw [hr] at this
        cases this
      rw [List.find?_cons, hne]
      exact ih hp.2 hm

/-- A word that a row of the table accepts is decoded by that row (R68). -/
theorem decode_of_accepts {r : OpRow} {w : Word} (hm : r ∈ opTable) (hr : r.accepts w = true) :
    decode w = r.build w := by
  rw [decode, find_of_accepts opTable_excludes hm hr, Option.bind_some]

/-- Everything the decoder can answer: what the row that accepts the word builds (R71). -/
theorem decode_some {w : Word} {i : Instr} (h : decode w = some i) :
    ∃ r ∈ opTable, r.accepts w = true ∧ r.build w = some i := by
  rw [decode, Option.bind_eq_some_iff] at h
  obtain ⟨r, hf, hb⟩ := h
  exact ⟨r, List.mem_of_find?_eq_some hf, by simpa using List.find?_some hf, hb⟩

/-- A word that no row accepts is illegal (R69). -/
theorem decode_none_of_not_accepts {w : Word} (h : ∀ r ∈ opTable, r.accepts w = false) :
    decode w = none := by
  rw [decode, List.find?_eq_none.mpr (by simpa using h), Option.bind_none]

/-- A word is accepted by a row exactly when its selected bits are the row's (R68). -/
theorem OpRow.accepts_iff (r : OpRow) (w : Word) : r.accepts w = true ↔ w &&& r.mask = r.matchBits := by
  simp [OpRow.accepts]

/-! ## The fields of a word, as numbers -/

theorem opcodeOf_toNat (w : Word) : (opcodeOf w).toNat = w.toNat % 256 := by
  simp [opcodeOf, BitVec.extractLsb'_toNat]

theorem immOf_toNat (w : Word) : (immOf w).toNat = w.toNat / 65536 := by
  have := w.isLt
  simp [immOf, BitVec.extractLsb'_toNat, Nat.shiftRight_eq_div_pow]
  omega

theorem sregAt_val (w : Word) (lo : Nat) : (sregAt w lo).val = w.toNat / 2 ^ lo % 16 := by
  simp [sregAt, Nat.shiftRight_eq_div_pow]

theorem kregAt_val (w : Word) (lo : Nat) : (kregAt w lo).val = w.toNat / 2 ^ lo % 4 := by
  simp [kregAt, Nat.shiftRight_eq_div_pow]

theorem idxAt_val (w : Word) (lo : Nat) : (idxAt w lo).val = w.toNat / 2 ^ lo % 8 := by
  simp [idxAt, Nat.shiftRight_eq_div_pow]

/-! ## The word of a format, as a number -/

/-- Two fields side by side, as a number. -/
theorem append_toNat {v n : Nat} (x : BitVec v) (y : BitVec n) :
    (x ++ y).toNat = x.toNat * 2 ^ n + y.toNat := by
  rw [BitVec.toNat_append, ← Nat.shiftLeft_add_eq_or_of_lt y.isLt, Nat.shiftLeft_eq]

theorem formatZ_toNat (op : BitVec 8) : (formatZ op).toNat = op.toNat := by
  simp only [formatZ, append_toNat, BitVec.toNat_ofNat]
  omega

theorem formatU_toNat (imm : Elem) (op : BitVec 8) :
    (formatU imm op).toNat = imm.toNat * 65536 + op.toNat := by
  simp only [formatU, append_toNat, BitVec.toNat_ofNat]
  omega

theorem formatI_toNat (imm : Elem) (sd : SReg) (op : BitVec 8) :
    (formatI imm sd op).toNat = imm.toNat * 65536 + sd.val * 256 + op.toNat := by
  simp only [formatI, append_toNat, BitVec.toNat_ofNat, BitVec.toNat_ofFin]
  omega

theorem formatS_toNat (f5 f4 f3 f2 f1 : SReg) (op : BitVec 8) :
    (formatS f5 f4 f3 f2 f1 op).toNat = f5.val * 16777216 + f4.val * 1048576 + f3.val * 65536 +
      f2.val * 4096 + f1.val * 256 + op.toNat := by
  simp only [formatS, append_toNat, BitVec.toNat_ofNat, BitVec.toNat_ofFin]
  omega

theorem formatE_toNat (imm : Elem) (j i : Idx) (r : Fin 4) (op : BitVec 8) :
    (formatE imm j i r op).toNat =
      imm.toNat * 65536 + j.val * 8192 + i.val * 1024 + r.val * 256 + op.toNat := by
  simp only [formatE, append_toNat, BitVec.toNat_ofFin]
  omega

theorem formatX_toNat (sd : SReg) (rk rs rd : Fin 4) (op : BitVec 8) :
    (formatX sd rk rs rd op).toNat =
      sd.val * 65536 + rk.val * 4096 + rs.val * 1024 + rd.val * 256 + op.toNat := by
  simp only [formatX, append_toNat, BitVec.toNat_ofNat, BitVec.toNat_ofFin]
  omega

end Sys2Proof
end

