-- ==== Sys2Proof/Laws/Step.lean ====
section
/-! SUPPORT. What one clock edge can do, once: the five cases of `step`, and each command's transition written as
its frame. -/

namespace Sys2Proof.Machine

variable (s : State)

/-! ## The five cases of a step -/

theorem step_reset (h : s.nextEdge.rst = true) : step s = .next s.resetEdge := by simp [step, h]

theorem step_complete {w : Word} (hr : s.nextEdge.rst = false) (hp : s.inProgress = some w)
    (hf : s.nextEdge.finish = true) : step s = execWord w (s.sampled s.nextEdge).complete := by
  simp [step, hr, hp, hf]

theorem step_busy {w : Word} (hr : s.nextEdge.rst = false) (hp : s.inProgress = some w)
    (hf : s.nextEdge.finish = false) : step s = .next (s.sampled s.nextEdge) := by
  simp [step, hr, hp, hf]

theorem step_accept (hr : s.nextEdge.rst = false) (hp : s.inProgress = none)
    (hv : s.nextEdge.cmdValid = true) (hc : s.cmdReady = true) :
    step s = .next ((s.sampled s.nextEdge).acceptWord s.nextEdge.cmdData) := by
  simp [step, hr, hp, hv, hc]

theorem step_idle (hr : s.nextEdge.rst = false) (hp : s.inProgress = none)
    (h : ¬ (s.nextEdge.cmdValid = true ∧ s.cmdReady = true)) :
    step s = .next (s.sampled s.nextEdge) := by
  simp [step, hr, hp, h]

/-- Everything a clock edge can do. -/
theorem step_cases :
    (s.nextEdge.rst = true ∧ step s = .next s.resetEdge) ∨
    (s.nextEdge.rst = false ∧ ∃ w, s.inProgress = some w ∧ s.nextEdge.finish = true ∧
      step s = execWord w (s.sampled s.nextEdge).complete) ∨
    (s.nextEdge.rst = false ∧ ∃ w, s.inProgress = some w ∧ s.nextEdge.finish = false ∧
      step s = .next (s.sampled s.nextEdge)) ∨
    (s.nextEdge.rst = false ∧ s.inProgress = none ∧ s.nextEdge.cmdValid = true ∧ s.cmdReady = true ∧
      step s = .next ((s.sampled s.nextEdge).acceptWord s.nextEdge.cmdData)) ∨
    (s.nextEdge.rst = false ∧ s.inProgress = none ∧
      ¬ (s.nextEdge.cmdValid = true ∧ s.cmdReady = true) ∧ step s = .next (s.sampled s.nextEdge)) := by
  cases hr : s.nextEdge.rst
  · cases hp : s.inProgress with
    | some w =>
      cases hf : s.nextEdge.finish
      · exact .inr (.inr (.inl ⟨rfl, w, rfl, rfl, step_busy s hr hp hf⟩))
      · exact .inr (.inl ⟨rfl, w, rfl, rfl, step_complete s hr hp hf⟩)
    | none =>
      by_cases h : s.nextEdge.cmdValid = true ∧ s.cmdReady = true
      · exact .inr (.inr (.inr (.inl ⟨rfl, rfl, h.1, h.2, step_accept s hr hp h.1 h.2⟩)))
      · exact .inr (.inr (.inr (.inr ⟨rfl, rfl, h, step_idle s hr hp h⟩)))
  · exact .inl ⟨rfl, step_reset s hr⟩

/-- The handshake output, by its three conditions (R42). -/
theorem cmdReady_iff :
    s.cmdReady = true ↔ s.inProgress = none ∧ s.slot = none ∧ s.afterReset = false := by
  simp [State.cmdReady, State.busy, State.rspValid, and_assoc]

theorem busy_iff : s.busy = true ↔ ∃ w, s.inProgress = some w := by
  simp [State.busy, Option.isSome_iff_exists]

theorem busy_eq_false_iff : s.busy = false ↔ s.inProgress = none := by simp [State.busy]

/-! ## An accepted word -/

theorem execWord_legal {w : Word} {i : Instr} (h : decode w = some i) : execWord w s = exec i s := by
  simp [execWord, h]

theorem execWord_illegal {w : Word} (h : decode w = none) :
    execWord w s = .next (illegalWord (opcodeOf w) s) := by simp [execWord, h]

@[simp] theorem stateOr_next (t : State) : stateOr s (.next t) = t := rfl

end Sys2Proof.Machine
end

