-- ==== Sys2Proof/Laws/Exec.lean ====
section
/-! SUPPORT. Everything a command can do to a state, once for all 23: a property that holds of each update a
command can answer with holds of what it answers. -/

namespace Sys2Proof.Machine

/-- `MLOCK <- 1` if the command is a ring command (spec/10_state.md R25). -/
def State.lockedBy (t : State) (i : Instr) : State := if i.isRing then t.lock else t

/-- Every command answers a next state (spec/60_exceptions.md R165). -/
theorem exec_answers (i : Instr) (s : State) : ∃ t, exec i s = .next t := by
  cases i <;> exact ⟨_, rfl⟩

/-- Everything a command can do, given update by update: nothing; a response, if it is a read command; leaving the
fault state, if it is CLRERR; and outside the fault state either fault entry with one of its causes, or its writes.
A ring command locks the modulus with either. -/
theorem exec_induct (i : Instr) (s : State) (P : State → Prop)
    (hSame : P s)
    (hRespond : i.isRead = true → ∀ v, P (s.respond v))
    (hClear : i = .clrerr → P s.clearFault)
    (hRaise : s.FAULT = false → ∀ c : Cause, c.code ∈ i.mayRaise → P ((s.raise i.opcode c).lockedBy i))
    (hModulus : s.FAULT = false → s.MLOCK = false → ∀ m, i = .setm m → m ≠ 0 → P (s.setModulus m))
    (hS : s.FAULT = false → ∀ r x, P ((s.setS r x).lockedBy i))
    (hSS : s.FAULT = false → ∀ r x q y, P ((s.setS r x).setS q y).lock)
    (hSol : s.FAULT = false → ∀ sx1 sy1 sx2 sy2 : SReg, (s.getS sx1).toNat < s.M.toNat →
      (s.getS sy1).toNat < s.M.toNat → ∀ r x, P ((s.setSol (solve (s.getS sx1) (s.getS sy1) (s.getS sx2)
        (s.getS sy2) s.M.toNat)).setS r x).lock)
    (hDim : s.FAULT = false → ∀ k (n : Elem), 1 ≤ n.toNat → n.toNat ≤ 8 → P (s.setDim k (n.setWidth 4)))
    (hK : s.FAULT = false → ∀ k a b x, P (s.setK k a b x))
    (hV : s.FAULT = false → ∀ v a x, P (s.setV v a x))
    (hVec : s.FAULT = false → ∀ v n r, P (s.setVec v n r).lock)
    (hBlock : s.FAULT = false → ∀ k q R, P (s.setBlock k (s.getDim q) R).lock) :
    ∀ t, exec i s = .next t → P t := by
  intro t h
  cases hF : s.FAULT
  swap
  · cases i <;> obtain rfl := Host.Outcome.next.inj h.symm
    all_goals first
      | exact hClear rfl
      | exact hRespond rfl _
      | (rw [runRing_squashed s _ _ hF]; exact hSame)
      | (rw [runCommand_squashed s _ _ hF]; exact hSame)
      | exact hSame
  cases i <;> obtain rfl := Host.Outcome.next.inj h.symm
  case nop => exact hSame
  case clrerr => exact hClear rfl
  case rdstat => exact hRespond rfl _
  case rds => exact hRespond rfl _
  case rdm => exact hRespond rfl _
  case rdv => exact hRespond rfl _
  case rddim => exact hRespond rfl _
  case setm imm =>
    rcases setmBody_cases s imm with ⟨-, e⟩ | ⟨-, -, e⟩ | ⟨hl, h0, e⟩
    · rw [runCommand_error s _ _ hF e]; exact hRaise hF _ (by simp [Instr.mayRaise, Cause.code])
    · rw [runCommand_error s _ _ hF e]; exact hRaise hF _ (by simp [Instr.mayRaise, Cause.code])
    · rw [runCommand_ok s _ _ hF e]; exact hModulus hF hl _ rfl h0
  case ldi sd imm => rw [runCommand_ok s _ _ (t := s.setS sd imm) hF rfl]; exact hS hF _ _
  case mseti kd i j imm => rw [runCommand_ok s _ _ (t := s.setK kd i j imm) hF rfl]; exact hK hF _ _ _ _
  case vseti vd i imm => rw [runCommand_ok s _ _ (t := s.setV vd i imm) hF rfl]; exact hV hF _ _ _
  case mdim kd n =>
    rcases mdimBody_cases s kd n with ⟨-, e⟩ | ⟨h1, h8, e⟩
    · rw [runCommand_error s _ _ hF e]; exact hRaise hF _ (by simp [Instr.mayRaise, Cause.code])
    · rw [runCommand_ok s _ _ hF e]; exact hDim hF _ _ h1 h8
  case aff sd sa sx sb =>
    rcases affBody_cases s sd sa sx sb with ⟨-, e⟩ | ⟨-, e⟩
    · rw [runRing_error s _ _ hF e]; exact hRaise hF _ (by simp [Instr.mayRaise, Cause.code])
    · rw [runRing_ok s _ _ hF e]; exact hS hF _ _
  case affi sd sa sy sb =>
    rcases affiBody_cases s sd sa sy sb with ⟨-, e⟩ | ⟨-, -, e⟩ | ⟨-, -, e⟩
    · rw [runRing_error s _ _ hF e]; exact hRaise hF _ (by simp [Instr.mayRaise, Cause.code])
    · rw [runRing_error s _ _ hF e]; exact hRaise hF _ (by simp [Instr.mayRaise, Cause.code])
    · rw [runRing_ok s _ _ hF e]; exact hS hF _ _
  case inv sd ss =>
    rcases invBody_cases s sd ss with ⟨-, e⟩ | ⟨-, -, e⟩ | ⟨-, -, e⟩
    · rw [runRing_error s _ _ hF e]; exact hRaise hF _ (by simp [Instr.mayRaise, Cause.code])
    · rw [runRing_error s _ _ hF e]; exact hRaise hF _ (by simp [Instr.mayRaise, Cause.code])
    · rw [runRing_ok s _ _ hF e]; exact hS hF _ _
  case gcd sd ss =>
    rcases gcdBody_cases s sd ss with ⟨-, e⟩ | ⟨-, e⟩
    · rw [runRing_error s _ _ hF e]; exact hRaise hF _ (by simp [Instr.mayRaise, Cause.code])
    · rw [runRing_ok s _ _ hF e]; exact hS hF _ _
  case solve2 sd sx1 sy1 sx2 sy2 =>
    rcases solve2Body_cases s sd sx1 sy1 sx2 sy2 with ⟨-, e⟩ | ⟨hx, e⟩
    · rw [runRing_error s _ _ hF e]; exact hRaise hF _ (by simp [Instr.mayRaise, Cause.code])
    · rw [runRing_ok s _ _ hF e]; exact hSol hF _ _ _ _ hx.1 hx.2.1 _ _
  case solk sda sdb sk =>
    rcases solkBody_cases s sda sdb sk with ⟨-, e⟩ | ⟨-, e⟩
    · rw [runRing_error s _ _ hF e]; exact hRaise hF _ (by simp [Instr.mayRaise, Cause.code])
    · rw [runRing_ok s _ _ hF e]; exact hSS hF _ _ _ _
  case vmul vd vs ks =>
    rcases vmulBody_cases s vd vs ks with ⟨-, e⟩ | ⟨-, -, e⟩ | ⟨-, -, -, e⟩
    · rw [runRing_error s _ _ hF e]; exact hRaise hF _ (by simp [Instr.mayRaise, Cause.code])
    · rw [runRing_error s _ _ hF e]; exact hRaise hF _ (by simp [Instr.mayRaise, Cause.code])
    · rw [runRing_ok s _ _ hF e]; exact hVec hF _ _ _
  case mvmul vd vs ks =>
    rcases mvmulBody_cases s vd vs ks with ⟨-, e⟩ | ⟨-, -, e⟩ | ⟨-, -, -, e⟩
    · rw [runRing_error s _ _ hF e]; exact hRaise hF _ (by simp [Instr.mayRaise, Cause.code])
    · rw [runRing_error s _ _ hF e]; exact hRaise hF _ (by simp [Instr.mayRaise, Cause.code])
    · rw [runRing_ok s _ _ hF e]; exact hVec hF _ _ _
  case det sd ks =>
    rcases detBody_cases s sd ks with ⟨-, e⟩ | ⟨-, -, e⟩ | ⟨-, -, e⟩
    · rw [runRing_error s _ _ hF e]; exact hRaise hF _ (by simp [Instr.mayRaise, Cause.code])
    · rw [runRing_error s _ _ hF e]; exact hRaise hF _ (by simp [Instr.mayRaise, Cause.code])
    · rw [runRing_ok s _ _ hF e]; exact hS hF _ _
  case adj kd ks =>
    rcases adjBody_cases s kd ks with ⟨-, e⟩ | ⟨-, -, e⟩ | ⟨-, -, e⟩
    · rw [runRing_error s _ _ hF e]; exact hRaise hF _ (by simp [Instr.mayRaise, Cause.code])
    · rw [runRing_error s _ _ hF e]; exact hRaise hF _ (by simp [Instr.mayRaise, Cause.code])
    · rw [runRing_ok s _ _ hF e]; exact hBlock hF _ _ _
  case matinv kd ks =>
    rcases matinvBody_cases s kd ks with ⟨-, e⟩ | ⟨-, -, e⟩ | ⟨-, -, -, e⟩ | ⟨-, -, -, e⟩
    · rw [runRing_error s _ _ hF e]; exact hRaise hF _ (by simp [Instr.mayRaise, Cause.code])
    · rw [runRing_error s _ _ hF e]; exact hRaise hF _ (by simp [Instr.mayRaise, Cause.code])
    · rw [runRing_error s _ _ hF e]; exact hRaise hF _ (by simp [Instr.mayRaise, Cause.code])
    · rw [runRing_ok s _ _ hF e]; exact hBlock hF _ _ _

/-- What an accepted word can do: its command, or the illegal word's fault (R152). -/
theorem execWord_cases (w : Word) (s : State) :
    (∃ i, decode w = some i ∧ execWord w s = exec i s) ∨
    (decode w = none ∧ execWord w s = .next (illegalWord (opcodeOf w) s)) := by
  cases hd : decode w with
  | some i => exact .inl ⟨i, rfl, execWord_legal s hd⟩
  | none => exact .inr ⟨rfl, execWord_illegal s hd⟩

/-- Every word answers a next state. -/
theorem execWord_answers (w : Word) (s : State) : ∃ t, execWord w s = .next t := by
  rcases execWord_cases w s with ⟨i, -, e⟩ | ⟨-, e⟩ <;> rw [e]
  · exact exec_answers i s
  · exact ⟨_, rfl⟩

/-- The state after a word is what its transition answers. -/
theorem execWord_afterWord (w : Word) (s : State) : execWord w s = .next (s.afterWord w) := by
  obtain ⟨t, ht⟩ := execWord_answers w s
  rw [State.afterWord, ht]
  rfl

/-- The state one edge later is what the step answers. -/
theorem step_tick (s : State) : step s = .next s.tick := by
  have h : ∃ t, step s = .next t := by
    rcases step_cases s with ⟨-, h⟩ | ⟨-, w, -, -, h⟩ | ⟨-, w, -, -, h⟩ | ⟨-, -, -, -, h⟩ | ⟨-, -, -, h⟩ <;> rw [h]
    · exact ⟨_, rfl⟩
    · exact execWord_answers _ _
    all_goals exact ⟨_, rfl⟩
  obtain ⟨t, ht⟩ := h
  rw [State.tick, ht]
  rfl

/-- No command and no word touches the command in progress, the reset cycle or the edges to come: those belong to
the clock edge (spec/20_memory.md R41 to R46). -/
theorem exec_ports {i : Instr} {s t : State} (h : exec i s = .next t) :
    t.inProgress = s.inProgress ∧ t.afterReset = s.afterReset ∧ t.edges = s.edges := by
  refine exec_induct i s (fun t => t.inProgress = s.inProgress ∧ t.afterReset = s.afterReset ∧
    t.edges = s.edges) ?_ ?_ ?_ ?_ ?_ ?_ ?_ ?_ ?_ ?_ ?_ ?_ ?_ t h <;> intros <;>
    (try rw [State.lockedBy]) <;> (try split) <;> exact ⟨rfl, rfl, rfl⟩

theorem execWord_ports {w : Word} {s t : State} (h : execWord w s = .next t) :
    t.inProgress = s.inProgress ∧ t.afterReset = s.afterReset ∧ t.edges = s.edges := by
  rcases execWord_cases w s with ⟨i, -, e⟩ | ⟨-, e⟩ <;> rw [e] at h
  · exact exec_ports h
  · cases h
    rcases illegalWord_cases s (opcodeOf w) with ⟨-, e⟩ | ⟨-, e⟩ <;> rw [e] <;> exact ⟨rfl, rfl, rfl⟩

end Sys2Proof.Machine
end

