-- ==== Sys2Proof/Laws/Interleave.lean ====
section
/-! SUPPORT. What an evaluation with interleaved reduction can reach (spec/00_scope.md R17), and the exact values
of the expressions that the determinant, the adjugate and the products are. -/

namespace Sys2Proof.Machine

/-- Every value an interleaved evaluation reaches is the exact value mod m. -/
theorem Interleaved.modEq {m : Nat} (hm : 0 < m) {e : RingExpr} {v : Int} (h : Interleaved m e v) :
    v ≡ e.exact [ZMOD m] := by
  induction h with
  | num x => exact Int.ModEq.refl x
  | add _ _ ha hb => exact ha.add hb
  | sub _ _ ha hb => exact ha.sub hb
  | mul _ _ ha hb => exact ha.mul hb
  | reduce _ ha => exact (residue_modEq _ hm).trans ha

/-- The exact evaluation is one of them: nothing need be reduced. -/
theorem interleaved_exact (m : Nat) (e : RingExpr) : Interleaved m e e.exact := by
  induction e with
  | num x => exact .num x
  | add _ _ he hf => exact .add he hf
  | sub _ _ he hf => exact .sub he hf
  | mul _ _ he hf => exact .mul he hf

/-- A sum as an expression has the value of the sum. -/
theorem sumExpr_exact (n : Nat) (f : Nat → RingExpr) : (sumExpr n f).exact = sumTo n fun i => (f i).exact := by
  induction n with
  | zero => rfl
  | succ n ih => rw [sumExpr, sumTo, RingExpr.exact, ih]

/-- The cofactor expansion as an expression has the value of the determinant. -/
theorem detExpr_exact (n : Nat) (A : Nat → Nat → Int) : (detExpr n A).exact = idet n A := by
  induction n generalizing A with
  | zero => rfl
  | succ n ih =>
    rw [detExpr, idet, sumExpr_exact]
    exact sumTo_congr fun j _ => by simp only [RingExpr.exact, ih]

/-- The value of VMUL's element as an expression. -/
theorem rowExpr_exact (n : Nat) (v : Nat → Int) (A : Nat → Nat → Int) (j : Nat) :
    (rowExpr n v A j).exact = sumTo n fun i => v i * A i j := sumExpr_exact _ _

/-- The value of MVMUL's element as an expression. -/
theorem colExpr_exact (n : Nat) (A : Nat → Nat → Int) (v : Nat → Int) (i : Nat) :
    (colExpr n A v i).exact = sumTo n fun j => A i j * v j := sumExpr_exact _ _

/-- A sum of reduced terms reduced after every addition is the exact sum mod m. -/
theorem sumReduced_eq {m : Nat} (hm : 0 < m) (n : Nat) (f : Nat → Int) :
    sumReduced m n f = residue (sumTo n f) m := by
  induction n with
  | zero => rfl
  | succ n ih =>
    rw [sumReduced, sumTo, ih, residue_eq_iff _ _ hm]
    exact (residue_modEq _ hm).add (residue_modEq _ hm)

end Sys2Proof.Machine
end

