-- ==== Sys2Proof/Laws/Matrix.lean ====
section
/-! SUPPORT. What the matrix and vector products compute as sums, and that the determinant, the adjugate and the
products read nothing but the leading block (spec/10_state.md R22, R23). -/

namespace Sys2Proof.Machine

variable (s : State)

/-- A configured register whose leading block is of ring elements: the modulus is not 0. -/
theorem blockRing_pos {k : KReg} (h : s.blockRing k) (hd : s.getDim k ≠ 0) : 0 < s.M.toNat := by
  have hn : 0 < (s.getDim k).toNat := Nat.pos_of_ne_zero fun h0 => hd (BitVec.eq_of_toNat_eq h0)
  exact lt_of_le_of_lt (Nat.zero_le _) (h 0 hn 0 hn)

/-- VMUL's element j as a sum (R120). -/
theorem rowTimes_eq_sum (n : Nat) (v : VReg) (k : KReg) (j : Nat) :
    rowTimes n (s.vecEntries v) (s.entries k) s.M.toNat j =
      (∑ i : Fin n, (s.vecAt v i).toNat * (s.K[k].entry i j).toNat) % s.M.toNat := by
  rw [rowTimes, sumTo_eq_sum, ← residue_natCast]
  push_cast
  rfl

/-- MVMUL's element i as a sum (R121). -/
theorem timesCol_eq_sum (n : Nat) (v : VReg) (k : KReg) (i : Nat) :
    timesCol n (s.entries k) (s.vecEntries v) s.M.toNat i =
      (∑ j : Fin n, (s.K[k].entry i j).toNat * (s.vecAt v j).toNat) % s.M.toNat := by
  rw [timesCol, sumTo_eq_sum, ← residue_natCast]
  push_cast
  rfl

/-- A minor of a matrix reads that matrix alone. -/
theorem minor_congr {n k : Nat} {A B : Nat → Nat → Int} (h : ∀ i < n, ∀ j < n, A i j = B i j) (hk : k + 1 ≤ n)
    (r c : Nat) : ∀ i < k, ∀ j < k, minor A r c i j = minor B r c i j := by
  intro i hi j hj
  unfold minor
  apply h <;> split <;> omega

/-- The determinant reads the n×n matrix alone. -/
theorem idet_congr (n : Nat) (A B : Nat → Nat → Int) (h : ∀ i < n, ∀ j < n, A i j = B i j) :
    idet n A = idet n B := by
  induction n generalizing A B with
  | zero => rfl
  | succ n ih =>
    unfold idet
    apply sumTo_congr
    intro j hj
    rw [h 0 (by omega) j hj, ih _ _ (minor_congr h (le_refl _) 0 j)]

/-- The adjugate reads the n×n matrix alone. -/
theorem adjugate_congr {n : Nat} {A B : Nat → Nat → Int} (m : Nat) (h : ∀ i < n, ∀ j < n, A i j = B i j)
    {i : Nat} (hi : i < n) (j : Nat) : adjugate n A m i j = adjugate n B m i j := by
  unfold adjugate cofactor
  rw [idet_congr _ _ _ (minor_congr h (by omega) j i)]

end Sys2Proof.Machine
end

