-- ==== Sys2Proof/Laws/PerInstr.lean ====
section
/-! SUPPORT. Statements about every command as syntax, one lemma per constructor. -/

namespace Sys2Proof.Laws

/-- The low byte of a command's word is its opcode (spec/30_encoding.md R60, R68). -/
def OpcodeByte.Statement (i : Instr) : Prop := opcodeOf (encode i) = i.opcode

theorem OpcodeByte.nop : OpcodeByte.Statement .nop := by
  apply BitVec.eq_of_toNat_eq
  simp only [opcodeOf_toNat, encode, formatZ_toNat, Instr.opcode]
  omega

theorem OpcodeByte.setm (imm : Elem) : OpcodeByte.Statement (.setm imm) := by
  apply BitVec.eq_of_toNat_eq
  simp only [opcodeOf_toNat, encode, formatU_toNat, Instr.opcode]
  omega

theorem OpcodeByte.clrerr : OpcodeByte.Statement .clrerr := by
  apply BitVec.eq_of_toNat_eq
  simp only [opcodeOf_toNat, encode, formatZ_toNat, Instr.opcode]
  omega

theorem OpcodeByte.rdstat : OpcodeByte.Statement .rdstat := by
  apply BitVec.eq_of_toNat_eq
  simp only [opcodeOf_toNat, encode, formatZ_toNat, Instr.opcode]
  omega

theorem OpcodeByte.ldi (sd : SReg) (imm : Elem) : OpcodeByte.Statement (.ldi sd imm) := by
  apply BitVec.eq_of_toNat_eq
  simp only [opcodeOf_toNat, encode, formatI_toNat, Instr.opcode]
  omega

theorem OpcodeByte.rds (ss : SReg) : OpcodeByte.Statement (.rds ss) := by
  apply BitVec.eq_of_toNat_eq
  simp only [opcodeOf_toNat, encode, formatS_toNat, Instr.opcode]
  omega

theorem OpcodeByte.aff (sd sa sx sb : SReg) : OpcodeByte.Statement (.aff sd sa sx sb) := by
  apply BitVec.eq_of_toNat_eq
  simp only [opcodeOf_toNat, encode, formatS_toNat, Instr.opcode]
  omega

theorem OpcodeByte.affi (sd sa sy sb : SReg) : OpcodeByte.Statement (.affi sd sa sy sb) := by
  apply BitVec.eq_of_toNat_eq
  simp only [opcodeOf_toNat, encode, formatS_toNat, Instr.opcode]
  omega

theorem OpcodeByte.inv (sd ss : SReg) : OpcodeByte.Statement (.inv sd ss) := by
  apply BitVec.eq_of_toNat_eq
  simp only [opcodeOf_toNat, encode, formatS_toNat, Instr.opcode]
  omega

theorem OpcodeByte.gcd (sd ss : SReg) : OpcodeByte.Statement (.gcd sd ss) := by
  apply BitVec.eq_of_toNat_eq
  simp only [opcodeOf_toNat, encode, formatS_toNat, Instr.opcode]
  omega

theorem OpcodeByte.solve2 (sd sx1 sy1 sx2 sy2 : SReg) : OpcodeByte.Statement (.solve2 sd sx1 sy1 sx2 sy2) := by
  apply BitVec.eq_of_toNat_eq
  simp only [opcodeOf_toNat, encode, formatS_toNat, Instr.opcode]
  omega

theorem OpcodeByte.solk (sda sdb sk : SReg) : OpcodeByte.Statement (.solk sda sdb sk) := by
  apply BitVec.eq_of_toNat_eq
  simp only [opcodeOf_toNat, encode, formatS_toNat, Instr.opcode]
  omega

theorem OpcodeByte.mdim (kd : KReg) (n : Elem) : OpcodeByte.Statement (.mdim kd n) := by
  apply BitVec.eq_of_toNat_eq
  simp only [opcodeOf_toNat, encode, formatE_toNat, Instr.opcode]
  omega

theorem OpcodeByte.mseti (kd : KReg) (r c : Idx) (imm : Elem) : OpcodeByte.Statement (.mseti kd r c imm) := by
  apply BitVec.eq_of_toNat_eq
  simp only [opcodeOf_toNat, encode, formatE_toNat, Instr.opcode]
  omega

theorem OpcodeByte.vseti (vd : VReg) (e : Idx) (imm : Elem) : OpcodeByte.Statement (.vseti vd e imm) := by
  apply BitVec.eq_of_toNat_eq
  simp only [opcodeOf_toNat, encode, formatE_toNat, Instr.opcode]
  omega

theorem OpcodeByte.rdm (ks : KReg) (r c : Idx) : OpcodeByte.Statement (.rdm ks r c) := by
  apply BitVec.eq_of_toNat_eq
  simp only [opcodeOf_toNat, encode, formatE_toNat, Instr.opcode]
  omega

theorem OpcodeByte.rdv (vs : VReg) (e : Idx) : OpcodeByte.Statement (.rdv vs e) := by
  apply BitVec.eq_of_toNat_eq
  simp only [opcodeOf_toNat, encode, formatE_toNat, Instr.opcode]
  omega

theorem OpcodeByte.rddim (ks : KReg) : OpcodeByte.Statement (.rddim ks) := by
  apply BitVec.eq_of_toNat_eq
  simp only [opcodeOf_toNat, encode, formatE_toNat, Instr.opcode]
  omega

theorem OpcodeByte.vmul (vd vs : VReg) (ks : KReg) : OpcodeByte.Statement (.vmul vd vs ks) := by
  apply BitVec.eq_of_toNat_eq
  simp only [opcodeOf_toNat, encode, formatX_toNat, Instr.opcode]
  omega

theorem OpcodeByte.mvmul (vd vs : VReg) (ks : KReg) : OpcodeByte.Statement (.mvmul vd vs ks) := by
  apply BitVec.eq_of_toNat_eq
  simp only [opcodeOf_toNat, encode, formatX_toNat, Instr.opcode]
  omega

theorem OpcodeByte.det (sd : SReg) (ks : KReg) : OpcodeByte.Statement (.det sd ks) := by
  apply BitVec.eq_of_toNat_eq
  simp only [opcodeOf_toNat, encode, formatX_toNat, Instr.opcode]
  omega

theorem OpcodeByte.adj (kd ks : KReg) : OpcodeByte.Statement (.adj kd ks) := by
  apply BitVec.eq_of_toNat_eq
  simp only [opcodeOf_toNat, encode, formatX_toNat, Instr.opcode]
  omega

theorem OpcodeByte.matinv (kd ks : KReg) : OpcodeByte.Statement (.matinv kd ks) := by
  apply BitVec.eq_of_toNat_eq
  simp only [opcodeOf_toNat, encode, formatX_toNat, Instr.opcode]
  omega

end Sys2Proof.Laws
end

