-- ==== Sys2Proof/Tests/Slice0.lean ====
section
/-! SUPPORT. Tests, each on one word or one step; the expected values are those of spec/95_test_vectors.md (the
section is named), of the examples inside the command rules, or counted by hand from an encoding of
spec/30_encoding.md. Then, for every obligation with hypotheses, a witness: a state and operands that meet them. -/

namespace Sys2Proof.Tests

open Sys2Proof.Machine

/-! ## Small states -/

/-- The reset state with a modulus and the first scalar registers. -/
def scalars (m : Elem) (xs : List Elem) : State :=
  { State.reset with M := m, S := Vector.ofFn fun i => xs.getD i 0 }

/-- A state with one matrix register given by its rows. -/
def withMatrix (s : State) (k : KReg) (rows : List (List Elem)) : State :=
  { s with
    K := s.K.set k
      ⟨BitVec.ofNat 4 rows.length, Vector.ofFn fun i => Vector.ofFn fun j => (rows.getD i []).getD j 0⟩ }

/-- A state with one vector register. -/
def withVector (s : State) (v : VReg) (xs : List Elem) : State :=
  { s with V := s.V.set v (Vector.ofFn fun i => xs.getD i 0) }

/-- The key matrix of spec/95_test_vectors.md section 1.4. -/
def keyRows : List (List Elem) := [[17, 17, 5], [21, 18, 21], [2, 2, 19]]

/-- The reset state with the key matrix in k0. -/
def withKey : State := withMatrix State.reset 0 keyRows

/-- The reset state in the fault state: NONINV by AFFI. -/
def faulted : State := State.reset.raise 0x11 .noninv

/-- The solver context of the example of spec/42_affine.md R104, in a locked state. -/
def solved : State := { scalars 26 [0, 1, 2] with SOL := ⟨2, 3, 13, 4, 17⟩, MLOCK := true }

/-- A reset edge. -/
def rstEdge : ClockEdge := ⟨true, true, 0, true, true⟩

/-- An edge at which the host offers a word. -/
def offerEdge (w : Word) : ClockEdge := ⟨false, true, w, false, false⟩

/-- An edge at which nothing is offered, taken or completed. -/
def waitEdge : ClockEdge := ⟨false, false, 0, false, false⟩

/-- An idle block past the cycle after reset, with the edges to come. -/
def idleWith (es : List ClockEdge) : State := { State.reset with afterReset := false, edges := es }

/-- A block with a command in progress. -/
def busyWith (w : Word) (es : List ClockEdge) : State := { idleWith es with inProgress := some w }

/-! ## Well-formedness (R70) -/

theorem test_wf_solk_equal_destinations : (Instr.solk 1 1 5).WellFormed = false := by decide
theorem test_wf_solk_source_is_destination : (Instr.solk 1 0 1).WellFormed = true := by decide
theorem test_wf_mdim_nine_is_legal_to_encode : (Instr.mdim 3 9).WellFormed = true := by decide

/-! ## Decoding: section 2.6 and spec/30_encoding.md section 8 -/

theorem test_decode_nop : decode 0x00000000 = some .nop := by decide
theorem test_decode_setm : decode 0xFFFF0001 = some (.setm 65535) := by decide
theorem test_decode_clrerr : decode 0x00000002 = some .clrerr := by decide
theorem test_decode_rdstat : decode 0x00000003 = some .rdstat := by decide
theorem test_decode_ldi : decode 0x000B0208 = some (.ldi 2 11) := by decide
theorem test_decode_rds : decode 0x00000F09 = some (.rds 15) := by decide
theorem test_decode_aff : decode 0x00120310 = some (.aff 3 0 2 1) := by decide
/-- f1 = 1, f2 = 2, f3 = 3, f4 = 4, opcode 0x11. -/
theorem test_decode_affi : decode 0b00000000010000110010000100010001 = some (.affi 1 2 3 4) := by decide
theorem test_decode_inv : decode 0x00000112 = some (.inv 1 0) := by decide
theorem test_decode_gcd : decode 0x00001313 = some (.gcd 3 1) := by decide
theorem test_decode_solve2 : decode 0x03210414 = some (.solve2 4 0 1 2 3) := by decide
theorem test_decode_solk : decode 0x00057615 = some (.solk 6 7 5) := by decide
theorem test_decode_mdim : decode 0x00080320 = some (.mdim 3 8) := by decide
theorem test_decode_mseti : decode 0x00154421 = some (.mseti 0 1 2 21) := by decide
theorem test_decode_vseti : decode 0x00180822 = some (.vseti 0 2 24) := by decide
theorem test_decode_rdm : decode 0x00002223 = some (.rdm 2 0 1) := by decide
/-- i = 5, r = 1, opcode 0x24. -/
theorem test_decode_rdv : decode 0b00000000000000000001010100100100 = some (.rdv 1 5) := by decide
theorem test_decode_rddim : decode 0x00000225 = some (.rddim 2) := by decide
theorem test_decode_vmul : decode 0x00002728 = some (.vmul 3 1 2) := by decide
/-- rk = 1, rs = 2, rd = 3, opcode 0x29. -/
theorem test_decode_mvmul : decode 0b00000000000000000001101100101001 = some (.mvmul 3 2 1) := by decide
/-- sd = 10, rk = 1, opcode 0x30. -/
theorem test_decode_det : decode 0b00000000000010100001000000110000 = some (.det 10 1) := by decide
/-- rk = 2, rd = 1, opcode 0x31. -/
theorem test_decode_adj : decode 0b00000000000000000010000100110001 = some (.adj 1 2) := by decide
theorem test_decode_matinv : decode 0x00002332 = some (.matinv 3 2) := by decide

/-- The illegal words of section 2.6. -/
def illegalWords : List Word := [
  0x00000100, 0x00010002, 0x80000003, 0x00000101, 0x00001008, 0x00010009, 0x00001009, 0x01000010, 0x10000010,
  0x00010012, 0x00100013, 0x10000014, 0x00100015, 0x00050015, 0x00051115, 0x00000420, 0x00002020, 0x00012023,
  0x00002024, 0x00010024, 0x00000425, 0x00004028, 0x00010028, 0x00100029, 0x00000130, 0x00000430, 0x00004030,
  0x00100030, 0x00000431, 0x00010031, 0x00000432, 0x00004032, 0x00000004, 0x00000007, 0x0000000A, 0x00000016,
  0x0000001F, 0x00000026, 0x0000002A, 0x00000033, 0x000000FF, 0xFFFFFFFF]

theorem test_decode_illegal : (illegalWords.all fun w => decode w == none) = true := by decide

/-! ## Assembler lines (R73) -/

theorem test_asm_largest_operands :
    assembleLine "solve2 s15, s15, s15, s15, s15".toList = .command (.solve2 15 15 15 15 15) := by decide
theorem test_asm_rejects_missing_operand : assembleLine "aff s1, s2, s3,".toList = .rejected := by decide
theorem test_asm_rejects_equal_destinations : assembleLine "solk s1, s1, s0".toList = .rejected := by decide

/-! ## One command: sections 2.1 to 2.5 and the rules' examples -/

theorem test_nop : State.reset.afterWord 0x00000000 = State.reset := by decide
theorem test_setm_status : (State.reset.afterWord 0x000A0001).status = 0x000A0002 := by decide
theorem test_setm_zero_faults : (State.reset.afterWord 0x00000001).status = 0x001A0121 := by decide
theorem test_clrerr : faulted.afterWord 0x00000002 = State.reset := by decide
theorem test_rdstat : (State.reset.afterWord 0x00000003).RSP = [0x001A0000] := by decide
theorem test_ldi : (State.reset.afterWord 0xFFFF0F08).getS 15 = 0xFFFF := by decide
theorem test_rds : ((scalars 26 [0, 0, 0, 25]).afterWord 0x00000309).slot = some 0x00000019 := by decide
theorem test_aff : ((scalars 26 [7, 7, 2]).afterWord 0x00210310).getS 3 = 25 := by decide
theorem test_aff_largest :
    ((scalars 65535 [65534, 65534, 65534, 0xAAAA]).afterWord 0x00210310).getS 3 = 0 := by decide
theorem test_affi : ((scalars 26 [7, 25, 2]).afterWord 0x00210311).getS 3 = 7 := by decide
theorem test_affi_range_before_noninv :
    ((scalars 26 [13, 0, 30]).afterWord 0x00210311).status = 0x001A1133 := by decide
theorem test_inv : ((scalars 256 [0, 3]).afterWord 0x00001212).getS 2 = 171 := by decide
theorem test_inv_zero_of_one_element_ring : ((scalars 1 [0, 0, 9]).afterWord 0x00001212).getS 2 = 0 := by decide
theorem test_gcd_zero : ((scalars 26 [0, 0]).afterWord 0x00001313).getS 3 = 26 := by decide
theorem test_gcd_nonunit : ((scalars 26 [0, 16]).afterWord 0x00001313).getS 3 = 2 := by decide
theorem test_solve2 : ((scalars 26 [4, 17, 24, 25]).afterWord 0x03210414).SOL = ⟨2, 3, 13, 4, 17⟩ := by decide
theorem test_solve2_no_solution :
    ((scalars 26 [4, 17, 24, 24, 0xAAAA]).afterWord 0x03210414).getS 4 = 0 := by decide
theorem test_solk :
    let t := solved.afterWord (encode (.solk 6 7 1))
    t.getS 6 = 16 ∧ t.getS 7 = 5 := by decide
theorem test_solk_at_the_count : (solved.afterWord (encode (.solk 6 7 2))).status = 0x001A1533 := by decide
theorem test_mdim : (State.reset.afterWord 0x00080320).getDim 3 = 8 := by decide
theorem test_mdim_nine : (State.reset.afterWord 0x00090320).status = 0x001A2021 := by decide
theorem test_mseti : (State.reset.afterWord 0x00154421).getK 0 1 2 = 21 := by decide
theorem test_vseti : (State.reset.afterWord 0x00180822).getV 0 2 = 24 := by decide
theorem test_rdm : ((State.reset.setK 2 0 1 9).afterWord 0x00002223).RSP = [9] := by decide
theorem test_rdv : ((State.reset.setV 1 0 17).afterWord 0x00000124).RSP = [0x11] := by decide
theorem test_rddim : ((State.reset.setDim 2 3).afterWord 0x00000225).RSP = [3] := by decide
/-- Section 1.4, block PAY. -/
theorem test_vmul :
    ((withVector withKey 1 [15, 0, 24]).afterWord (encode (.vmul 1 1 0))).V[1] = #v[17, 17, 11, 0, 0, 0, 0, 0] := by
  decide
/-- Section 1.4, block PAY. -/
theorem test_mvmul :
    ((withVector withKey 1 [15, 0, 24]).afterWord (encode (.mvmul 1 1 0))).V[1] = #v[11, 13, 18, 0, 0, 0, 0, 0] := by
  decide
theorem test_det : (withKey.afterWord (encode (.det 5 0))).getS 5 = 23 := by decide
/-- Row 1 of the adjugate of section 1.4. -/
theorem test_adj : (withKey.afterWord (encode (.adj 0 0))).K[0].e[1] = #v[7, 1, 8, 0, 0, 0, 0, 0] := by decide
/-- Row 0 of the inverse of section 1.4. -/
theorem test_matinv : (withKey.afterWord (encode (.matinv 2 0))).K[2].e[0] = #v[4, 9, 15, 0, 0, 0, 0, 0] := by
  decide
theorem test_matinv_zero_matrix :
    ((withMatrix State.reset 0 [[0, 0], [0, 0]]).afterWord (encode (.matinv 2 0))).status = 0x001A3253 := by decide
/-- Section 2.6, last paragraph. -/
theorem test_solk_after_reset : (State.reset.afterWord 0x00051015).status = 0x001A1533 := by decide
/-- Section 2.7: squashed. -/
theorem test_squashed : faulted.afterWord 0x00050208 = faulted := by decide
theorem test_withFetchWord_runs : ((State.reset.withFetchWord 32 0x000B0208).tick).getS 2 = 11 := by decide

/-! ## Witnesses: what the obligations' hypotheses ask for exists -/

theorem witness_ResetEdgeResetsEverything :
    (busyWith 3 [rstEdge, waitEdge]).nextEdge.rst = true ∧
    ({ State.reset with edges := [waitEdge] } : State).nextEdge.rst = false := by decide
theorem witness_CommandHandshake :
    (idleWith [offerEdge 3]).busy = false ∧ (idleWith [offerEdge 3]).cmdReady = true ∧
    State.reset.busy = false ∧ State.reset.cmdReady = false := by decide
theorem witness_ResponseWaitsUntilTaken :
    let s : State := { idleWith [waitEdge] with slot := some 5 }
    s.slot = some 5 ∧ s.busy = false ∧ s.nextEdge.rst = false := by decide
theorem witness_StepRunsTheAcceptedCommand :
    let s := State.reset.withFetchWord 32 0x000B0208
    s.inProgress = some 0x000B0208 ∧ decode 0x000B0208 = some (.ldi 2 11) ∧ s.nextEdge.rst = false ∧
      s.nextEdge.finish = true := by decide
theorem witness_BusyEdgeChangesNothing :
    let s := busyWith 3 [waitEdge]
    s.inProgress = some 3 ∧ s.nextEdge.rst = false ∧ s.nextEdge.finish = false := by decide
theorem witness_DecodeOfEncode : (Instr.solk 15 14 15).WellFormed = true := by decide
theorem witness_EncodeOfDecode : decode 0x000FEF15 = some (.solk 15 14 15) := by decide
theorem witness_AssemblerReadsWhatIsPrinted : (Instr.mseti 3 7 7 65535).WellFormed = true := by decide
theorem witness_IllegalWordFaultsOrIsSquashed :
    decode 0x00051115 = none ∧ State.reset.FAULT = false ∧ faulted.FAULT = true := by decide
theorem witness_FaultEntryIsTheWholeTransition :
    State.reset.FAULT = false ∧
    execWord 0x00051015 State.reset = .next (State.reset.afterWord 0x00051015) ∧
    (State.reset.afterWord 0x00051015).FAULT = true ∧
    execWord 0x00051115 State.reset = .next (State.reset.afterWord 0x00051115) ∧
    (State.reset.afterWord 0x00051115).FAULT = true :=
  ⟨by decide, execWord_afterWord _ _, by decide, execWord_afterWord _ _, by decide⟩
theorem witness_FaultStateSquashes :
    faulted.FAULT = true ∧ (decode 0x00050208).any Instr.alwaysExecutes = false ∧
    (decode 0x00051115).any Instr.alwaysExecutes = false ∧
    decode 0x00000003 = some .rdstat ∧ Instr.alwaysExecutes .rdstat = true ∧ Instr.isRead .rdstat = true ∧
    decode 0x00000002 = some .clrerr ∧ Instr.alwaysExecutes .clrerr = true ∧ Instr.isRead .clrerr = false := by
  decide
theorem witness_ClrerrAloneLeavesTheFaultState :
    faulted.FAULT = true ∧ step faulted = .next faulted.tick ∧ faulted.tick.FAULT = true ∧
    step (faulted.withFetchWord 32 2) = .next (faulted.withFetchWord 32 2).tick ∧
    (faulted.withFetchWord 32 2).tick.FAULT = false :=
  ⟨by decide, step_tick _, by decide, step_tick _, by decide⟩
theorem witness_ElementReadsRespond : ((State.reset.setDim 0 8).getDim 0).toNat = 8 := by decide
theorem witness_LegalWordsAreTheTable : (0x000B0208 : Word) &&& 0x0000F0FF = 0x00000008 := by decide
theorem witness_OnlyTheStatedCodesAreRaised :
    withKey.FAULT = false ∧ ∃ t, exec (.matinv 1 2) withKey = .next t ∧ t.FAULT = true :=
  ⟨by decide, _, rfl, by decide⟩
theorem witness_LockIsSetAndNeverCleared :
    ∃ t, exec (.gcd 0 0) State.reset = .next t ∧ t.MLOCK = true := ⟨_, rfl, by decide⟩
theorem witness_ModulusIsWrittenOnceBySetm :
    execWord 0x000B0001 solved = .next (solved.afterWord 0x000B0001) ∧ solved.MLOCK = true ∧
    execWord 0x000A0001 State.reset = .next (State.reset.afterWord 0x000A0001) ∧
    (State.reset.afterWord 0x000A0001).M ≠ State.reset.M :=
  ⟨execWord_afterWord _ _, by decide, execWord_afterWord _ _, by decide⟩
theorem witness_CommandsWriteOnlyTheirColumns :
    (∃ t, exec (.rds 0) State.reset = .next t) ∧
    Column.S ∉ (Instr.rds 0).writes ∧ (Instr.rds 0).mayRaise = [] ∧ Instr.rds 0 ≠ .clrerr :=
  ⟨⟨_, rfl⟩, by decide⟩
theorem witness_RingResultsDependOnNamedSourcesOnly :
    (Instr.aff 0 1 2 3).isRing = true ∧ State.reset.FAULT = false ∧ (scalars 26 [9]).FAULT = false ∧
    sameSources (.aff 0 1 2 3) State.reset (scalars 26 [9]) := by
  refine ⟨by decide, by decide, by decide, by decide, fun _ _ _ h => ?_, by decide, fun k h => ?_⟩ <;> cases h
theorem witness_LdiLoadsTheImmediate : faulted.FAULT = true ∧ State.reset.FAULT = false := by decide
theorem witness_MsetiWritesOneElement : faulted.FAULT = true ∧ State.reset.FAULT = false := by decide
theorem witness_VsetiWritesOneElement : faulted.FAULT = true ∧ State.reset.FAULT = false := by decide
theorem witness_MdimGivesTheDimension :
    faulted.FAULT = true ∧ State.reset.FAULT = false ∧ (0 : Elem).toNat = 0 ∧ 8 < (9 : Elem).toNat ∧
    1 ≤ (1 : Elem).toNat ∧ (1 : Elem).toNat ≤ 8 ∧ 1 ≤ (8 : Elem).toNat ∧ (8 : Elem).toNat ≤ 8 := by decide
theorem witness_AffComputesTheAffineTransform :
    let s := scalars 26 [25, 26]
    faulted.FAULT = true ∧ s.FAULT = false ∧ ¬ (s.getS 1).toNat < s.M.toNat ∧ (s.getS 0).toNat < s.M.toNat := by
  decide
theorem witness_AffiInvertsTheAffineTransform :
    let s := scalars 26 [25, 26, 13]
    faulted.FAULT = true ∧ s.FAULT = false ∧ ¬ (s.getS 1).toNat < s.M.toNat ∧
    (s.getS 2).toNat < s.M.toNat ∧ Nat.gcd (s.getS 2).toNat s.M.toNat ≠ 1 ∧
    (s.getS 0).toNat < s.M.toNat ∧ Nat.gcd (s.getS 0).toNat s.M.toNat = 1 := by decide
theorem witness_InvComputesTheModularInverse :
    let s := scalars 26 [25, 26, 0]
    faulted.FAULT = true ∧ s.FAULT = false ∧ ¬ (s.getS 1).toNat < s.M.toNat ∧
    (s.getS 2).toNat < s.M.toNat ∧ Nat.gcd (s.getS 2).toNat s.M.toNat ≠ 1 ∧
    (s.getS 0).toNat < s.M.toNat ∧ Nat.gcd (s.getS 0).toNat s.M.toNat = 1 := by decide
theorem witness_GcdWithTheModulus :
    let s := scalars 26 [25, 26, 0]
    faulted.FAULT = true ∧ s.FAULT = false ∧ ¬ (s.getS 1).toNat < s.M.toNat ∧
    (s.getS 0).toNat < s.M.toNat ∧ (s.getS 2).toNat = 0 := by decide
/-- The points (4, 17) and (24, 25) have solutions, (4, 17) and (24, 24) none; 26 is no ring element. -/
theorem witness_Solve2FindsTheSolutionSet :
    let s := scalars 26 [4, 17, 24, 25, 26]
    faulted.FAULT = true ∧ s.FAULT = false ∧ (s.getS 0).toNat < 26 ∧ (s.getS 1).toNat < 26 ∧
    (s.getS 2).toNat < 26 ∧ (s.getS 3).toNat < 26 ∧ ¬ (s.getS 4).toNat < s.M.toNat ∧
    Nat.gcd ((((24 : Int) - 4) % 26).toNat) 26 ∣ (((25 : Int) - 17) % 26).toNat ∧
    ¬ Nat.gcd ((((24 : Int) - 4) % 26).toNat) 26 ∣ (((24 : Int) - 17) % 26).toNat := by decide
theorem witness_SolkComputesTheKthSolution :
    1 ≤ solved.M.toNat ∧ faulted.FAULT = true ∧ solved.FAULT = false ∧
    solved.SOL.G.toNat ≤ (solved.getS 2).toNat ∧ (solved.getS 1).toNat < solved.SOL.G.toNat := by decide
/-- Register 1 has no dimension, register 2 an element that is 26, register 0 is the key; vector 1 holds a 26. -/
def hillState : State := withVector (withMatrix withKey 2 [[26]]) 1 [26]
theorem witness_VmulIsRowVectorTimesMatrix :
    faulted.FAULT = true ∧ hillState.FAULT = false ∧ (hillState.getDim 1).toNat = 0 ∧
    (hillState.getDim 2).toNat ≠ 0 ∧ ¬ hillState.blockRing 2 ∧ ¬ hillState.vecRing 1 1 ∧
    hillState.blockRing 0 ∧ hillState.vecRing 0 3 := by
  unfold State.blockRing State.vecRing
  decide
theorem witness_MvmulIsMatrixTimesColumnVector :
    faulted.FAULT = true ∧ hillState.FAULT = false ∧ (hillState.getDim 1).toNat = 0 ∧
    (hillState.getDim 2).toNat ≠ 0 ∧ ¬ hillState.blockRing 2 ∧ ¬ hillState.vecRing 1 1 ∧
    hillState.blockRing 0 ∧ hillState.vecRing 0 3 := witness_VmulIsRowVectorTimesMatrix
theorem witness_DetComputesTheDeterminant :
    faulted.FAULT = true ∧ hillState.FAULT = false ∧ hillState.getDim 1 = 0 ∧ hillState.getDim 2 ≠ 0 ∧
    ¬ hillState.blockRing 2 ∧ hillState.getDim 0 ≠ 0 ∧ hillState.blockRing 0 := by
  unfold State.blockRing
  decide
theorem witness_AdjComputesTheAdjugate :
    faulted.FAULT = true ∧ hillState.FAULT = false ∧ hillState.getDim 1 = 0 ∧ hillState.getDim 2 ≠ 0 ∧
    ¬ hillState.blockRing 2 ∧ hillState.getDim 0 ≠ 0 ∧ hillState.blockRing 0 := witness_DetComputesTheDeterminant
/-- The 1×1 matrix [25] has a unit as determinant, [13] has none. -/
def oneByOne : State := withMatrix (withMatrix State.reset 0 [[25]]) 1 [[13]]
theorem witness_MatinvComputesTheInverse :
    (oneByOne.FAULT = false ∧ oneByOne.getDim 0 ≠ 0 ∧ oneByOne.blockRing 0 ∧ oneByOne.getDim 1 ≠ 0 ∧
      oneByOne.blockRing 1) ∧
    Nat.gcd ((oneByOne.matrix 0).det % (oneByOne.M.toNat : Int)).toNat oneByOne.M.toNat = 1 ∧
    Nat.gcd ((oneByOne.matrix 1).det % (oneByOne.M.toNat : Int)).toNat oneByOne.M.toNat ≠ 1 := by
  unfold State.blockRing
  refine ⟨by decide, ?_, ?_⟩
  · rw [show (oneByOne.matrix 0).det = 25 from Matrix.det_fin_one _]; decide
  · rw [show (oneByOne.matrix 1).det = 13 from Matrix.det_fin_one _]; decide
theorem witness_OutsideTheLeadingBlockIsInvisible :
    (withKey.getDim 0).toNat ≤ (3 : Idx).val ∧ (withKey.getDim 0).toNat ≤ (7 : Idx).val := by decide
theorem witness_ReductionMayBeInterleaved :
    1 ≤ 26 ∧ State.reset.M.toNat = 26 ∧ detReduced 26 3 (withKey.entries 0) = 23 ∧
    Interleaved 26 (detExpr 3 (withKey.entries 0)) (-939) ∧ Interleaved 26 (detExpr 3 (withKey.entries 0)) 23 ∧
    Interleaved 26 (adjExpr 3 (withKey.entries 0) 1 0) 7 ∧
    Interleaved 26 (rowExpr 2 (fun _ => 25) (fun _ _ => 25) 0) 2 ∧
    Interleaved 26 (colExpr 2 (fun _ _ => 25) (fun _ => 25) 0) 2 :=
  ⟨by decide, by decide, by decide, interleaved_exact 26 (detExpr 3 (withKey.entries 0)),
    .reduce (interleaved_exact 26 (detExpr 3 (withKey.entries 0))),
    .reduce (interleaved_exact 26 (adjExpr 3 (withKey.entries 0) 1 0)),
    .add (.add (.num 0) (.reduce (.mul (.num 25) (.num 25)))) (.reduce (.mul (.num 25) (.num 25))),
    .add (.add (.num 0) (.reduce (.mul (.num 25) (.num 25)))) (.reduce (.mul (.num 25) (.num 25)))⟩
theorem witness_CommandsMayReduceIntermediates :
    let s := withVector (withMatrix { scalars 26 [25, 1] with SOL := ⟨2, 3, 13, 4, 17⟩ } 0 [[25]]) 0 [25]
    s.FAULT = false ∧ 1 ≤ s.M.toNat ∧ (s.getS 0).toNat < s.M.toNat ∧ 25 < s.M.toNat ∧
    ((s.getS 0).toNat * 25) % s.M.toNat = 1 % s.M.toNat ∧ (s.getS 1).toNat < s.SOL.G.toNat ∧ (2 : SReg) ≠ 3 ∧
    s.getDim 0 ≠ 0 ∧ (s.getDim 0).toNat ≤ 8 ∧ s.blockRing 0 ∧ s.vecRing 0 (s.getDim 0).toNat ∧
    Interleaved s.M.toNat (detExpr (s.getDim 0).toNat (s.entries 0)) 25 ∧
    ((25 : Int) * 25) % s.M.toNat = 1 % s.M.toNat := by
  intro s
  refine ⟨by decide, by decide, by decide, by decide, by decide, by decide, by decide, by decide, by decide,
    ?_, ?_, interleaved_exact s.M.toNat (detExpr (s.getDim 0).toNat (s.entries 0)), by decide⟩
  · unfold State.blockRing; decide
  · unfold State.vecRing; decide
theorem witness_AffineRoundTrip :
    let s := scalars 26 [25, 25, 25]
    s.FAULT = false ∧ (s.getS 0).toNat < s.M.toNat ∧ (s.getS 1).toNat < s.M.toNat ∧
    (s.getS 2).toNat < s.M.toNat ∧ Nat.gcd (s.getS 0).toNat s.M.toNat = 1 ∧ (3 : SReg) ≠ 0 ∧ (3 : SReg) ≠ 2 := by
  decide
theorem witness_SolverIsSound :
    let s := scalars 26 [4, 17, 24, 25]
    s.FAULT = false ∧ (s.getS 0).toNat < s.M.toNat ∧ (s.getS 1).toNat < s.M.toNat ∧
    (s.getS 2).toNat < s.M.toNat ∧ (s.getS 3).toNat < s.M.toNat := by decide
/-- The key (3, 5) lies on both points. -/
theorem witness_SolverIsComplete :
    let s := scalars 26 [4, 17, 24, 25]
    s.FAULT = false ∧ (s.getS 0).toNat < s.M.toNat ∧ (s.getS 1).toNat < s.M.toNat ∧
    (s.getS 2).toNat < s.M.toNat ∧ (s.getS 3).toNat < s.M.toNat ∧
    (3 * 4 + 5) % 26 = 17 ∧ (3 * 24 + 5) % 26 = 25 := by decide
theorem witness_SolverCountsTheSolutions :
    let s := scalars 26 [4, 17, 24, 25]
    s.FAULT = false ∧ (s.getS 0).toNat < s.M.toNat ∧ (s.getS 1).toNat < s.M.toNat ∧
    (s.getS 2).toNat < s.M.toNat ∧ (s.getS 3).toNat < s.M.toNat ∧
    Nat.gcd (((24 - 4 : Int) % 26).toNat) 26 ∣ ((25 - 17 : Int) % 26).toNat := by decide
/-- k1 holds the transpose of k0. -/
def transposed : State := withMatrix (withMatrix State.reset 0 [[1, 2], [3, 4]]) 1 [[1, 3], [2, 4]]
theorem witness_MvmulIsVmulOfTheTranspose :
    transposed.FAULT = false ∧ transposed.getDim 0 ≠ 0 ∧ transposed.getDim 1 = transposed.getDim 0 ∧
    (∀ i < (transposed.getDim 0).toNat, ∀ j < (transposed.getDim 0).toNat,
      transposed.K[(1 : KReg)].entry i j = transposed.K[(0 : KReg)].entry j i) ∧
    transposed.blockRing 0 ∧ transposed.vecRing 0 (transposed.getDim 0).toNat := by
  unfold State.blockRing State.vecRing
  decide
theorem witness_HillRoundTrip :
    (1 : KReg) ≠ 0 ∧ (withKey.getDim 0).toNat ≤ 8 ∧
    (∃ t, exec (.matinv 1 0) withKey = .next t ∧ t.FAULT = false) ∧
    withKey.vecRing 0 (withKey.getDim 0).toNat := by
  unfold State.vecRing
  exact ⟨by decide, by decide, ⟨_, rfl, by decide⟩, by decide⟩
theorem witness_InverseOfTheInverse :
    (withKey.getDim 0).toNat ≤ 8 ∧ ∃ t, exec (.matinv 0 0) withKey = .next t ∧ t.FAULT = false :=
  ⟨by decide, _, rfl, by decide⟩
/-- The key is invertible; the 1×1 matrix [13] is not. -/
theorem witness_InvertibilityCriterion :
    withKey.FAULT = false ∧ withKey.getDim 0 ≠ 0 ∧ (withKey.getDim 0).toNat ≤ 8 ∧ withKey.blockRing 0 ∧
    (stateOr withKey (exec (.matinv 1 0) withKey)).FAULT = false ∧
    oneByOne.FAULT = false ∧ oneByOne.getDim 1 ≠ 0 ∧ (oneByOne.getDim 1).toNat ≤ 8 ∧ oneByOne.blockRing 1 ∧
    (stateOr oneByOne (exec (.matinv 2 1) oneByOne)).FAULT = true := by
  unfold State.blockRing
  decide
theorem witness_EveryStepKeepsTheInvariants :
    State.reset.Inv ∧ step State.reset = .next State.reset.tick := by
  refine ⟨⟨by decide, ⟨by decide, by decide⟩, by decide, fun _ => by decide, fun h => ?_,
    by decide, by decide, fun w h => ?_⟩, step_tick _⟩
  · exact absurd h (by decide)
  · cases h
theorem witness_CommandsCompleteInAcceptanceOrder :
    State.noReset 3 (idleWith [offerEdge 3, waitEdge]) = true := by decide
theorem witness_StateIsAFunctionOfTheCompletedWords :
    State.noReset 3 (idleWith [offerEdge 3, waitEdge]) = true := by decide
theorem witness_NoResponseIsLost :
    (idleWith [offerEdge 3]).portCoherent ∧ State.noReset 3 (idleWith [offerEdge 3]) = true := by
  refine ⟨⟨by decide, by decide, fun w h => ?_⟩, by decide⟩
  cases h
theorem witness_EveryCommandCompletes :
    (busyWith 3 [waitEdge, waitEdge]).busy = true ∧
    ∀ e ∈ (busyWith 3 [waitEdge, waitEdge]).edges, e.rst = false := by decide

end Sys2Proof.Tests
end

section
/-! PROOF. Reduction mod m may be interleaved (spec/00_scope.md R17). The one idea: every value at hand, be it
reduced at each level or the one a command computes, is what some interleaved evaluation of one expression
reaches, and any two of those have the same residue. -/

namespace Sys2Proof.Machine

/-! ## Interleaved evaluations -/

section
variable {m : Nat} {e : RingExpr} {x v : Int}

/-- Any two interleaved evaluations of one expression are congruent. -/
theorem Interleaved.modEq_of_same (hm : 0 < m) (hv : Interleaved m e v) (hx : Interleaved m e x) :
    v ≡ x [ZMOD m] :=
  (hv.modEq hm).trans (hx.modEq hm).symm

/-- The residue of what an interleaved evaluation reaches is that of the exact value. -/
theorem Interleaved.residue_eq (hm : 0 < m) (hx : Interleaved m e x) : residue x m = residue e.exact m :=
  (residue_eq_iff _ _ hm).mpr (hx.modEq hm)

/-- A reached value that is reduced already is the residue of the exact value. -/
theorem Interleaved.eq_residue_of_lt {n : Nat} (hm : 0 < m) (hn : n < m) (h : Interleaved m e (n : Int)) :
    n = residue e.exact m := by
  rw [← h.residue_eq hm, residue_of_lt hn]

/-- Reducing every term and every partial sum is an interleaved evaluation of the sum. -/
theorem sumReduced_interleaved {f : Nat → Int} {g : Nat → RingExpr} (h : ∀ i, Interleaved m (g i) (f i))
    (n : Nat) : Interleaved m (sumExpr n g) (sumReduced m n f) := by
  induction n with
  | zero => exact .reduce (.num 0)
  | succ k ih => exact .reduce (.add ih (.reduce (h k)))

/-- Cofactor expansion reduced at every level is an interleaved evaluation of the determinant. -/
theorem detReduced_interleaved (m n : Nat) (A : Nat → Nat → Int) :
    Interleaved m (detExpr n A) (detReduced m n A) := by
  induction n generalizing A with
  | zero => exact .reduce (.num 1)
  | succ k ih =>
    exact sumReduced_interleaved (fun j => .mul (.reduce (.mul (.num _) (.num _))) (ih (minor A 0 j))) (k + 1)

/-- Cofactor expansion reduced at every level ends with a residue. -/
theorem detReduced_lt (hm : 0 < m) (n : Nat) (A : Nat → Nat → Int) : detReduced m n A < m := by
  cases n with
  | zero => exact residue_lt _ hm
  | succ k =>
    rw [detReduced, sumReduced]
    exact residue_lt _ hm

/-- An entry of the adjugate as an expression has the value of the signed minor. -/
theorem adjExpr_exact (n : Nat) (A : Nat → Nat → Int) (i j : Nat) :
    (adjExpr n A i j).exact = (-1) ^ (j + i) * idet (n - 1) (minor A j i) := by
  rw [adjExpr, RingExpr.exact, RingExpr.exact, detExpr_exact]

/-! ## The model's values are residues of exact values -/

theorem residue_detExpr (m n : Nat) (A : Nat → Nat → Int) :
    residue (detExpr n A).exact m = residue (idet n A) m := by
  rw [detExpr_exact]

theorem residue_adjExpr (m n : Nat) (A : Nat → Nat → Int) (i j : Nat) :
    residue (adjExpr n A i j).exact m = adjugate n A m i j := by
  rw [adjExpr_exact, adjugate, cofactor]

theorem residue_rowExpr (m n : Nat) (v : Nat → Int) (A : Nat → Nat → Int) (j : Nat) :
    residue (rowExpr n v A j).exact m = rowTimes n v A m j := by
  rw [rowExpr_exact, rowTimes]

theorem residue_colExpr (m n : Nat) (A : Nat → Nat → Int) (v : Nat → Int) (i : Nat) :
    residue (colExpr n A v i).exact m = timesCol n A v m i := by
  rw [colExpr_exact, timesCol]

theorem detReduced_eq (hm : 0 < m) (n : Nat) (A : Nat → Nat → Int) :
    detReduced m n A = residue (idet n A) m := by
  rw [(detReduced_interleaved m n A).eq_residue_of_lt hm (detReduced_lt hm n A), residue_detExpr]

theorem adjugateReduced_eq (hm : 0 < m) (n : Nat) (A : Nat → Nat → Int) (i j : Nat) :
    adjugateReduced m n A i j = adjugate n A m i j := by
  have h : Interleaved m (adjExpr n A i j) ((-1) ^ (j + i) * detReduced m (n - 1) (minor A j i)) :=
    .mul (.num _) (detReduced_interleaved _ _ _)
  rw [adjugateReduced, h.residue_eq hm, residue_adjExpr]

end

/-- Settles O44: each side is the residue of what an interleaved evaluation of one expression reaches. -/
theorem reductionMayBeInterleaved : Obligations.ReductionMayBeInterleaved := by
  intro n m A v hm
  refine ⟨detReduced_eq hm n A, ?_, adjugateReduced_eq hm n A, fun j => sumReduced_eq hm n _,
    fun i => sumReduced_eq hm n _, fun x => ⟨?_, ?_, ?_, ?_⟩⟩
  · rintro s k rfl
    exact detReduced_eq hm n (s.entries k)
  · intro h
    rw [h.residue_eq hm, residue_detExpr]
  · intro i j h
    rw [h.residue_eq hm, residue_adjExpr]
  · intro j h
    rw [h.residue_eq hm, residue_rowExpr]
  · intro i h
    rw [h.residue_eq hm, residue_colExpr]

end Sys2Proof.Machine
end

section
/-! PROOF. What the ring commands that compute with +, − and × do on operands on which they complete: one
equation per command. -/

namespace Sys2Proof.Machine

variable {s : State} (hF : s.FAULT = false)
include hF

theorem exec_aff_completes (sd : SReg) {sa sx sb : SReg} (ha : (s.getS sa).toNat < s.M.toNat)
    (hx : (s.getS sx).toNat < s.M.toNat) (hb : (s.getS sb).toNat < s.M.toNat) :
    exec (.aff sd sa sx sb) s = .next (s.setS sd
      (toElem (((s.getS sa).toNat * (s.getS sx).toNat + (s.getS sb).toNat) % s.M.toNat))).lock := by
  obtain ⟨h, -⟩ | ⟨-, e⟩ := affBody_cases s sd sa sx sb
  · exact absurd ⟨ha, hx, hb⟩ h
  · exact congrArg Host.Outcome.next (runRing_ok s _ _ hF e)

theorem exec_affi_completes (sd : SReg) {sa sy sb : SReg} (ha : (s.getS sa).toNat < s.M.toNat)
    (hy : (s.getS sy).toNat < s.M.toNat) (hb : (s.getS sb).toNat < s.M.toNat)
    (hg : Nat.gcd (s.getS sa).toNat s.M.toNat = 1) :
    exec (.affi sd sa sy sb) s = .next (s.setS sd (toElem ((modinv (s.getS sa).toNat s.M.toNat *
      residue ((s.getS sy).toNat - (s.getS sb).toNat) s.M.toNat) % s.M.toNat))).lock := by
  obtain ⟨h, -⟩ | ⟨-, h, -⟩ | ⟨-, -, e⟩ := affiBody_cases s sd sa sy sb
  · exact absurd ⟨ha, hy, hb⟩ h
  · exact absurd hg h
  · exact congrArg Host.Outcome.next (runRing_ok s _ _ hF e)

theorem exec_solve2_completes (sd : SReg) {sx1 sy1 sx2 sy2 : SReg} (hx1 : (s.getS sx1).toNat < s.M.toNat)
    (hy1 : (s.getS sy1).toNat < s.M.toNat) (hx2 : (s.getS sx2).toNat < s.M.toNat)
    (hy2 : (s.getS sy2).toNat < s.M.toNat) :
    let c := solve (s.getS sx1) (s.getS sy1) (s.getS sx2) (s.getS sy2) s.M.toNat
    exec (.solve2 sd sx1 sy1 sx2 sy2) s = .next ((s.setSol c).setS sd c.G).lock := by
  obtain ⟨h, -⟩ | ⟨-, e⟩ := solve2Body_cases s sd sx1 sy1 sx2 sy2
  · exact absurd ⟨hx1, hy1, hx2, hy2⟩ h
  · exact congrArg Host.Outcome.next (runRing_ok s _ _ hF e)

theorem exec_solk_completes (sda sdb : SReg) {sk : SReg} (hk : (s.getS sk).toNat < s.SOL.G.toNat) :
    exec (.solk sda sdb sk) s = .next ((s.setS sda
      (toElem (s.SOL.coeff s.M.toNat (s.getS sk).toNat))).setS sdb
      (toElem (s.SOL.offset s.M.toNat (s.getS sk).toNat))).lock := by
  obtain ⟨h, -⟩ | ⟨-, e⟩ := solkBody_cases s sda sdb sk
  · exact absurd hk (not_lt.mpr h)
  · exact congrArg Host.Outcome.next (runRing_ok s _ _ hF e)

variable {ks : KReg} (hd : s.getDim ks ≠ 0) (hb : s.blockRing ks)
include hd hb

theorem exec_vmul_completes (vd : VReg) {vs : VReg} (hv : s.vecRing vs (s.getDim ks).toNat) :
    exec (.vmul vd vs ks) s = .next (s.setVec vd (s.getDim ks).toNat fun j =>
      toElem (rowTimes (s.getDim ks).toNat (s.vecEntries vs) (s.entries ks) s.M.toNat j)).lock := by
  obtain ⟨h, -⟩ | ⟨-, h, -⟩ | ⟨-, -, -, e⟩ := vmulBody_cases s vd vs ks
  · exact absurd h hd
  · exact absurd ⟨hb, hv⟩ h
  · exact congrArg Host.Outcome.next (runRing_ok s _ _ hF e)

theorem exec_mvmul_completes (vd : VReg) {vs : VReg} (hv : s.vecRing vs (s.getDim ks).toNat) :
    exec (.mvmul vd vs ks) s = .next (s.setVec vd (s.getDim ks).toNat fun i =>
      toElem (timesCol (s.getDim ks).toNat (s.entries ks) (s.vecEntries vs) s.M.toNat i)).lock := by
  obtain ⟨h, -⟩ | ⟨-, h, -⟩ | ⟨-, -, -, e⟩ := mvmulBody_cases s vd vs ks
  · exact absurd h hd
  · exact absurd ⟨hb, hv⟩ h
  · exact congrArg Host.Outcome.next (runRing_ok s _ _ hF e)

theorem exec_det_completes (sd : SReg) :
    exec (.det sd ks) s =
      .next (s.setS sd (toElem (s.detResidue ks (s.getDim ks).toNat))).lock := by
  obtain ⟨h, -⟩ | ⟨-, h, -⟩ | ⟨-, -, e⟩ := detBody_cases s sd ks
  · exact absurd h hd
  · exact absurd hb h
  · exact congrArg Host.Outcome.next (runRing_ok s _ _ hF e)

theorem exec_adj_completes (kd : KReg) :
    exec (.adj kd ks) s = .next (s.setBlock kd (s.getDim ks) fun i j =>
      toElem (adjugate (s.getDim ks).toNat (s.entries ks) s.M.toNat i j)).lock := by
  obtain ⟨h, -⟩ | ⟨-, h, -⟩ | ⟨-, -, e⟩ := adjBody_cases s kd ks
  · exact absurd h hd
  · exact absurd hb h
  · exact congrArg Host.Outcome.next (runRing_ok s _ _ hF e)

/-- MATINV on ring elements completes exactly when the determinant is a unit (R134). -/
theorem exec_matinv_on_ring (kd : KReg) :
    let m := s.M.toNat
    let det := s.detResidue ks (s.getDim ks).toNat
    (Nat.gcd det m ≠ 1 ∧
      exec (.matinv kd ks) s = .next (s.raise (Instr.matinv kd ks).opcode .singular).lock) ∨
    (Nat.gcd det m = 1 ∧ exec (.matinv kd ks) s = .next (s.setBlock kd (s.getDim ks) fun i j =>
      toElem ((modinv det m * adjugate (s.getDim ks).toNat (s.entries ks) m i j) % m)).lock) := by
  obtain ⟨h, -⟩ | ⟨-, h, -⟩ | ⟨-, -, hg, e⟩ | ⟨-, -, hg, e⟩ := matinvBody_cases s kd ks
  · exact absurd h hd
  · exact absurd hb h
  · exact .inl ⟨hg, congrArg Host.Outcome.next (runRing_error s _ _ hF e)⟩
  · exact .inr ⟨hg, congrArg Host.Outcome.next (runRing_ok s _ _ hF e)⟩

end Sys2Proof.Machine
end

section
/-! PROOF. The commands' destination registers under interleaved reduction (spec/00_scope.md R17): what a command
computes is itself reached by an interleaved evaluation of its expression, so it has the residue of any other. -/

namespace Sys2Proof.Machine

/-! ## Stored residues -/

section
variable {M : Elem} {e : RingExpr} {v x : Int}

/-- A stored residue of one interleaved evaluation is the remainder of every other. -/
theorem toElem_residue_interleaved (hM : 0 < M.toNat) (hv : Interleaved M.toNat e v)
    (hx : Interleaved M.toNat e x) : ((toElem (residue v M.toNat)).toNat : Int) = x % M.toNat := by
  rw [toElem_mod_toNat M (residue_lt v hM), residue_cast v hM]
  exact hv.modEq_of_same hM hx

/-- The same for a natural number that a command computes and reduces. -/
theorem toElem_mod_interleaved {n : Nat} (hM : 0 < M.toNat) (hn : Interleaved M.toNat e (n : Int))
    (hx : Interleaved M.toNat e x) : ((toElem (n % M.toNat)).toNat : Int) = x % M.toNat := by
  rw [← residue_natCast]
  exact toElem_residue_interleaved hM hn hx

/-- The same for a residue of the exact value. -/
theorem toElem_exact_interleaved {n : Nat} (hM : 0 < M.toNat) (hn : residue e.exact M.toNat = n)
    (hx : Interleaved M.toNat e x) : ((toElem n).toNat : Int) = x % M.toNat := by
  subst hn
  exact toElem_residue_interleaved hM (interleaved_exact _ e) hx

end

/-! ## Divisors and inverses mod m -/

/-- The greatest common divisor with m is that of any congruent number. -/
theorem gcd_residue {a b : Int} {m : Nat} (hm : 0 < m) (h : a ≡ b [ZMOD m]) :
    Nat.gcd (residue a m) m = Int.gcd b m := by
  rw [← Int.gcd_natCast_natCast, residue_cast a hm, h.eq, Int.gcd_emod]

/-- A divisor of m divides the residue exactly when it divides any congruent number. -/
theorem dvd_residue_iff {a b : Int} {g m : Nat} (hm : 0 < m) (hg : g ∣ m) (h : a ≡ b [ZMOD m]) :
    g ∣ residue a m ↔ (g : Int) ∣ b := by
  rw [← Int.natCast_dvd_natCast, residue_cast a hm, h.eq]
  exact EuclideanDomain.dvd_mod_iff (Int.natCast_dvd_natCast.mpr hg)

/-- A number with an inverse mod m is a unit, and `modinv` is that inverse (R14). -/
theorem unit_of_mul_mod {a inv m : Nat} (hm : 0 < m) (hi : inv < m) (h : (a * inv) % m = 1 % m) :
    Nat.gcd a m = 1 ∧ inv = modinv a m := by
  have hg : Nat.gcd a m = 1 := Nat.coprime_of_mul_modEq_one inv h
  exact ⟨hg, modinv_unique hm hg hi h⟩

/-- An inverse of a number mod m is one of its residue. -/
theorem residue_mul_mod {d : Int} {inv m : Nat} (hm : 0 < m) (h : (d * inv) % m = 1 % m) :
    (residue d m * inv) % m = 1 % m := by
  have hr : ((residue d m * inv : Nat) : Int) ≡ ((1 : Nat) : Int) [ZMOD m] := by
    push_cast
    exact ((residue_modEq d hm).mul_right _).trans h
  exact Int.natCast_modEq_iff.mp hr

/-- The count of solutions (R104) is decided by any numbers congruent to the two differences. -/
theorem solve_count {x1 y1 x2 y2 M : Elem} {dx dy : Int} (hM : 0 < M.toNat)
    (hx : (x2.toNat : Int) - x1.toNat ≡ dx [ZMOD M.toNat]) (hy : (y2.toNat : Int) - y1.toNat ≡ dy [ZMOD M.toNat]) :
    (solve x1 y1 x2 y2 M.toNat).G.toNat =
      if ((Int.gcd dx M.toNat : Nat) : Int) ∣ dy then Int.gcd dx M.toNat else 0 := by
  have hg := gcd_residue hM hx
  have hdvd := dvd_residue_iff hM (hg ▸ Nat.gcd_dvd_right _ _) hy
  have hlt : Int.gcd dx M.toNat < 65536 :=
    lt_of_le_of_lt (hg ▸ Nat.gcd_le_right _ hM) M.isLt
  obtain ⟨hn, e⟩ | ⟨hn, e⟩ := solve_cases x1 y1 x2 y2 M.toNat
  · rw [hg, hdvd] at hn
    rw [e, if_neg hn]
    rfl
  · rw [hg, hdvd] at hn
    rw [e, if_pos hn, hg, toElem_toNat hlt]

/-! ## The scalar commands -/

section
variable {s : State} (hF : s.FAULT = false) (hM : 0 < s.M.toNat)
include hF hM

/-- AFF's register (R100). -/
theorem aff_interleaved (sd : SReg) {sa sx sb : SReg} (ha : (s.getS sa).toNat < s.M.toNat)
    (hx : (s.getS sx).toNat < s.M.toNat) (hb : (s.getS sb).toNat < s.M.toNat) :
    ∃ t, exec (.aff sd sa sx sb) s = .next t ∧ t.FAULT = false ∧ ∀ x, Interleaved s.M.toNat
      (.add (.mul (.num (s.getS sa).toNat) (.num (s.getS sx).toNat)) (.num (s.getS sb).toNat)) x →
      ((t.getS sd).toNat : Int) = x % s.M.toNat := by
  refine ⟨_, exec_aff_completes hF sd ha hx hb, hF, fun x h => ?_⟩
  rw [State.lock_getS, getS_setS_same]
  refine toElem_mod_interleaved hM ?_ h
  push_cast
  exact .add (.mul (.num _) (.num _)) (.num _)

/-- AFFI's register (R101): AFFI reduces the difference before it multiplies. -/
theorem affi_interleaved (sd : SReg) {sa sy sb : SReg} {inv : Nat} (ha : (s.getS sa).toNat < s.M.toNat)
    (hy : (s.getS sy).toNat < s.M.toNat) (hb : (s.getS sb).toNat < s.M.toNat) (hi : inv < s.M.toNat)
    (hinv : ((s.getS sa).toNat * inv) % s.M.toNat = 1 % s.M.toNat) :
    ∃ t, exec (.affi sd sa sy sb) s = .next t ∧ t.FAULT = false ∧ ∀ x, Interleaved s.M.toNat
      (.mul (.num inv) (.sub (.num (s.getS sy).toNat) (.num (s.getS sb).toNat))) x →
      ((t.getS sd).toNat : Int) = x % s.M.toNat := by
  obtain ⟨hg, rfl⟩ := unit_of_mul_mod hM hi hinv
  refine ⟨_, exec_affi_completes hF sd ha hy hb hg, hF, fun x h => ?_⟩
  rw [State.lock_getS, getS_setS_same]
  refine toElem_mod_interleaved hM ?_ h
  push_cast
  exact .mul (.num _) (.reduce (.sub (.num _) (.num _)))

/-- SOLVE2's count (R104). -/
theorem solve2_interleaved (sd : SReg) {sx1 sy1 sx2 sy2 : SReg} (hx1 : (s.getS sx1).toNat < s.M.toNat)
    (hy1 : (s.getS sy1).toNat < s.M.toNat) (hx2 : (s.getS sx2).toNat < s.M.toNat)
    (hy2 : (s.getS sy2).toNat < s.M.toNat) :
    ∃ t, exec (.solve2 sd sx1 sy1 sx2 sy2) s = .next t ∧ t.FAULT = false ∧ ∀ dx dy,
      Interleaved s.M.toNat (.sub (.num (s.getS sx2).toNat) (.num (s.getS sx1).toNat)) dx →
      Interleaved s.M.toNat (.sub (.num (s.getS sy2).toNat) (.num (s.getS sy1).toNat)) dy →
      (t.getS sd).toNat =
        if ((Int.gcd dx s.M.toNat : Nat) : Int) ∣ dy then Int.gcd dx s.M.toNat else 0 := by
  refine ⟨_, exec_solve2_completes hF sd hx1 hy1 hx2 hy2, hF, fun dx dy hdx hdy => ?_⟩
  rw [State.lock_getS, getS_setS_same]
  exact solve_count hM (hdx.modEq hM).symm (hdy.modEq hM).symm

/-- SOLK's two registers (R105): SOLK reduces the coefficient before it computes the offset. -/
theorem solk_interleaved {sda sdb sk : SReg} (hne : sda ≠ sdb) (hk : (s.getS sk).toNat < s.SOL.G.toNat) :
    let a : RingExpr := .add (.num s.SOL.A0.toNat) (.mul (.num (s.getS sk).toNat) (.num s.SOL.MP.toNat))
    ∃ t, exec (.solk sda sdb sk) s = .next t ∧ t.FAULT = false ∧
      (∀ x, Interleaved s.M.toNat a x → ((t.getS sda).toNat : Int) = x % s.M.toNat) ∧
      ∀ x, Interleaved s.M.toNat (.sub (.num s.SOL.Y1.toNat) (.mul a (.num s.SOL.X1.toNat))) x →
        ((t.getS sdb).toNat : Int) = x % s.M.toNat := by
  intro a
  have ha : Interleaved s.M.toNat a ((s.SOL.A0.toNat + (s.getS sk).toNat * s.SOL.MP.toNat : Nat) : Int) := by
    push_cast
    exact .add (.num _) (.mul (.num _) (.num _))
  refine ⟨_, exec_solk_completes hF sda sdb hk, hF, fun x h => ?_, fun x h => ?_⟩
  · rw [State.lock_getS, getS_setS, if_neg hne, getS_setS_same]
    exact toElem_mod_interleaved hM ha h
  · rw [State.lock_getS, getS_setS_same]
    have hc : Interleaved s.M.toNat a (s.SOL.coeff s.M.toNat (s.getS sk).toNat : Nat) := by
      rw [SolverCtx.coeff, ← residue_natCast]
      exact .reduce ha
    exact toElem_residue_interleaved hM (.sub (.num _) (.mul hc (.num _))) h

end

/-! ## The matrix commands -/

section
variable {s : State} {ks : KReg} (hF : s.FAULT = false) (hM : 0 < s.M.toNat) (hd : s.getDim ks ≠ 0)
  (hb : s.blockRing ks)
include hF hM hd hb

/-- DET's register (R132). -/
theorem det_interleaved (sd : SReg) : ∃ t, exec (.det sd ks) s = .next t ∧ t.FAULT = false ∧
    ∀ x, Interleaved s.M.toNat (detExpr (s.getDim ks).toNat (s.entries ks)) x →
      ((t.getS sd).toNat : Int) = x % s.M.toNat := by
  refine ⟨_, exec_det_completes hF hd hb sd, hF, fun x h => ?_⟩
  rw [State.lock_getS, getS_setS_same]
  exact toElem_exact_interleaved hM (residue_detExpr _ _ _) h

variable (h8 : (s.getDim ks).toNat ≤ 8)
include h8

/-- VMUL's elements (R120). -/
theorem vmul_interleaved (vd : VReg) {vs : VReg} (hv : s.vecRing vs (s.getDim ks).toNat) :
    ∃ t, exec (.vmul vd vs ks) s = .next t ∧ t.FAULT = false ∧ ∀ j < (s.getDim ks).toNat, ∀ x,
      Interleaved s.M.toNat (rowExpr (s.getDim ks).toNat (s.vecEntries vs) (s.entries ks) j) x →
      ((t.vecAt vd j).toNat : Int) = x % s.M.toNat := by
  refine ⟨_, exec_vmul_completes hF hd hb vd hv, hF, fun j hj x h => ?_⟩
  rw [State.lock_vecAt, vecAt_setVec _ _ _ _ _ (by omega), if_pos ⟨rfl, hj⟩]
  exact toElem_exact_interleaved hM (residue_rowExpr _ _ _ _ _) h

/-- MVMUL's elements (R121). -/
theorem mvmul_interleaved (vd : VReg) {vs : VReg} (hv : s.vecRing vs (s.getDim ks).toNat) :
    ∃ t, exec (.mvmul vd vs ks) s = .next t ∧ t.FAULT = false ∧ ∀ i < (s.getDim ks).toNat, ∀ x,
      Interleaved s.M.toNat (colExpr (s.getDim ks).toNat (s.entries ks) (s.vecEntries vs) i) x →
      ((t.vecAt vd i).toNat : Int) = x % s.M.toNat := by
  refine ⟨_, exec_mvmul_completes hF hd hb vd hv, hF, fun i hi x h => ?_⟩
  rw [State.lock_vecAt, vecAt_setVec _ _ _ _ _ (by omega), if_pos ⟨rfl, hi⟩]
  exact toElem_exact_interleaved hM (residue_colExpr _ _ _ _ _) h

/-- ADJ's block (R133). -/
theorem adj_interleaved (kd : KReg) : ∃ t, exec (.adj kd ks) s = .next t ∧ t.FAULT = false ∧
    ∀ i < (s.getDim ks).toNat, ∀ j < (s.getDim ks).toNat, ∀ x,
      Interleaved s.M.toNat (adjExpr (s.getDim ks).toNat (s.entries ks) i j) x →
      ((t.K[kd].entry i j).toNat : Int) = x % s.M.toNat := by
  refine ⟨_, exec_adj_completes hF hd hb kd, hF, fun i hi j hj x h => ?_⟩
  rw [State.lock_K, entry_setBlock _ _ _ _ _ (by omega) (by omega), if_pos ⟨rfl, hi, hj⟩]
  exact toElem_exact_interleaved hM (residue_adjExpr _ _ _ _ _) h

/-- MATINV's completion and its block (R134): however evaluated, the determinant has the residue that MATINV
tests and inverts, and MATINV reduces the adjugate before it multiplies. -/
theorem matinv_interleaved (kd : KReg) : ∃ t, exec (.matinv kd ks) s = .next t ∧
    ∀ d, Interleaved s.M.toNat (detExpr (s.getDim ks).toNat (s.entries ks)) d →
      (t.FAULT = false ↔ Int.gcd d s.M.toNat = 1) ∧
      ∀ inv : Nat, inv < s.M.toNat → (d * inv) % s.M.toNat = 1 % s.M.toNat →
        ∀ i < (s.getDim ks).toNat, ∀ j < (s.getDim ks).toNat, ∀ x,
          Interleaved s.M.toNat (.mul (.num inv) (adjExpr (s.getDim ks).toNat (s.entries ks) i j)) x →
          ((t.K[kd].entry i j).toNat : Int) = x % s.M.toNat := by
  have hdet {d : Int} (h : Interleaved s.M.toNat (detExpr (s.getDim ks).toNat (s.entries ks)) d) :
      s.detResidue ks (s.getDim ks).toNat = residue d s.M.toNat := by
    rw [h.residue_eq hM, residue_detExpr, State.detResidue]
  obtain ⟨hg, e⟩ | ⟨hg, e⟩ := exec_matinv_on_ring hF hd hb kd
  · refine ⟨_, e, fun d h => ?_⟩
    rw [hdet h] at hg
    refine ⟨iff_of_false nofun ?_, fun inv hi hinv => ?_⟩
    · rwa [← gcd_residue hM (Int.ModEq.refl d)]
    · exact absurd (unit_of_mul_mod hM hi (residue_mul_mod hM hinv)).1 hg
  · refine ⟨_, e, fun d h => ?_⟩
    rw [hdet h] at hg ⊢
    refine ⟨iff_of_true hF ?_, fun inv hi hinv i hi' j hj x hx => ?_⟩
    · rwa [← gcd_residue hM (Int.ModEq.refl d)]
    · obtain ⟨-, rfl⟩ := unit_of_mul_mod hM hi (residue_mul_mod hM hinv)
      rw [State.lock_K, entry_setBlock _ _ _ _ _ (by omega) (by omega), if_pos ⟨rfl, hi', hj⟩]
      refine toElem_mod_interleaved hM ?_ hx
      push_cast
      rw [← residue_adjExpr]
      exact .mul (.num _) (.reduce (interleaved_exact _ _))

end

/-- Settles O60: what a command computes is reached by an interleaved evaluation, command by command. -/
theorem commandsMayReduceIntermediates : Obligations.CommandsMayReduceIntermediates := by
  intro s hF hM m S ring
  refine ⟨fun sd _ _ _ ha hx hb => aff_interleaved hF hM sd ha hx hb,
    fun sd _ _ _ _ ha hy hb hi hinv => affi_interleaved hF hM sd ha hy hb hi hinv,
    fun sd _ _ _ _ hx1 hy1 hx2 hy2 => solve2_interleaved hF hM sd hx1 hy1 hx2 hy2,
    fun _ _ _ hne hk => solk_interleaved hF hM hne hk, fun ks hd h8 hb => ?_⟩
  exact ⟨fun vd _ hv => ⟨vmul_interleaved hF hM hd hb h8 vd hv, mvmul_interleaved hF hM hd hb h8 vd hv⟩,
    det_interleaved hF hM hd hb,
    fun kd => ⟨adj_interleaved hF hM hd hb h8 kd, matinv_interleaved hF hM hd hb h8 kd⟩⟩

end Sys2Proof.Machine
end

section
/-! PROOF. A command that the fault state squashes as a check and a write: the check answers the cause it raises, if
any, and the write is a total function of the values it reads (`src`) and of the state it changes. What a command
reads, what it changes and what its writes commute with are then one case split each. -/

namespace Sys2Proof.Machine

/-! ## Check and write -/

/-- A scalar to invert or a determinant is a unit, or the cause that says it is none (spec/60_exceptions.md
R158). -/
def requireUnit (c : Cause) (a m : Nat) : Except Cause Unit :=
  if Nat.gcd a m ≠ 1 then .error c else .ok ()

/-- The checks of a command that the fault state squashes, in their order of priority (spec/60_exceptions.md
R157). -/
def commandCheck (i : Instr) (s : State) : Except Cause Unit :=
  match i with
  | .setm imm => if s.MLOCK = true ∨ imm = 0 then .error .cfg else .ok ()
  | .mdim _ n => if n.toNat = 0 ∨ n.toNat > Config.nmax then .error .cfg else .ok ()
  | .affi _ sa _ _ | .inv _ sa => do
    requireRing s (i.scalarSources.map s.getS)
    requireUnit .noninv (s.getS sa).toNat s.M.toNat
  | .aff .. | .gcd .. | .solve2 .. => requireRing s (i.scalarSources.map s.getS)
  | .solk _ _ sk => if (s.getS sk).toNat ≥ s.SOL.G.toNat then .error .range else .ok ()
  | .vmul _ vs ks | .mvmul _ vs ks => do
    let _ ← readMatVec s ks vs
    pure ()
  | .det _ ks | .adj _ ks => do
    let _ ← readMatrix s ks
    pure ()
  | .matinv _ ks => do
    let n ← readMatrix s ks
    requireUnit .singular (s.detResidue ks n) s.M.toNat
  | .nop | .clrerr | .rdstat | .ldi .. | .rds _ | .mseti .. | .vseti .. | .rdm .. | .rdv .. | .rddim _ => .ok ()

/-- What a command that the fault state squashes writes into `t` when its checks pass, computed from the operands
that `src` holds; `MLOCK` of a ring command apart. -/
def commandWrite (i : Instr) (src t : State) : State :=
  let m := src.M.toNat
  match i with
  | .setm imm => t.setModulus imm
  | .ldi sd imm => t.setS sd imm
  | .mdim kd n => t.setDim kd (n.setWidth 4)
  | .mseti kd a b imm => t.setK kd a b imm
  | .vseti vd a imm => t.setV vd a imm
  | .aff sd sa sx sb =>
    t.setS sd (toElem (((src.getS sa).toNat * (src.getS sx).toNat + (src.getS sb).toNat) % m))
  | .affi sd sa sy sb => t.setS sd (toElem ((modinv (src.getS sa).toNat m *
      residue (((src.getS sy).toNat : Int) - ((src.getS sb).toNat : Int)) m) % m))
  | .inv sd ss => t.setS sd (toElem (modinv (src.getS ss).toNat m))
  | .gcd sd ss => t.setS sd (toElem (Nat.gcd (src.getS ss).toNat m))
  | .solve2 sd sx1 sy1 sx2 sy2 =>
    let c := solve (src.getS sx1) (src.getS sy1) (src.getS sx2) (src.getS sy2) m
    (t.setSol c).setS sd c.G
  | .solk sda sdb sk => (t.setS sda (toElem (src.SOL.coeff m (src.getS sk).toNat))).setS sdb
      (toElem (src.SOL.offset m (src.getS sk).toNat))
  | .vmul vd vs ks => t.setVec vd (src.getDim ks).toNat fun j =>
      toElem (rowTimes (src.getDim ks).toNat (src.vecEntries vs) (src.entries ks) m j)
  | .mvmul vd vs ks => t.setVec vd (src.getDim ks).toNat fun a =>
      toElem (timesCol (src.getDim ks).toNat (src.entries ks) (src.vecEntries vs) m a)
  | .det sd ks => t.setS sd (toElem (src.detResidue ks (src.getDim ks).toNat))
  | .adj kd ks => t.setBlock kd (src.getDim ks) fun a b =>
      toElem (adjugate (src.getDim ks).toNat (src.entries ks) m a b)
  | .matinv kd ks => t.setBlock kd (src.getDim ks) fun a b =>
      toElem ((modinv (src.detResidue ks (src.getDim ks).toNat) m *
        adjugate (src.getDim ks).toNat (src.entries ks) m a b) % m)
  | .nop | .clrerr | .rdstat | .rds _ | .rdm .. | .rdv .. | .rddim _ => t

/-- The pseudocode that a check and a write make up. -/
def commandBody (i : Instr) (s : State) : Result := do
  commandCheck i s
  pure (commandWrite i s s)

/-- A dimension that a matrix command's operand check answers is that of the register. -/
theorem readMatrix_bind {α : Type} (s : State) (k : KReg) (f : Nat → Except Cause α) :
    (readMatrix s k >>= f) = readMatrix s k >>= fun _ => f (s.getDim k).toNat := by
  obtain ⟨-, e⟩ | ⟨-, -, e⟩ | ⟨-, -, e⟩ := readMatrix_cases s k <;> rw [e] <;> rfl

theorem readMatVec_bind {α : Type} (s : State) (k : KReg) (v : VReg) (f : Nat → Except Cause α) :
    (readMatVec s k v >>= f) = readMatVec s k v >>= fun _ => f (s.getDim k).toNat := by
  obtain ⟨-, e⟩ | ⟨-, -, e⟩ | ⟨-, -, -, e⟩ := readMatVec_cases s k v <;> rw [e] <;> rfl

theorem requireUnit_bind {α : Type} (c : Cause) (a m : Nat) (r : Except Cause α) :
    (requireUnit c a m >>= fun _ => r) = if Nat.gcd a m ≠ 1 then .error c else r := by
  unfold requireUnit
  split <;> rfl

theorem runCommand_congr (op : BitVec 8) {b c : State → Result} {s : State} (h : b s = c s) :
    runCommand op b s = runCommand op c s := by
  unfold runCommand
  rw [h]

theorem runRing_congr (op : BitVec 8) {b c : State → Result} {s : State} (h : b s = c s) :
    runRing op b s = runRing op c s := by
  unfold runRing
  rw [h]

theorem setmBody_eq (imm : Elem) (s : State) : setmBody imm s = commandBody (.setm imm) s := by
  obtain ⟨hl, e⟩ | ⟨-, h0, e⟩ | ⟨hl, h0, e⟩ := setmBody_cases s imm
  · rw [e, commandBody, commandCheck, if_pos (.inl hl), error_bind]
  · rw [e, commandBody, commandCheck, if_pos (.inr h0), error_bind]
  · rw [e, commandBody, commandCheck, if_neg (not_or.mpr ⟨by simp [hl], h0⟩), ok_bind]
    rfl

/-- A command that the fault state squashes runs its check and its write, in a ring command's frame or in the
other one. -/
theorem exec_eq_run {i : Instr} (ha : i.alwaysExecutes = false) (s : State) :
    exec i s = .next (if i.isRing then runRing i.opcode (commandBody i) s
      else runCommand i.opcode (commandBody i) s) := by
  cases i
  case nop | clrerr | rdstat | rds | rdm | rdv | rddim => nomatch ha
  case ldi | mseti | vseti | aff | gcd | solve2 => rfl
  case setm imm => exact congrArg Host.Outcome.next (runCommand_congr _ (setmBody_eq imm s))
  case mdim kd n =>
    refine congrArg Host.Outcome.next (runCommand_congr _ ?_)
    simp only [mdimBody, commandBody, commandCheck]
    split <;> rfl
  case solk sda sdb sk =>
    refine congrArg Host.Outcome.next (runRing_congr _ ?_)
    simp only [solkBody, commandBody, commandCheck]
    split <;> rfl
  case affi | inv =>
    refine congrArg Host.Outcome.next (runRing_congr _ ?_)
    simp only [affiBody, invBody, commandBody, commandCheck, bind_assoc, requireUnit_bind]
    rfl
  case vmul | mvmul =>
    refine congrArg Host.Outcome.next (runRing_congr _ ((readMatVec_bind s _ _ _).trans ?_))
    simp only [commandBody, commandCheck, bind_assoc]
    rfl
  case det | adj =>
    refine congrArg Host.Outcome.next (runRing_congr _ ((readMatrix_bind s _ _).trans ?_))
    simp only [commandBody, commandCheck, bind_assoc]
    rfl
  case matinv kd ks =>
    refine congrArg Host.Outcome.next (runRing_congr _ ((readMatrix_bind s ks _).trans ?_))
    simp only [commandBody, commandCheck, readMatrix_bind s ks, bind_assoc, requireUnit_bind]
    rfl

section
variable {i : Instr} {s : State}

/-- A command that the fault state squashes does nothing there (spec/60_exceptions.md R155). -/
theorem exec_squashed (ha : i.alwaysExecutes = false) (hF : s.FAULT = true) : exec i s = .next s := by
  rw [exec_eq_run ha, runRing_squashed _ _ _ hF, runCommand_squashed _ _ _ hF, ite_self]

/-- Outside the fault state, with its checks passed, it makes its writes. -/
theorem exec_completes (ha : i.alwaysExecutes = false) (hF : s.FAULT = false) (hc : commandCheck i s = .ok ()) :
    exec i s = .next ((commandWrite i s s).lockedBy i) := by
  have hb : commandBody i s = .ok (commandWrite i s s) := by rw [commandBody, hc, ok_bind]; rfl
  rw [exec_eq_run ha, runRing_ok _ _ _ hF hb, runCommand_ok _ _ _ hF hb, State.lockedBy]

/-- Outside the fault state, with a check failed, it enters the fault state with the check's cause. -/
theorem exec_faults {c : Cause} (ha : i.alwaysExecutes = false) (hF : s.FAULT = false)
    (hc : commandCheck i s = .error c) : exec i s = .next ((s.raise i.opcode c).lockedBy i) := by
  have hb : commandBody i s = .error c := by rw [commandBody, hc, error_bind]
  rw [exec_eq_run ha, runRing_error _ _ _ hF hb, runCommand_error _ _ _ hF hb, State.lockedBy]

/-- Everything a command can do: always executed, nothing, a response or leaving the fault state; otherwise
nothing in the fault state, and outside it its writes or fault entry. -/
theorem exec_cases {t : State} (h : exec i s = .next t) :
    (i.alwaysExecutes = true ∧ (t = s ∨ (i.isRead = true ∧ ∃ v, t = s.respond v) ∨
      (i = .clrerr ∧ t = s.clearFault))) ∨
    (i.alwaysExecutes = false ∧ s.FAULT = true ∧ t = s) ∨
    (i.alwaysExecutes = false ∧ s.FAULT = false ∧ commandCheck i s = .ok () ∧
      t = (commandWrite i s s).lockedBy i) ∨
    (i.alwaysExecutes = false ∧ s.FAULT = false ∧ ∃ c, commandCheck i s = .error c ∧
      t = (s.raise i.opcode c).lockedBy i) := by
  cases ha : i.alwaysExecutes
  · right
    cases hF : s.FAULT
    · right
      cases hc : commandCheck i s with
      | ok u => exact .inl ⟨rfl, rfl, rfl, Host.Outcome.next.inj (h.symm.trans (exec_completes ha hF hc))⟩
      | error c =>
        exact .inr ⟨rfl, rfl, c, rfl, Host.Outcome.next.inj (h.symm.trans (exec_faults ha hF hc))⟩
    · exact .inl ⟨rfl, rfl, Host.Outcome.next.inj (h.symm.trans (exec_squashed ha hF))⟩
  · refine .inl ⟨rfl, ?_⟩
    cases i
    case nop => exact .inl (Host.Outcome.next.inj h.symm)
    case clrerr => exact .inr (.inr ⟨rfl, Host.Outcome.next.inj h.symm⟩)
    case rdstat | rds | rdm | rdv | rddim => exact .inr (.inl ⟨rfl, _, Host.Outcome.next.inj h.symm⟩)
    all_goals nomatch ha

end

end Sys2Proof.Machine
end

section
/-! PROOF. What a command writes and leaves (spec/10_state.md R24, R25, R33, R34): the columns of the access matrix
under each write, then under each command, then `MLOCK` and `M`. -/

namespace Sys2Proof.Machine

/-! ## Columns -/

section
variable {c : Column} {s t : State} {i : Instr}

theorem sameColumn_refl (c : Column) (s : State) : sameColumn c s s := by
  cases c with
  | RSP => exact ⟨rfl, rfl⟩
  | _ => rfl

theorem sameColumn_withS (S : Vector Elem 16) (hc : c ≠ .S) : sameColumn c s { s with S := S } := by
  cases c with
  | S => exact absurd rfl hc
  | RSP => exact ⟨rfl, rfl⟩
  | _ => rfl

theorem sameColumn_withK (K : Vector MatReg 4) (hc : c ≠ .K) : sameColumn c s { s with K := K } := by
  cases c with
  | K => exact absurd rfl hc
  | RSP => exact ⟨rfl, rfl⟩
  | _ => rfl

theorem sameColumn_withV (V : Vector (Vector Elem 8) 4) (hc : c ≠ .V) : sameColumn c s { s with V := V } := by
  cases c with
  | V => exact absurd rfl hc
  | RSP => exact ⟨rfl, rfl⟩
  | _ => rfl

theorem sameColumn_setSol_setS (x : SolverCtx) (r : SReg) (y : Elem) (hS : c ≠ .S) (hSol : c ≠ .SOL) :
    sameColumn c s ((s.setSol x).setS r y) := by
  cases c with
  | S => exact absurd rfl hS
  | SOL => exact absurd rfl hSol
  | RSP => exact ⟨rfl, rfl⟩
  | _ => rfl

theorem sameColumn_setModulus (m : Elem) (hM : c ≠ .M) (hL : c ≠ .MLOCK) : sameColumn c s (s.setModulus m) := by
  cases c with
  | M => exact absurd rfl hM
  | MLOCK => exact absurd rfl hL
  | RSP => exact ⟨rfl, rfl⟩
  | _ => rfl

theorem sameColumn_respond (v : Word) (hc : c ≠ .RSP) : sameColumn c s (s.respond v) := by
  cases c with
  | RSP => exact absurd rfl hc
  | _ => rfl

theorem mlock_mem_writes (hr : i.isRing = true) : Column.MLOCK ∈ i.writes := by
  revert hr
  cases i <;> simp [Instr.isRing, Instr.writes]

theorem rsp_mem_writes (hr : i.isRead = true) : Column.RSP ∈ i.writes := by
  revert hr
  cases i <;> simp [Instr.isRead, Instr.writes]

/-- Locking the modulus is among the writes of a ring command (spec/10_state.md R25, R34). -/
theorem sameColumn_lockedBy (hc : c ∉ i.writes) (h : sameColumn c s t) : sameColumn c s (t.lockedBy i) := by
  unfold State.lockedBy
  split
  · next hr =>
    cases c with
    | MLOCK => exact absurd (mlock_mem_writes hr) hc
    | _ => exact h
  · exact h

/-- The fault fields are no columns of these. -/
theorem sameColumn_withFault (f : Bool) (a : BitVec 4) (b : BitVec 8) :
    sameColumn c s { s with FAULT := f, CODE := a, FOP := b } := by
  cases c with
  | RSP => exact ⟨rfl, rfl⟩
  | _ => rfl

/-- A command's writes go to the columns in which it has a `w` (spec/10_state.md R34). -/
theorem commandWrite_column (src t : State) (hc : c ∉ i.writes) : sameColumn c t (commandWrite i src t) := by
  cases i
  case nop | clrerr | rdstat | rds | rdm | rdv | rddim => exact sameColumn_refl c t
  case setm imm =>
    exact sameColumn_setModulus imm (List.ne_of_not_mem_cons hc)
      (List.ne_of_not_mem_cons (List.not_mem_of_not_mem_cons hc))
  case solve2 =>
    have hSol : c ≠ .SOL := fun h => hc (by simp [h, Instr.writes])
    exact sameColumn_setSol_setS _ _ _ (List.ne_of_not_mem_cons hc) hSol
  case ldi | aff | affi | inv | gcd | solk | det => exact sameColumn_withS _ (List.ne_of_not_mem_cons hc)
  case mdim | mseti | adj | matinv => exact sameColumn_withK _ (List.ne_of_not_mem_cons hc)
  case vseti | vmul | mvmul => exact sameColumn_withV _ (List.ne_of_not_mem_cons hc)

/-- A command leaves every column in which it has no `w`, completed, faulted or squashed. -/
theorem exec_column (h : exec i s = .next t) (hc : c ∉ i.writes) : sameColumn c s t := by
  obtain ⟨-, rfl | ⟨hr, v, rfl⟩ | ⟨-, rfl⟩⟩ | ⟨-, -, rfl⟩ | ⟨-, -, -, rfl⟩ | ⟨-, -, e, -, rfl⟩ := exec_cases h
  · exact sameColumn_refl c _
  · exact sameColumn_respond v fun hcr => hc (hcr ▸ rsp_mem_writes hr)
  · exact sameColumn_withFault ..
  · exact sameColumn_refl c _
  · exact sameColumn_lockedBy hc (commandWrite_column s s hc)
  · exact sameColumn_lockedBy hc (sameColumn_withFault ..)

end

/-! ## The fault fields -/

/-- No command's writes touch the fault fields. -/
theorem commandWrite_fault (i : Instr) (src t : State) : (commandWrite i src t).FAULT = t.FAULT ∧
    (commandWrite i src t).CODE = t.CODE ∧ (commandWrite i src t).FOP = t.FOP := by
  cases i <;> exact ⟨rfl, rfl, rfl⟩

theorem lockedBy_fault (i : Instr) (t : State) :
    (t.lockedBy i).FAULT = t.FAULT ∧ (t.lockedBy i).CODE = t.CODE ∧ (t.lockedBy i).FOP = t.FOP := by
  unfold State.lockedBy
  split <;> exact ⟨rfl, rfl, rfl⟩

/-- A command that can raise nothing passes its checks. -/
theorem commandCheck_of_mayRaise_nil {i : Instr} (h : i.mayRaise = []) (s : State) : commandCheck i s = .ok () := by
  cases i
  case nop | clrerr | rdstat | ldi | rds | mseti | vseti | rdm | rdv | rddim => rfl
  all_goals nomatch h

theorem exec_fault_fields {i : Instr} {s t : State} (h : exec i s = .next t) (hi : i.mayRaise = [])
    (hne : i ≠ .clrerr) : t.FAULT = s.FAULT ∧ t.CODE = s.CODE ∧ t.FOP = s.FOP := by
  obtain ⟨-, rfl | ⟨-, v, rfl⟩ | ⟨hi, -⟩⟩ | ⟨-, -, rfl⟩ | ⟨-, -, -, rfl⟩ | ⟨-, -, e, hc, -⟩ := exec_cases h
  · exact ⟨rfl, rfl, rfl⟩
  · exact ⟨rfl, rfl, rfl⟩
  · exact absurd hi hne
  · exact ⟨rfl, rfl, rfl⟩
  · obtain ⟨h1, h2, h3⟩ := lockedBy_fault i (commandWrite i s s)
    rw [h1, h2, h3]
    exact commandWrite_fault i s s
  · nomatch hc.symm.trans (commandCheck_of_mayRaise_nil hi s)

/-- Settles O20, column by column. -/
theorem commandsWriteOnlyTheirColumns : Obligations.CommandsWriteOnlyTheirColumns := by
  intro i s t h
  obtain ⟨hp, ha, he⟩ := exec_ports h
  exact ⟨fun c hc => exec_column h hc, hp, ha, he, exec_fault_fields h⟩

/-! ## The lock and the modulus -/

section
variable {s t : State}

theorem alwaysExecutes_of_isRing {i : Instr} (hr : i.isRing = true) : i.alwaysExecutes = false := by
  revert hr
  cases i <;> simp [Instr.isRing, Instr.alwaysExecutes]

/-- A ring command locks the modulus unless it is squashed, whether it completes or faults. -/
theorem exec_ring_MLOCK {i : Instr} (hr : i.isRing = true) (h : exec i s = .next t) :
    t.MLOCK = (s.MLOCK || !s.FAULT) := by
  have hl (u : State) : (u.lockedBy i).MLOCK = true := by rw [State.lockedBy, if_pos hr, State.lock_MLOCK]
  have ha := alwaysExecutes_of_isRing hr
  obtain ⟨hx, -⟩ | ⟨-, hF, rfl⟩ | ⟨-, hF, -, rfl⟩ | ⟨-, hF, -, -, rfl⟩ := exec_cases h
  · nomatch hx.symm.trans ha
  · simp [hF]
  · simp [hF, hl]
  · simp [hF, hl]

/-- SETM's two outcomes: it leaves `M` and `MLOCK`, or nothing stood against it and it fixes the modulus. -/
theorem exec_setm_cases {imm : Elem} (h : exec (.setm imm) s = .next t) :
    ((s.FAULT = true ∨ s.MLOCK = true ∨ imm = 0) ∧ t.M = s.M ∧ t.MLOCK = s.MLOCK) ∨
    (s.FAULT = false ∧ s.MLOCK = false ∧ imm ≠ 0 ∧ t = s.setModulus imm) := by
  have e : runCommand _ (setmBody imm) s = t := Host.Outcome.next.inj h
  cases hF : s.FAULT
  · obtain ⟨hl, hb⟩ | ⟨-, h0, hb⟩ | ⟨hl, h0, hb⟩ := setmBody_cases s imm
    · rw [runCommand_error _ _ _ hF hb] at e
      exact .inl ⟨.inr (.inl hl), e ▸ rfl, e ▸ rfl⟩
    · rw [runCommand_error _ _ _ hF hb] at e
      exact .inl ⟨.inr (.inr h0), e ▸ rfl, e ▸ rfl⟩
    · rw [runCommand_ok _ _ _ hF hb] at e
      exact .inr ⟨rfl, hl, h0, e.symm⟩
  · rw [runCommand_squashed _ _ _ hF] at e
    exact .inl ⟨.inl rfl, e ▸ rfl, e ▸ rfl⟩

/-- Settles O18: ring commands by the frame they run in, SETM by its two outcomes, and the others have no `w` in
the column. -/
theorem lockIsSetAndNeverCleared : Obligations.LockIsSetAndNeverCleared := by
  intro i s t h
  have other (hw : Column.MLOCK ∉ i.writes) : t.MLOCK = s.MLOCK := exec_column (c := .MLOCK) h hw
  cases i
  case setm imm =>
    obtain ⟨hn, -, hl⟩ | ⟨hF, -, h0, rfl⟩ := exec_setm_cases h
    · rw [hl]
      obtain hF | hL | h0 := hn
      · simp [hF]
      · simp [hL]
      · simp [h0, Instr.isRing]
    · simpa [hF, Instr.isRing] using Or.inr h0
  case aff | affi | inv | gcd | solve2 | solk | vmul | mvmul | det | adj | matinv =>
    rw [exec_ring_MLOCK rfl h]
    simp [Instr.isRing]
  all_goals simpa [Instr.isRing, Instr.writes] using other

/-- A command leaves `M`, or it is a SETM that nothing stood against. -/
theorem exec_M_cases {i : Instr} (h : exec i s = .next t) :
    t.M = s.M ∨ ∃ imm, i = .setm imm ∧ s.FAULT = false ∧ s.MLOCK = false ∧ imm ≠ 0 ∧ t.M = imm := by
  by_cases hw : Column.M ∈ i.writes
  · obtain ⟨imm, rfl⟩ : ∃ imm, i = .setm imm := by
      cases i
      case setm imm => exact ⟨imm, rfl⟩
      all_goals simp [Instr.writes] at hw
    obtain ⟨-, hM, -⟩ | ⟨hF, hl, h0, rfl⟩ := exec_setm_cases h
    · exact .inl hM
    · exact .inr ⟨imm, rfl, hF, hl, h0, rfl⟩
  · exact .inl (exec_column (c := .M) h hw)

/-- Settles O19: only a SETM that nothing stood against writes `M`, and no command clears `MLOCK`. -/
theorem modulusIsWrittenOnceBySetm : Obligations.ModulusIsWrittenOnceBySetm := by
  intro w s t h
  obtain ⟨i, hd, e⟩ | ⟨-, e⟩ := execWord_cases w s
  · rw [e] at h
    obtain hM | ⟨imm, rfl, hF, hl, h0, hM⟩ := exec_M_cases h
    · refine ⟨fun hl => ⟨hM, ?_⟩, fun hne => absurd hM hne⟩
      rw [lockIsSetAndNeverCleared i s t h, hl, Bool.true_or]
    · exact ⟨fun hl' => (nomatch hl.symm.trans hl'), fun _ => ⟨imm, hd, h0, hM, hl, hF⟩⟩
  · obtain rfl := Host.Outcome.next.inj (e.symm.trans h)
    obtain ⟨-, e⟩ | ⟨-, e⟩ := illegalWord_cases s (opcodeOf w) <;> rw [e] <;>
      exact ⟨fun hl => ⟨rfl, hl⟩, fun hne => absurd rfl hne⟩

end

/-! ## Reset -/

/-- Settles O1: every register file is made of zeros. -/
theorem resetLeavesStatedValues : Obligations.ResetLeavesStatedValues := by
  refine ⟨rfl, rfl, rfl, rfl, rfl, fun r => ?_, fun k => ?_, fun k i j => ?_, fun v i => ?_, rfl, rfl, rfl⟩
  · simp [State.getS, State.reset]
  · simp [State.getDim, State.reset, MatReg.zero]
  · simp [State.getK, State.reset, MatReg.zero]
  · simp [State.getV, State.reset]

end Sys2Proof.Machine
end

section
/-! PROOF. What a ring command reads (spec/10_state.md R20, R22, R23): its check and its write are functions of the
sources it names, and its write commutes with any change outside them and outside its destination. -/

namespace Sys2Proof.Machine

/-! ## Reads -/

section
variable {s u : State}

theorem requireRing_congr (hM : s.M = u.M) (xs : List Elem) : requireRing s xs = requireRing u xs := by
  have h : s.isRing = u.isRing := funext fun x => by rw [State.isRing, State.isRing, hM]
  rw [requireRing, requireRing, h]

theorem MatReg.block_congr {k q : MatReg} {n : Nat} (h : ∀ a < n, ∀ b < n, k.entry a b = q.entry a b) :
    k.block n = q.block n := by
  refine List.flatMap_congr fun a ha => List.map_congr_left fun b hb => ?_
  exact h a (List.mem_range.mp ha) b (List.mem_range.mp hb)

theorem vecBlock_congr {v : VReg} {n : Nat} (h : ∀ a < n, s.vecAt v a = u.vecAt v a) :
    s.vecBlock v n = u.vecBlock v n :=
  List.map_congr_left fun a ha => h a (List.mem_range.mp ha)

/-! ### A source matrix and a source vector -/

section
variable {k : KReg} (hM : s.M = u.M) (hd : s.getDim k = u.getDim k)
  (hA : ∀ a < (s.getDim k).toNat, ∀ b < (s.getDim k).toNat, s.K[k].entry a b = u.K[k].entry a b)
include hA

theorem entries_congr :
    ∀ a < (s.getDim k).toNat, ∀ b < (s.getDim k).toNat, s.entries k a b = u.entries k a b :=
  fun a ha b hb => congrArg (fun x : Elem => (x.toNat : Int)) (hA a ha b hb)

include hM

theorem detResidue_congr : s.detResidue k (s.getDim k).toNat = u.detResidue k (s.getDim k).toNat := by
  rw [State.detResidue, State.detResidue, idet_congr _ _ _ (entries_congr hA), hM]

include hd

theorem readMatrix_congr : readMatrix s k = readMatrix u k := by
  unfold readMatrix requireDim
  rw [← hd]
  split
  · rfl
  · simp only [ok_bind, MatReg.block_congr hA, requireRing_congr hM]

variable {v : VReg} (hV : ∀ a < (s.getDim k).toNat, s.vecAt v a = u.vecAt v a)
include hV

theorem readMatVec_congr : readMatVec s k v = readMatVec u k v := by
  unfold readMatVec requireDim
  rw [← hd]
  split
  · rfl
  · simp only [ok_bind, MatReg.block_congr hA, vecBlock_congr hV, requireRing_congr hM]

omit hM hd in
theorem rowTimes_congr (m : Nat) {j : Nat} (hj : j < (s.getDim k).toNat) :
    rowTimes (s.getDim k).toNat (s.vecEntries v) (s.entries k) m j =
      rowTimes (s.getDim k).toNat (u.vecEntries v) (u.entries k) m j := by
  have h (a : Nat) (ha : a < (s.getDim k).toNat) :
      s.vecEntries v a * s.entries k a j = u.vecEntries v a * u.entries k a j := by
    rw [entries_congr hA a ha j hj, State.vecEntries, State.vecEntries, hV a ha]
  rw [rowTimes, rowTimes, sumTo_congr h]

omit hM hd in
theorem timesCol_congr (m : Nat) {i : Nat} (hi : i < (s.getDim k).toNat) :
    timesCol (s.getDim k).toNat (s.entries k) (s.vecEntries v) m i =
      timesCol (s.getDim k).toNat (u.entries k) (u.vecEntries v) m i := by
  have h (a : Nat) (ha : a < (s.getDim k).toNat) :
      s.entries k i a * s.vecEntries v a = u.entries k i a * u.vecEntries v a := by
    rw [entries_congr hA i hi a ha, State.vecEntries, State.vecEntries, hV a ha]
  rw [timesCol, timesCol, sumTo_congr h]

end

/-! ### Checks and writes -/

theorem setVec_congr (t : State) (v : VReg) {n : Nat} {r q : Nat → Elem} (h : ∀ a < n, r a = q a) :
    t.setVec v n r = t.setVec v n q := by
  unfold State.setVec
  congr! 4 with a
  exact ite_congr rfl (h a) fun _ => rfl

theorem setBlock_congr (t : State) (k : KReg) {n : BitVec 4} {R Q : Nat → Nat → Elem}
    (h : ∀ a < n.toNat, ∀ b < n.toNat, R a b = Q a b) : t.setBlock k n R = t.setBlock k n Q := by
  unfold State.setBlock MatReg.withBlock
  congr! 7 with a b
  exact ite_congr rfl (fun hab => h a hab.1 b hab.2) fun _ => rfl

variable {i : Instr} (hr : i.isRing = true) (h : sameSources i s u)
include hr h

/-- A ring command's checks read only the sources it names, `M`, and (SOLK) `SOL`. -/
theorem commandCheck_congr : commandCheck i s = commandCheck i u := by
  obtain ⟨hM, hSol, hS, hK⟩ := h
  have scalars : requireRing s (i.scalarSources.map s.getS) = requireRing u (i.scalarSources.map u.getS) := by
    rw [requireRing_congr hM, List.map_congr_left hS]
  cases i
  case aff | gcd | solve2 => exact scalars
  case affi sd sa sy sb => simp only [commandCheck, scalars, hM, hS sa List.mem_cons_self]
  case inv sd ss => simp only [commandCheck, scalars, hM, hS ss List.mem_cons_self]
  case solk sda sdb sk => simp only [commandCheck, hS sk List.mem_cons_self, hSol sda sdb sk rfl]
  case vmul vd vs ks | mvmul vd vs ks =>
    obtain ⟨hd, hA, hV⟩ := hK ks List.mem_cons_self
    simp only [commandCheck, readMatVec_congr hM hd hA (hV vs List.mem_cons_self)]
  case det sd ks | adj kd ks =>
    obtain ⟨hd, hA, -⟩ := hK ks List.mem_cons_self
    simp only [commandCheck, readMatrix_congr hM hd hA]
  case matinv kd ks =>
    obtain ⟨hd, hA, -⟩ := hK ks List.mem_cons_self
    rw [commandCheck, commandCheck, readMatrix_bind, readMatrix_bind u, readMatrix_congr hM hd hA,
      detResidue_congr hM hA, hd, hM]
  all_goals nomatch hr

/-- What a ring command writes is computed from the sources it names, `M`, and (SOLK) `SOL`. -/
theorem commandWrite_congr (t : State) : commandWrite i s t = commandWrite i u t := by
  obtain ⟨hM, hSol, hS, hK⟩ := h
  cases i
  case aff | affi | inv | gcd | solve2 =>
    simp only [Instr.scalarSources, List.forall_mem_cons] at hS
    simp only [commandWrite, hM, hS]
  case solk sda sdb sk => simp only [commandWrite, hM, hS sk List.mem_cons_self, hSol sda sdb sk rfl]
  case vmul vd vs ks =>
    obtain ⟨hd, hA, hV⟩ := hK ks List.mem_cons_self
    simp only [commandWrite, ← hd, ← hM]
    exact setVec_congr t vd fun j hj => congrArg toElem (rowTimes_congr hA (hV vs List.mem_cons_self) _ hj)
  case mvmul vd vs ks =>
    obtain ⟨hd, hA, hV⟩ := hK ks List.mem_cons_self
    simp only [commandWrite, ← hd, ← hM]
    exact setVec_congr t vd fun a ha => congrArg toElem (timesCol_congr hA (hV vs List.mem_cons_self) _ ha)
  case det sd ks =>
    obtain ⟨hd, hA, -⟩ := hK ks List.mem_cons_self
    simp only [commandWrite, ← hd, detResidue_congr hM hA]
  case adj kd ks =>
    obtain ⟨hd, hA, -⟩ := hK ks List.mem_cons_self
    simp only [commandWrite, ← hd, ← hM]
    exact setBlock_congr t kd fun a ha b _ => by rw [adjugate_congr _ (entries_congr hA) ha]
  case matinv kd ks =>
    obtain ⟨hd, hA, -⟩ := hK ks List.mem_cons_self
    simp only [commandWrite, ← hd, ← hM, detResidue_congr hM hA]
    exact setBlock_congr t kd fun a ha b _ => by rw [adjugate_congr _ (entries_congr hA) ha]
  all_goals nomatch hr

end

/-! ## Results -/

section
variable {s u : State}

/-- A written block's entries are the values written, whatever the register held. -/
theorem entry_setBlock_congr (s u : State) (k : KReg) (n : BitVec 4) (R : Nat → Nat → Elem) {a b : Nat}
    (ha : a < n.toNat) (hb : b < n.toNat) :
    (s.setBlock k n R).K[k].entry a b = (u.setBlock k n R).K[k].entry a b := by
  by_cases h8 : a < 8 ∧ b < 8
  · rw [entry_setBlock _ _ _ _ _ h8.1 h8.2, entry_setBlock _ _ _ _ _ h8.1 h8.2, if_pos ⟨rfl, ha, hb⟩,
      if_pos ⟨rfl, ha, hb⟩]
  · rw [MatReg.entry, MatReg.entry, dif_neg h8, dif_neg h8]

theorem vecAt_setVec_congr (s u : State) (v : VReg) (n : Nat) (r : Nat → Elem) {a : Nat} (ha : a < n) :
    (s.setVec v n r).vecAt v a = (u.setVec v n r).vecAt v a := by
  by_cases h8 : a < 8
  · rw [vecAt_setVec _ _ _ _ _ h8, vecAt_setVec _ _ _ _ _ h8, if_pos ⟨rfl, ha⟩, if_pos ⟨rfl, ha⟩]
  · rw [State.vecAt, State.vecAt, dif_neg h8, dif_neg h8]

theorem sameResults_of_setBlock {i : Instr} {kd : KReg} {n : BitVec 4} {R : Nat → Nat → Elem}
    (hS : i.scalarResults = []) (hK : i.matrixResults = [kd]) (hV : i.vectorResults = [])
    (hSol : Column.SOL ∉ i.writes) : sameResults i (s.setBlock kd n R).lock (u.setBlock kd n R).lock := by
  unfold sameResults
  rw [hS, hK, hV]
  refine ⟨nofun, fun k hk => ?_, nofun, fun h => absurd h hSol⟩
  obtain rfl := List.mem_singleton.mp hk
  have hd (t : State) : (t.setBlock k n R).lock.getDim k = n := by
    rw [State.lock_getDim, getDim_setBlock, if_pos rfl]
  rw [hd, hd]
  exact ⟨rfl, fun a ha b hb => entry_setBlock_congr s u k n R ha hb⟩

theorem sameResults_of_setVec {i : Instr} {vd : VReg} {ks : KReg} {r : Nat → Elem}
    (hS : i.scalarResults = []) (hK : i.matrixResults = []) (hV : i.vectorResults = [vd])
    (hk : i.matrixSources = [ks]) (hSol : Column.SOL ∉ i.writes) :
    sameResults i (s.setVec vd (s.getDim ks).toNat r).lock (u.setVec vd (s.getDim ks).toNat r).lock := by
  unfold sameResults
  rw [hS, hK, hV, hk]
  refine ⟨nofun, nofun, fun v hv k hk a ha => ?_, fun h => absurd h hSol⟩
  obtain rfl := List.mem_singleton.mp hv
  obtain rfl := List.mem_singleton.mp hk
  exact vecAt_setVec_congr s u v _ r ha

/-- One command's write, made in two states, gives the same results in both. -/
theorem sameResults_of_write {i : Instr} (hr : i.isRing = true) :
    sameResults i (commandWrite i s s).lock (commandWrite i s u).lock := by
  cases i
  case aff | affi | inv | gcd | solve2 | det =>
    refine ⟨?_, nofun, nofun, by simp [Instr.writes, commandWrite]⟩
    simp [Instr.scalarResults, commandWrite]
  case solk =>
    refine ⟨?_, nofun, nofun, by simp [Instr.writes]⟩
    simp [Instr.scalarResults, commandWrite, getS_setS]
  case vmul | mvmul =>
    simp only [commandWrite]
    exact sameResults_of_setVec rfl rfl rfl rfl (by simp [Instr.writes])
  case adj | matinv => exact sameResults_of_setBlock rfl rfl rfl (by simp [Instr.writes])
  all_goals nomatch hr

/-- Settles O21: two states that agree on a ring command's sources get one check and one write. -/
theorem ringResultsDependOnNamedSourcesOnly : Obligations.RingResultsDependOnNamedSourcesOnly := by
  intro i s u hr hs hu h
  have ha := alwaysExecutes_of_isRing hr
  have hc := commandCheck_congr hr h
  have hl (t : State) : t.lockedBy i = t.lock := if_pos hr
  cases he : commandCheck i s with
  | ok =>
    have hw := sameResults_of_write (s := s) (u := u) hr
    have hf (src t : State) : ((commandWrite i src t).lockedBy i).FAULT = t.FAULT := by
      rw [(lockedBy_fault i _).1, (commandWrite_fault i src t).1]
    refine ⟨_, _, exec_completes ha hs he, exec_completes ha hu (hc ▸ he), ?_, fun hF => ?_, fun _ => ?_⟩
    · rw [hf, hf, hs, hu]
    · nomatch hs.symm.trans ((hf s s).symm.trans hF)
    · rwa [hl, hl, ← commandWrite_congr hr h]
  | error c =>
    refine ⟨_, _, exec_faults ha hs he, exec_faults ha hu (hc ▸ he), ?_, fun _ => ?_, fun hF => ?_⟩
    all_goals simp only [hl] at *
    · rfl
    · exact ⟨rfl, rfl⟩
    · nomatch hF

end

/-! ## What stands outside the leading block -/

section
variable {s : State}

theorem vecAt_setV (v q : VReg) (b : Idx) (x : Elem) {a : Nat} (h : a ≠ b) :
    (s.setV v b x).vecAt q a = s.vecAt q a := by
  by_cases h8 : a < 8
  · have h1 := vecAt_eq_getV (s.setV v b x) q ⟨a, h8⟩
    have h2 := vecAt_eq_getV s q ⟨a, h8⟩
    simp only at h1 h2
    rw [h1, h2, getV_setV, if_neg fun hab => h (congrArg Fin.val hab.2)]
  · rw [State.vecAt, State.vecAt, dif_neg h8, dif_neg h8]

/-- A matrix element outside the leading block of each source is no source. -/
theorem sameSources_setK {i : Instr} {k : KReg} {a b : Idx} (x : Elem)
    (h : ∀ q ∈ i.matrixSources, (s.getDim q).toNat ≤ a ∨ (s.getDim q).toNat ≤ b) :
    sameSources i s (s.setK k a b x) := by
  refine ⟨rfl, fun _ _ _ _ => rfl, fun _ _ => rfl, fun q hq => ⟨(getDim_setK ..).symm, ?_, fun _ _ _ _ => rfl⟩⟩
  intro c hc d hd
  have := h q hq
  exact (entry_setK s k q a b x (by omega)).symm

/-- A vector element beyond the dimension of each source matrix is no source. -/
theorem sameSources_setV {i : Instr} {v : VReg} {a : Idx} (x : Elem)
    (h : ∀ q ∈ i.matrixSources, (s.getDim q).toNat ≤ a) : sameSources i s (s.setV v a x) := by
  refine ⟨rfl, fun _ _ _ _ => rfl, fun _ _ => rfl, fun q hq => ⟨rfl, fun _ _ _ _ => rfl, fun r _ c hc => ?_⟩⟩
  exact (vecAt_setV v r a x (Nat.ne_of_lt (lt_of_lt_of_le hc (h q hq)))).symm

theorem setBlock_setK_comm (k q : KReg) (n : BitVec 4) (R : Nat → Nat → Elem) {a b : Idx} (x : Elem)
    (h : n.toNat ≤ a ∨ n.toNat ≤ b) :
    (s.setK k a b x).setBlock q n R = (s.setBlock q n R).setK k a b x := by
  refine congrArg (fun K => { s with K := K }) (K_eq_of_reads (s := (s.setK k a b x).setBlock q n R)
    (t := (s.setBlock q n R).setK k a b x) (fun r => ?_) fun r c d => ?_)
  · rw [getDim_setBlock, getDim_setK, getDim_setK, getDim_setBlock]
  · rw [getK_setBlock, getK_setK, getK_setK, getK_setBlock]
    by_cases hab : r = k ∧ c = a ∧ d = b
    · obtain ⟨-, rfl, rfl⟩ := hab
      have hout : ¬ (r = q ∧ c.val < n.toNat ∧ d.val < n.toNat) := by omega
      rw [if_neg hout, if_neg hout]
    · rw [if_neg hab, if_neg hab]

theorem setVec_setK_comm (s : State) (k : KReg) (v : VReg) (n : Nat) (r : Nat → Elem) (a b : Idx) (x : Elem) :
    (s.setK k a b x).setVec v n r = (s.setVec v n r).setK k a b x := rfl

theorem setVec_setV_comm (v q : VReg) {n : Nat} (r : Nat → Elem) {a : Idx} (x : Elem) (h : n ≤ a) :
    (s.setV v a x).setVec q n r = (s.setVec q n r).setV v a x := by
  refine congrArg (fun V => { s with V := V }) (V_eq_of_reads (s := (s.setV v a x).setVec q n r)
    (t := (s.setVec q n r).setV v a x) fun w c => ?_)
  rw [getV_setVec, getV_setV, getV_setV, getV_setVec]
  by_cases hca : w = v ∧ c = a
  · obtain ⟨-, rfl⟩ := hca
    have hout : ¬ (w = q ∧ c.val < n) := by omega
    rw [if_neg hout, if_neg hout]
  · rw [if_neg hca, if_neg hca]

/-- A ring command's write commutes with a change of a matrix element outside the leading block of its sources. -/
theorem commandWrite_setK_comm {i : Instr} (hr : i.isRing = true) {k : KReg} {a b : Idx} (x : Elem)
    (h : ∀ q ∈ i.matrixSources, (s.getDim q).toNat ≤ a ∨ (s.getDim q).toNat ≤ b) (t : State) :
    commandWrite i s (t.setK k a b x) = (commandWrite i s t).setK k a b x := by
  cases i
  case aff | affi | inv | gcd | solve2 | solk | det => rfl
  case vmul | mvmul => simp only [commandWrite, setVec_setK_comm]
  case adj kd ks | matinv kd ks => exact setBlock_setK_comm k kd _ _ x (h ks List.mem_cons_self)
  all_goals nomatch hr

/-- A ring command's write commutes with a change of a vector element beyond its sources' dimension. -/
theorem commandWrite_setV_comm {i : Instr} (hr : i.isRing = true) {v : VReg} {a : Idx} (x : Elem)
    (h : ∀ q ∈ i.matrixSources, (s.getDim q).toNat ≤ a) (t : State) :
    commandWrite i s (t.setV v a x) = (commandWrite i s t).setV v a x := by
  cases i
  case aff | affi | inv | gcd | solve2 | solk | det | adj | matinv => rfl
  case vmul vd vs ks | mvmul vd vs ks =>
    simp only [commandWrite, setVec_setV_comm v vd _ x (h ks List.mem_cons_self)]
  all_goals nomatch hr

/-- A change `f` of the state commutes with a ring command when it touches none of its sources and commutes with
the updates the command can make. -/
theorem exec_ring_comm {i : Instr} (hr : i.isRing = true) (f : State → State) (hF : (f s).FAULT = s.FAULT)
    (hsrc : sameSources i s (f s)) (hraise : ∀ op c, ((f s).raise op c).lock = f (s.raise op c).lock)
    (hwrite : (commandWrite i s (f s)).lock = f (commandWrite i s s).lock) :
    ∃ t, exec i s = .next t ∧ exec i (f s) = .next (f t) := by
  have ha := alwaysExecutes_of_isRing hr
  have hc := commandCheck_congr hr hsrc
  have hl (t : State) : t.lockedBy i = t.lock := if_pos hr
  cases hs : s.FAULT
  · cases he : commandCheck i s with
    | ok =>
      refine ⟨_, exec_completes ha hs he, ?_⟩
      rw [exec_completes ha (hF.trans hs) (hc ▸ he), hl, hl, ← commandWrite_congr hr hsrc, hwrite]
    | error c =>
      refine ⟨_, exec_faults ha hs he, ?_⟩
      rw [exec_faults ha (hF.trans hs) (hc ▸ he), hl, hl, hraise]
  · exact ⟨s, exec_squashed ha hs, exec_squashed ha (hF.trans hs)⟩

theorem exec_setK_comm {i : Instr} (hr : i.isRing = true) {k : KReg} {a b : Idx} (x : Elem)
    (h : ∀ q ∈ i.matrixSources, (s.getDim q).toNat ≤ a ∨ (s.getDim q).toNat ≤ b) :
    ∃ t, exec i s = .next t ∧ exec i (s.setK k a b x) = .next (t.setK k a b x) :=
  exec_ring_comm hr (·.setK k a b x) rfl (sameSources_setK x h) (fun _ _ => rfl)
    (congrArg State.lock (commandWrite_setK_comm hr x h s))

theorem exec_setV_comm {i : Instr} (hr : i.isRing = true) {v : VReg} {a : Idx} (x : Elem)
    (h : ∀ q ∈ i.matrixSources, (s.getDim q).toNat ≤ a) :
    ∃ t, exec i s = .next t ∧ exec i (s.setV v a x) = .next (t.setV v a x) :=
  exec_ring_comm hr (·.setV v a x) rfl (sameSources_setV x h) (fun _ _ => rfl)
    (congrArg State.lock (commandWrite_setV_comm hr x h s))

/-- Settles O43: the changed element is no source, and no element that the command writes. -/
theorem outsideTheLeadingBlockIsInvisible : Obligations.OutsideTheLeadingBlockIsInvisible := by
  intro s k vs a b x
  refine ⟨fun h vd sd kd i hi => ?_, fun h vd i hi => ?_⟩
  · obtain ⟨hr, hk⟩ : i.isRing = true ∧ i.matrixSources = [k] := by
      simp only [List.mem_cons, List.not_mem_nil, or_false] at hi
      obtain rfl | rfl | rfl | rfl | rfl := hi <;> exact ⟨rfl, rfl⟩
    exact exec_setK_comm hr x (hk ▸ List.forall_mem_singleton.mpr h)
  · obtain ⟨hr, hk⟩ : i.isRing = true ∧ i.matrixSources = [k] := by
      simp only [List.mem_cons, List.not_mem_nil, or_false] at hi
      obtain rfl | rfl := hi <;> exact ⟨rfl, rfl⟩
    exact exec_setV_comm hr x (hk ▸ List.forall_mem_singleton.mpr h)

end

end Sys2Proof.Machine
end

section
/-! PROOF. One clock edge at the ports (spec/20_memory.md R41 to R46): the state after each of its five cases, what a
word responds, and the invariant of the handshake. -/

namespace Sys2Proof.Machine

/-! ## The state after an edge -/

section
variable {s t : State} {w : Word}

theorem tick_eq_of_step (h : step s = .next t) : s.tick = t :=
  Host.Outcome.next.inj ((step_tick s).symm.trans h)

theorem tick_reset (hr : s.nextEdge.rst = true) : s.tick = s.resetEdge := tick_eq_of_step (step_reset s hr)

theorem tick_complete (hr : s.nextEdge.rst = false) (hp : s.inProgress = some w) (hf : s.nextEdge.finish = true) :
    s.tick = (s.sampled s.nextEdge).complete.afterWord w :=
  tick_eq_of_step ((step_complete s hr hp hf).trans (execWord_afterWord ..))

theorem tick_busy (hr : s.nextEdge.rst = false) (hp : s.inProgress = some w) (hf : s.nextEdge.finish = false) :
    s.tick = s.sampled s.nextEdge :=
  tick_eq_of_step (step_busy s hr hp hf)

/-- Everything a clock edge without reset can do, as the state after it. -/
theorem tick_cases (hr : s.nextEdge.rst = false) :
    (∃ w, s.inProgress = some w ∧ s.nextEdge.finish = true ∧
      s.tick = (s.sampled s.nextEdge).complete.afterWord w) ∨
    (∃ w, s.inProgress = some w ∧ s.nextEdge.finish = false ∧ s.tick = s.sampled s.nextEdge) ∨
    (s.inProgress = none ∧ s.nextEdge.cmdValid = true ∧ s.cmdReady = true ∧
      s.tick = (s.sampled s.nextEdge).acceptWord s.nextEdge.cmdData) ∨
    (s.inProgress = none ∧ ¬ (s.nextEdge.cmdValid = true ∧ s.cmdReady = true) ∧
      s.tick = s.sampled s.nextEdge) := by
  obtain ⟨hr', -⟩ | ⟨-, w, hp, hf, -⟩ | ⟨-, w, hp, hf, e⟩ | ⟨-, hp, hv, hc, e⟩ | ⟨-, hp, hn, e⟩ := step_cases s
  · nomatch hr.symm.trans hr'
  · exact .inl ⟨w, hp, hf, tick_complete hr hp hf⟩
  · exact .inr (.inl ⟨w, hp, hf, tick_eq_of_step e⟩)
  · exact .inr (.inr (.inl ⟨hp, hv, hc, tick_eq_of_step e⟩))
  · exact .inr (.inr (.inr ⟨hp, hn, tick_eq_of_step e⟩))

theorem cmdReady_of_inProgress (hp : s.inProgress = some w) : s.cmdReady = false := by
  simp [State.cmdReady, State.busy, hp]

theorem cmdReady_of_slot (hs : s.slot = some w) : s.cmdReady = false := by
  simp [State.cmdReady, State.rspValid, hs]

end

/-! ## A word at the ports -/

section
variable (s : State) (w : Word)

@[simp] theorem afterWord_inProgress : (s.afterWord w).inProgress = s.inProgress :=
  (execWord_ports (execWord_afterWord w s)).1

@[simp] theorem afterWord_afterReset : (s.afterWord w).afterReset = s.afterReset :=
  (execWord_ports (execWord_afterWord w s)).2.1

theorem rsp_notMem_writes {i : Instr} (ha : i.alwaysExecutes = false) : Column.RSP ∉ i.writes := by
  revert ha
  cases i <;> simp [Instr.alwaysExecutes, Instr.writes]

/-- A command responds one word, which then waits, or leaves the response stream and the slot (R46). -/
theorem exec_responds {i : Instr} {s t : State} (h : exec i s = .next t) :
    (t.RSP = s.RSP ∧ t.slot = s.slot) ∨ ∃ v, t.RSP = s.RSP ++ [v] ∧ t.slot = some v := by
  cases ha : i.alwaysExecutes
  · exact .inl (exec_column (c := .RSP) h (rsp_notMem_writes ha))
  · obtain ⟨-, rfl | ⟨-, v, rfl⟩ | ⟨-, rfl⟩⟩ | ⟨ha', -⟩ | ⟨ha', -⟩ | ⟨ha', -⟩ := exec_cases h
    · exact .inl ⟨rfl, rfl⟩
    · exact .inr ⟨v, rfl, rfl⟩
    · exact .inl ⟨rfl, rfl⟩
    all_goals nomatch ha.symm.trans ha'

/-- So does every word; an illegal one responds nothing (spec/60_exceptions.md R152). -/
theorem afterWord_responds :
    ((s.afterWord w).RSP = s.RSP ∧ (s.afterWord w).slot = s.slot) ∨
    ∃ v, (s.afterWord w).RSP = s.RSP ++ [v] ∧ (s.afterWord w).slot = some v := by
  have h := execWord_afterWord w s
  obtain ⟨i, -, e⟩ | ⟨-, e⟩ := execWord_cases w s
  · exact exec_responds (e.symm.trans h)
  · rw [← Host.Outcome.next.inj (e.symm.trans h)]
    obtain ⟨-, e⟩ | ⟨-, e⟩ := illegalWord_cases s (opcodeOf w) <;> rw [e] <;> exact .inl ⟨rfl, rfl⟩

end

/-! ## The invariant of the handshake -/

section
variable {s : State} {w : Word}

/-- Using up an edge keeps the handshake's invariant: at most the waiting response goes. -/
theorem portCoherent_sampled (h : s.portCoherent) (e : ClockEdge) : (s.sampled e).portCoherent := by
  obtain ⟨hbusy, -, hlast⟩ := h
  refine ⟨fun hb => ?_, nofun, fun v hv => ?_⟩
  · obtain ⟨hs, -⟩ := hbusy hb
    simp [hs]
  · rw [State.sampled_slot, Option.ite_none_left_eq_some] at hv
    exact hlast v hv.2

/-- So does the transition of a word, which no command in progress accompanies. -/
theorem portCoherent_afterWord (h : s.portCoherent) (hp : s.inProgress = none) (ha : s.afterReset = false) :
    (s.afterWord w).portCoherent := by
  obtain ⟨-, -, hlast⟩ := h
  refine ⟨fun hb => ?_, fun ha' => ?_, fun v hv => ?_⟩
  · simp [State.busy, hp] at hb
  · simp [ha] at ha'
  · obtain ⟨hR, hs⟩ | ⟨x, hR, hs⟩ := afterWord_responds s w
    · rw [hR]
      exact hlast v (hs.symm.trans hv)
    · rw [hR, List.getLast?_concat, ← hs, hv]

theorem portCoherent_complete (h : s.portCoherent) : s.complete.portCoherent := ⟨nofun, h.2⟩

theorem portCoherent_acceptWord (h : s.portCoherent) (hs : s.slot = none) (ha : s.afterReset = false) :
    (s.acceptWord w).portCoherent := ⟨fun _ => ⟨hs, ha⟩, h.2⟩

/-- Every edge keeps the handshake's invariant. -/
theorem portCoherent_tick (h : s.portCoherent) : s.tick.portCoherent := by
  have hsamp := portCoherent_sampled h s.nextEdge
  cases hr : s.nextEdge.rst
  · obtain ⟨w, -, -, e⟩ | ⟨w, -, -, e⟩ | ⟨-, -, hc, e⟩ | ⟨-, -, e⟩ := tick_cases hr <;> rw [e]
    · exact portCoherent_afterWord (portCoherent_complete hsamp) rfl rfl
    · exact hsamp
    · obtain ⟨-, hs, -⟩ := (cmdReady_iff s).mp hc
      exact portCoherent_acceptWord hsamp (by simp [hs]) rfl
    · exact hsamp
  · rw [tick_reset hr]
    exact ⟨nofun, fun _ => rfl, nofun⟩

end

/-! ## One edge -/

/-- `afterReset` records whether the last edge was a reset edge (R42, R180). -/
theorem tick_afterReset (s : State) : s.tick.afterReset = s.nextEdge.rst := by
  cases hr : s.nextEdge.rst
  · obtain ⟨w, -, -, e⟩ | ⟨w, -, -, e⟩ | ⟨-, -, -, e⟩ | ⟨-, -, e⟩ := tick_cases hr <;> simp [e]
  · rw [tick_reset hr]
    rfl

/-- Settles O3: the handshake's three conditions, and the cases of an edge from an idle block. -/
theorem commandHandshake : Obligations.CommandHandshake := by
  intro s
  refine ⟨by simp [State.cmdReady, and_assoc], s.tick, step_tick s, tick_afterReset s, fun hb => ?_⟩
  rw [busy_eq_false_iff] at hb
  cases hr : s.nextEdge.rst
  · obtain ⟨w, hp, -⟩ | ⟨w, hp, -⟩ | ⟨-, hv, hc, e⟩ | ⟨hp, hn, e⟩ := tick_cases hr
    · nomatch hb.symm.trans hp
    · nomatch hb.symm.trans hp
    · rw [e, if_pos ⟨rfl, hv, hc⟩, State.acceptWord_inProgress]
    · rw [e, if_neg fun h => hn h.2, State.sampled_inProgress, hp]
  · rw [tick_reset hr, if_neg (by simp)]
    rfl

/-- Settles O4: with a response waiting the block is not ready, so the edge accepts nothing. -/
theorem responseWaitsUntilTaken : Obligations.ResponseWaitsUntilTaken := by
  intro s w hs hb hr
  have hc := cmdReady_of_slot hs
  have hidle := step_idle s hr ((busy_eq_false_iff s).mp hb) (by simp [hc])
  exact ⟨hc, _, hidle, rfl, hb, by rw [State.sampled_slot, hs]⟩

/-- Settles O5: the completing case of `step`, for a legal word. -/
theorem stepRunsTheAcceptedCommand : Obligations.StepRunsTheAcceptedCommand :=
  fun s _ _ hp hd hr hf => (step_complete s hr hp hf).trans (execWord_legal _ hd)

/-- Settles O6: such an edge is only used up. -/
theorem busyEdgeChangesNothing : Obligations.BusyEdgeChangesNothing :=
  fun s _ hp hr hf => ⟨_, step_busy s hr hp hf, rfl, hp, cmdReady_of_inProgress hp⟩

end Sys2Proof.Machine
end

section
/-! PROOF. Runs without reset (spec/20_memory.md R43, R45, R46): what one edge brings in and lets out balances what
the ports hold before and after it, and a run adds its edges up. -/

namespace Sys2Proof.Machine

variable {s : State}

theorem noReset_succ {k : Nat} (h : State.noReset (k + 1) s = true) :
    s.nextEdge.rst = false ∧ State.noReset k s.tick = true := by
  simpa [State.noReset] using h

/-! ## Commands -/

/-- At one edge a command in progress stays or completes, and one is accepted only if there is none. -/
theorem commands_balance_tick (hr : s.nextEdge.rst = false) :
    s.inProgress.toList ++ s.acceptsNow = s.completesNow ++ s.tick.inProgress.toList := by
  obtain ⟨w, hp, hf, e⟩ | ⟨w, hp, hf, e⟩ | ⟨hp, hv, hc, e⟩ | ⟨hp, hn, e⟩ := tick_cases hr
  · simp [State.acceptsNow, State.completesNow, cmdReady_of_inProgress hp, hr, hp, hf, e]
  · simp [State.acceptsNow, State.completesNow, cmdReady_of_inProgress hp, hp, hf, e]
  · simp [State.acceptsNow, State.completesNow, hr, hp, hv, hc, e]
  · simp [State.acceptsNow, State.completesNow, hr, hp, hn, e]

/-- Settles O56, by induction on the number of edges. -/
theorem commandsCompleteInAcceptanceOrder : Obligations.CommandsCompleteInAcceptanceOrder := by
  intro k
  induction k with
  | zero => exact fun s _ => List.append_nil _
  | succ k ih =>
    intro s h
    obtain ⟨hr, hk⟩ := noReset_succ h
    calc s.inProgress.toList ++ (s.acceptsNow ++ State.trace State.acceptsNow k s.tick)
      _ = s.completesNow ++ (s.tick.inProgress.toList ++ State.trace State.acceptsNow k s.tick) := by
        rw [← List.append_assoc, commands_balance_tick hr, List.append_assoc]
      _ = s.completesNow ++ State.trace State.completesNow k s.tick ++
          (State.ticks k s.tick).inProgress.toList := by
        rw [ih s.tick hk, List.append_assoc]

/-! ## Responses -/

/-- At one edge the host takes the waiting response or leaves it, and a word is responded only into an empty
slot. -/
theorem responses_balance_tick (h : s.portCoherent) (hr : s.nextEdge.rst = false) :
    ∃ new, s.tick.RSP = s.RSP ++ new ∧
      s.slot.toList ++ new = s.takesNow ++ s.tick.slot.toList := by
  have hsamp : s.slot.toList = s.takesNow ++ (s.sampled s.nextEdge).slot.toList := by
    cases hy : s.nextEdge.rspReady <;> simp [State.takesNow, hr, hy]
  obtain ⟨w, hp, -, e⟩ | ⟨w, -, -, e⟩ | ⟨-, -, -, e⟩ | ⟨-, -, e⟩ := tick_cases hr <;> rw [e]
  · obtain ⟨hs, -⟩ := h.1 ((busy_iff s).mpr ⟨w, hp⟩)
    obtain ⟨hR, hs'⟩ | ⟨v, hR, hs'⟩ := afterWord_responds (s.sampled s.nextEdge).complete w
    · exact ⟨[], by simp [hR], by simp [hs', State.takesNow, hs]⟩
    · exact ⟨[v], by simp [hR], by simp [hs', State.takesNow, hs]⟩
  all_goals exact ⟨[], (List.append_nil _).symm, (List.append_nil _).trans hsamp⟩

/-- Settles O58, by induction on the number of edges; every edge keeps the handshake's invariant. -/
theorem noResponseIsLost : Obligations.NoResponseIsLost := by
  intro k
  induction k with
  | zero => exact fun s _ _ => ⟨[], (List.append_nil _).symm, List.append_nil _⟩
  | succ k ih =>
    intro s hp h
    obtain ⟨hr, hk⟩ := noReset_succ h
    obtain ⟨new, hR, hnew⟩ := responses_balance_tick hp hr
    obtain ⟨later, hR', hlater⟩ := ih s.tick (portCoherent_tick hp) hk
    refine ⟨new ++ later, by rw [State.ticks, hR', hR, List.append_assoc], ?_⟩
    calc s.slot.toList ++ (new ++ later)
      _ = s.takesNow ++ (s.tick.slot.toList ++ later) := by
        rw [← List.append_assoc, hnew, List.append_assoc]
      _ = s.takesNow ++ State.trace State.takesNow k s.tick ++ (State.ticks k s.tick).slot.toList := by
        rw [hlater, List.append_assoc]

/-! ## Completion -/

/-- The next edge is a listed one or the idle one. -/
theorem nextEdge_rst_of_edges (h : ∀ e ∈ s.edges, e.rst = false) : s.nextEdge.rst = false := by
  unfold State.nextEdge
  cases he : s.edges with
  | nil => rfl
  | cons e es => exact h e (he ▸ List.mem_cons_self)

theorem tick_not_busy (hr : s.nextEdge.rst = false) (hb : s.busy = true) (hf : s.nextEdge.finish = true) :
    s.tick.busy = false := by
  obtain ⟨w, hp⟩ := (busy_iff s).mp hb
  rw [tick_complete hr hp hf, busy_eq_false_iff, afterWord_inProgress, State.complete_inProgress]

/-- Settles O59, by induction on the listed edges: a listed edge completes the command or is used up, and the idle
edge after the last of them completes it. -/
theorem everyCommandCompletes : Obligations.EveryCommandCompletes := by
  intro s hb h
  induction hl : s.edges generalizing s with
  | nil =>
    have hf : s.nextEdge.finish = true := by rw [State.nextEdge, hl]; rfl
    exact ⟨1, le_rfl, le_rfl, tick_not_busy (nextEdge_rst_of_edges h) hb hf⟩
  | cons e es ih =>
    have hr := nextEdge_rst_of_edges h
    cases hf : s.nextEdge.finish
    · obtain ⟨w, hp⟩ := (busy_iff s).mp hb
      have htick := tick_busy hr hp hf
      have hes : s.tick.edges = es := by rw [htick, State.sampled_edges, hl, List.tail_cons]
      have hrest : ∀ e ∈ s.tick.edges, e.rst = false :=
        fun x hx => h x (hl ▸ List.mem_cons_of_mem e (hes ▸ hx))
      obtain ⟨k, -, hk, hdone⟩ := ih s.tick (htick ▸ hb) hrest hes
      exact ⟨k + 1, Nat.le_add_left 1 k, Nat.succ_le_succ hk, hdone⟩
    · exact ⟨1, le_rfl, Nat.le_add_left 1 _, tick_not_busy hr hb hf⟩

end Sys2Proof.Machine
end

section
/-! PROOF. Decode and encode agree (spec/30_encoding.md R60 to R71). The one idea: a command's row accepts exactly the
words with the command's opcode and 0 in the fields that its format leaves unused, and its operands are the other
fields; so the word of a command is read back, and nothing of a legal word is lost. -/

namespace Sys2Proof

/-! ## A command's row of the opcode table -/

/-- The number of the row that a command's words match (R68). -/
def Instr.rowNumber (i : Instr) : Fin 23 :=
  match i with
  | .nop => 0 | .setm _ => 1 | .clrerr => 2 | .rdstat => 3 | .ldi .. => 4 | .rds _ => 5
  | .aff .. => 6 | .affi .. => 7 | .inv .. => 8 | .gcd .. => 9 | .solve2 .. => 10 | .solk .. => 11
  | .mdim .. => 12 | .mseti .. => 13 | .vseti .. => 14 | .rdm .. => 15 | .rdv .. => 16 | .rddim _ => 17
  | .vmul .. => 18 | .mvmul .. => 19 | .det .. => 20 | .adj .. => 21 | .matinv .. => 22

/-- The row that a command's words match (R68). -/
def Instr.row (i : Instr) : OpRow := opTable.get i.rowNumber

/-- The fields of a command's format that it does not use, each as its lowest bit and its width (R61 to R66). -/
def Instr.unusedFields (i : Instr) : List (Nat × Nat) :=
  match i with
  | .nop | .clrerr | .rdstat => [(8, 24)]
  | .setm _ => [(8, 8)]
  | .ldi .. => [(12, 4)]
  | .rds _ => [(12, 20)]
  | .inv .. | .gcd .. => [(16, 16)]
  | .solk .. => [(20, 12)]
  | .aff .. | .affi .. => [(24, 8)]
  | .solve2 .. => [(28, 4)]
  | .mseti .. => []
  | .mdim .. => [(10, 6)]
  | .vseti .. => [(13, 3)]
  | .rdm .. => [(16, 16)]
  | .rdv .. => [(13, 19)]
  | .rddim _ => [(10, 22)]
  | .vmul .. | .mvmul .. => [(14, 18)]
  | .det .. => [(8, 4), (14, 2), (20, 12)]
  | .adj .. | .matinv .. => [(10, 2), (14, 18)]

theorem row_mem (i : Instr) : i.row ∈ opTable := List.get_mem ..

/-- Every row is a command's. -/
theorem exists_row {r : OpRow} (hm : r ∈ opTable) : ∃ i : Instr, i.row = r := by
  obtain ⟨n, hn, rfl⟩ := List.getElem_of_mem hm
  replace hn : n < 23 := hn
  interval_cases n
  exacts [⟨.nop, rfl⟩, ⟨.setm 0, rfl⟩, ⟨.clrerr, rfl⟩, ⟨.rdstat, rfl⟩, ⟨.ldi 0 0, rfl⟩, ⟨.rds 0, rfl⟩,
    ⟨.aff 0 0 0 0, rfl⟩, ⟨.affi 0 0 0 0, rfl⟩, ⟨.inv 0 0, rfl⟩, ⟨.gcd 0 0, rfl⟩, ⟨.solve2 0 0 0 0 0, rfl⟩,
    ⟨.solk 0 0 0, rfl⟩, ⟨.mdim 0 0, rfl⟩, ⟨.mseti 0 0 0 0, rfl⟩, ⟨.vseti 0 0 0, rfl⟩, ⟨.rdm 0 0 0, rfl⟩,
    ⟨.rdv 0 0, rfl⟩, ⟨.rddim 0, rfl⟩, ⟨.vmul 0 0 0, rfl⟩, ⟨.mvmul 0 0 0, rfl⟩, ⟨.det 0 0, rfl⟩, ⟨.adj 0 0, rfl⟩,
    ⟨.matinv 0 0, rfl⟩]

theorem row_matchBits (i : Instr) : i.row.matchBits = formatZ i.opcode := by
  cases i <;> dsimp only [Instr.row, Instr.rowNumber, Instr.opcode] <;> decide

/-- The mask selects the opcode and the unused fields. -/
theorem row_mask_getLsbD (i : Instr) : ∀ k < 32, i.row.mask.getLsbD k =
    (decide (k < 8) || i.unusedFields.any fun f => decide (f.1 ≤ k ∧ k < f.1 + f.2)) := by
  cases i <;> dsimp only [Instr.row, Instr.rowNumber, Instr.unusedFields] <;> decide

/-- The unused fields stand above the opcode. -/
theorem le_of_mem_unusedFields {i : Instr} {f : Nat × Nat} (h : f ∈ i.unusedFields) : 8 ≤ f.1 := by
  have habove : ∀ f ∈ i.unusedFields, 8 ≤ f.1 := by
    cases i <;> dsimp only [Instr.unusedFields] <;> decide
  exact habove f h

theorem formatZ_getLsbD (op : BitVec 8) (k : Nat) :
    (formatZ op).getLsbD k = (decide (k < 8) && op.getLsbD k) := by
  rw [formatZ, BitVec.getLsbD_append]
  split <;> simp [*]

/-- A field of a word is 0 when each of its bits is. -/
theorem extractLsb'_eq_zero_iff (w : Word) (lo n : Nat) :
    w.extractLsb' lo n = 0#n ↔ ∀ k < 32, lo ≤ k ∧ k < lo + n → w.getLsbD k = false := by
  simp only [BitVec.eq_of_getLsbD_eq_iff, BitVec.getLsbD_extractLsb', BitVec.getLsbD_zero]
  constructor
  · intro h k _ ⟨hlo, hhi⟩
    have hbit := h (k - lo) (by omega)
    rwa [Nat.add_sub_cancel' hlo, decide_eq_true (by omega), Bool.true_and] at hbit
  · intro h k hk
    rw [decide_eq_true hk, Bool.true_and]
    by_cases h32 : lo + k < 32
    · exact h _ h32 ⟨by omega, by omega⟩
    · exact BitVec.getLsbD_of_ge w _ (by omega)

/-- A command's row accepts exactly the words with its opcode and 0 in its unused fields (R61 to R66, R68). -/
theorem accepts_row_iff (i : Instr) (w : Word) : i.row.accepts w = true ↔
    opcodeOf w = i.opcode ∧ ∀ f ∈ i.unusedFields, w.extractLsb' f.1 f.2 = 0#f.2 := by
  simp only [OpRow.accepts_iff, row_matchBits, extractLsb'_eq_zero_iff]
  simp only [opcodeOf, BitVec.eq_of_getLsbD_eq_iff, BitVec.getLsbD_and, BitVec.getLsbD_extractLsb', formatZ_getLsbD]
  constructor
  · refine fun h => ⟨fun k hk => ?_, fun f hf k hk hmem => ?_⟩
    · have hbit := h k (by omega)
      rw [row_mask_getLsbD i k (by omega)] at hbit
      simpa [hk] using hbit
    · have hbit := h k hk
      have h8 := le_of_mem_unusedFields hf
      have hmask : i.row.mask.getLsbD k = true := by
        rw [row_mask_getLsbD i k hk, List.any_eq_true.mpr ⟨f, hf, decide_eq_true hmem⟩, Bool.or_true]
      rwa [hmask, Bool.and_true, decide_eq_false (by omega), Bool.false_and] at hbit
  · rintro ⟨hop, hunused⟩ k hk
    rw [row_mask_getLsbD i k hk]
    by_cases h8 : k < 8
    · simpa [h8] using hop k h8
    · rw [decide_eq_false h8, Bool.false_or, Bool.false_and, Bool.and_eq_false_imp]
      intro hw
      rw [List.any_eq_false]
      intro f hf hmem
      rw [hunused f hf k hk (of_decide_eq_true hmem)] at hw
      cases hw

/-- The same of the word as a number. -/
theorem accepts_row_iff_toNat (i : Instr) (w : Word) : i.row.accepts w = true ↔
    w.toNat % 256 = i.opcode.toNat ∧ ∀ f ∈ i.unusedFields, w.toNat / 2 ^ f.1 % 2 ^ f.2 = 0 := by
  simp only [accepts_row_iff, ← BitVec.toNat_inj, opcodeOf_toNat, BitVec.extractLsb'_toNat,
    Nat.shiftRight_eq_div_pow, BitVec.toNat_ofNat, Nat.zero_mod]

/-! ## The fields of a format's word -/

section
variable {op : BitVec 8} {imm : Elem} {f5 f4 f3 f2 f1 sd : SReg} {j i : Idx} {r rk rs rd : Fin 4}

@[simp] theorem immOf_formatU : immOf (formatU imm op) = imm :=
  BitVec.eq_of_toNat_eq (by rw [immOf_toNat, formatU_toNat]; omega)

@[simp] theorem immOf_formatI : immOf (formatI imm sd op) = imm :=
  BitVec.eq_of_toNat_eq (by rw [immOf_toNat, formatI_toNat]; omega)

@[simp] theorem immOf_formatE : immOf (formatE imm j i r op) = imm :=
  BitVec.eq_of_toNat_eq (by rw [immOf_toNat, formatE_toNat]; omega)

@[simp] theorem sregAt_formatI : sregAt (formatI imm sd op) 8 = sd :=
  Fin.ext (by rw [sregAt_val, formatI_toNat]; omega)

@[simp] theorem sregAt_formatS_8 : sregAt (formatS f5 f4 f3 f2 f1 op) 8 = f1 :=
  Fin.ext (by rw [sregAt_val, formatS_toNat]; omega)

@[simp] theorem sregAt_formatS_12 : sregAt (formatS f5 f4 f3 f2 f1 op) 12 = f2 :=
  Fin.ext (by rw [sregAt_val, formatS_toNat]; omega)

@[simp] theorem sregAt_formatS_16 : sregAt (formatS f5 f4 f3 f2 f1 op) 16 = f3 :=
  Fin.ext (by rw [sregAt_val, formatS_toNat]; omega)

@[simp] theorem sregAt_formatS_20 : sregAt (formatS f5 f4 f3 f2 f1 op) 20 = f4 :=
  Fin.ext (by rw [sregAt_val, formatS_toNat]; omega)

@[simp] theorem sregAt_formatS_24 : sregAt (formatS f5 f4 f3 f2 f1 op) 24 = f5 :=
  Fin.ext (by rw [sregAt_val, formatS_toNat]; omega)

@[simp] theorem kregAt_formatE : kregAt (formatE imm j i r op) 8 = r :=
  Fin.ext (by rw [kregAt_val, formatE_toNat]; omega)

@[simp] theorem idxAt_formatE_10 : idxAt (formatE imm j i r op) 10 = i :=
  Fin.ext (by rw [idxAt_val, formatE_toNat]; omega)

@[simp] theorem idxAt_formatE_13 : idxAt (formatE imm j i r op) 13 = j :=
  Fin.ext (by rw [idxAt_val, formatE_toNat]; omega)

@[simp] theorem kregAt_formatX_8 : kregAt (formatX sd rk rs rd op) 8 = rd :=
  Fin.ext (by rw [kregAt_val, formatX_toNat]; omega)

@[simp] theorem kregAt_formatX_10 : kregAt (formatX sd rk rs rd op) 10 = rs :=
  Fin.ext (by rw [kregAt_val, formatX_toNat]; omega)

@[simp] theorem kregAt_formatX_12 : kregAt (formatX sd rk rs rd op) 12 = rk :=
  Fin.ext (by rw [kregAt_val, formatX_toNat]; omega)

@[simp] theorem sregAt_formatX : sregAt (formatX sd rk rs rd op) 16 = sd :=
  Fin.ext (by rw [sregAt_val, formatX_toNat]; omega)

end

/-! ## Encode, then decode -/

theorem buildSolk_eq_some_iff {w : Word} {i : Instr} : buildSolk w = some i ↔
    sregAt w 8 ≠ sregAt w 12 ∧ .solk (sregAt w 8) (sregAt w 12) (sregAt w 16) = i := by
  unfold buildSolk
  split <;> simp [*]

/-- A command's row accepts the word that its format writes. -/
theorem accepts_encode (i : Instr) : i.row.accepts (encode i) = true := by
  rw [accepts_row_iff_toNat]
  cases i <;>
    simp only [encode, Instr.unusedFields, formatZ_toNat, formatU_toNat, formatI_toNat, formatS_toNat, formatE_toNat,
      formatX_toNat, List.forall_mem_cons, List.not_mem_nil, false_implies, implies_true, and_true, Fin.val_zero,
      BitVec.ofNat_eq_ofNat, BitVec.toNat_zero] <;>
    omega

/-- A well-formed command's row reads the command's operands back from that word. -/
theorem build_encode {i : Instr} (h : i.WellFormed = true) : i.row.build (encode i) = some i := by
  cases i with
  | solk sda sdb sk =>
    refine buildSolk_eq_some_iff.mpr ?_
    simpa [encode, Instr.WellFormed] using h
  | _ => simp [Instr.row, Instr.rowNumber, opTable, encode]

/-- Settles O9: the row that accepts the word reads the operands back. -/
theorem decodeOfEncode : Obligations.DecodeOfEncode := fun i h =>
  (decode_of_accepts (row_mem i) (accepts_encode i)).trans (build_encode h)

/-! ## Decode, then encode -/

/-- The row that builds a command is the command's row. -/
theorem row_of_build {r : OpRow} {w : Word} {i : Instr} (hm : r ∈ opTable) (hb : r.build w = some i) : i.row = r := by
  obtain ⟨j, rfl⟩ := exists_row hm
  cases j with
  | solk =>
    obtain ⟨-, rfl⟩ := buildSolk_eq_some_iff.mp hb
    rfl
  | _ => cases hb; rfl

theorem wellFormed_of_build_row {w : Word} {i : Instr} (hb : i.row.build w = some i) : i.WellFormed = true := by
  cases i with
  | solk sda sdb sk =>
    obtain ⟨hne, h⟩ := buildSolk_eq_some_iff.mp hb
    cases h
    simpa [Instr.WellFormed] using hne
  | _ => rfl

/-- The opcode, the unused fields and the operands are the whole of a legal word. -/
theorem encode_of_build_row {w : Word} {i : Instr} (ha : i.row.accepts w = true) (hb : i.row.build w = some i) :
    encode i = w := by
  obtain ⟨hop, hunused⟩ := (accepts_row_iff_toNat i w).mp ha
  apply BitVec.eq_of_toNat_eq
  cases i
  case' solk => replace hb := (buildSolk_eq_some_iff.mp hb).2
  all_goals
    cases hb
    simp only [Instr.unusedFields, List.forall_mem_cons] at hunused
    simp only [encode, formatZ_toNat, formatU_toNat, formatI_toNat, formatS_toNat, formatE_toNat, formatX_toNat,
      immOf_toNat, sregAt_val, kregAt_val, idxAt_val, Fin.val_zero, BitVec.ofNat_eq_ofNat, BitVec.toNat_zero]
    omega

/-- Settles O10: the row that reads the word is the command's, so its format writes every bit of the word back. -/
theorem encodeOfDecode : Obligations.EncodeOfDecode := by
  intro w i h
  obtain ⟨r, hm, ha, hb⟩ := decode_some h
  obtain rfl := row_of_build hm hb
  exact ⟨encode_of_build_row ha hb, wellFormed_of_build_row hb⟩

/-! ## The table of legal words -/

/-- Two rows that accept one word are one row. -/
theorem row_unique {r q : OpRow} {w : Word} (hr : r ∈ opTable) (hq : q ∈ opTable) (har : r.accepts w = true)
    (haq : q.accepts w = true) : r = q :=
  Option.some.inj ((find_of_accepts opTable_excludes hr har).symm.trans (find_of_accepts opTable_excludes hq haq))

theorem opcodeOf_encode (i : Instr) : opcodeOf (encode i) = i.opcode :=
  ((accepts_row_iff i _).mp (accepts_encode i)).1

/-- The two destination fields of SOLK hold different numbers (R70). -/
def solkDestinationsDiffer (w : Word) : Prop := w.extractLsb' 8 4 ≠ w.extractLsb' 12 4

theorem solkDestinationsDiffer_iff (w : Word) : solkDestinationsDiffer w ↔ sregAt w 8 ≠ sregAt w 12 :=
  (BitVec.toFin_inj.not).symm

/-- A row builds a command from every word it accepts, but SOLK's only from one that names two destinations. -/
theorem exists_build {r : OpRow} {w : Word} (hm : r ∈ opTable) (ha : r.accepts w = true)
    (hsolk : opcodeOf w = 0x15 → solkDestinationsDiffer w) : ∃ i, r.build w = some i := by
  obtain ⟨j, rfl⟩ := exists_row hm
  cases j with
  | solk =>
    have hop := ((accepts_row_iff _ w).mp ha).1
    exact ⟨_, buildSolk_eq_some_iff.mpr ⟨(solkDestinationsDiffer_iff w).mp (hsolk hop), rfl⟩⟩
  | _ => exact ⟨_, rfl⟩

/-- A legal word with SOLK's opcode is a SOLK, which names two destinations. -/
theorem solkDestinationsDiffer_of_decode {w : Word} {i : Instr} (h : decode w = some i) (hop : opcodeOf w = 0x15) :
    solkDestinationsDiffer w := by
  obtain ⟨henc, hwf⟩ := encodeOfDecode w i h
  rw [← henc, opcodeOf_encode] at hop
  cases i with
  | solk sda sdb sk =>
    rw [solkDestinationsDiffer_iff, ← henc]
    simpa [encode, Instr.WellFormed] using hwf
  | _ => cases hop

/-- The legal words, by the rows (R71). -/
theorem decode_isSome_iff (w : Word) : (decode w).isSome ↔
    (∃ r ∈ opTable, r.accepts w = true) ∧ (opcodeOf w = 0x15 → solkDestinationsDiffer w) := by
  rw [Option.isSome_iff_exists]
  constructor
  · rintro ⟨i, h⟩
    obtain ⟨r, hm, ha, -⟩ := decode_some h
    exact ⟨⟨r, hm, ha⟩, solkDestinationsDiffer_of_decode h⟩
  · rintro ⟨⟨r, hm, ha⟩, hsolk⟩
    rw [decode_of_accepts hm ha]
    exact exists_build hm ha hsolk

/-- Settles O11: the table is that of the rows, which exclude one another. -/
theorem legalWordsAreTheTable : Obligations.LegalWordsAreTheTable := by
  unfold Obligations.LegalWordsAreTheTable
  intro table w
  have htable : table = opTable.map fun r => (r.matchBits, r.mask) := rfl
  rw [htable]
  simp only [List.forall_mem_map]
  simp only [List.mem_map, exists_exists_and_eq_and, ← OpRow.accepts_iff]
  refine ⟨decode_isSome_iff w, fun r hr q hq har haq => ?_⟩
  rw [row_unique hr hq har haq]

/-! ## The worked encodings -/

/-- Settles O8, by running the decoder on the nine words. -/
theorem workedEncodingsDecode : Obligations.WorkedEncodingsDecode := by
  unfold Obligations.WorkedEncodingsDecode
  decide

end Sys2Proof
end

section
/-! PROOF. The assembler reads a printed command as that command (spec/30_encoding.md R73, R74): the lexer finds the
mnemonic and the operands, the operands' readers invert their printers, and the mnemonic selects its form. -/

namespace Sys2Proof.Machine

/-! ## The lexer on a printed line -/

/-- A word of a line: some characters, none of which ends a word. -/
def isWord (cs : List Char) : Prop := cs ≠ [] ∧ ∀ c ∈ cs, isWordChar c = true

theorem isWord_cons {c : Char} {cs : List Char} (hc : isWordChar c = true) (h : isWord cs) : isWord (c :: cs) :=
  ⟨List.cons_ne_nil c cs, List.forall_mem_cons.mpr ⟨hc, h.2⟩⟩

theorem isWord_decimal (n : Nat) : isWord (decimal n) :=
  ⟨decimalDigits_ne_nil 5 n [] (.inr (by decide)), fun c hc => (decimalDigits_chars 5 n [] nofun c hc).1⟩

theorem isWord_mnemonicText (i : Instr) : isWord (mnemonicText i) := by
  constructor
  · cases i <;> exact List.cons_ne_nil _ _
  · cases i <;> simp [mnemonicText, isWordChar, isSpace]

theorem isWord_operandTexts (i : Instr) : ∀ w ∈ operandTexts i, isWord w := by
  have hs (r : SReg) : isWord (sregText r) := isWord_cons (by decide) (isWord_decimal r)
  have hk (r : KReg) : isWord (kregText r) := isWord_cons (by decide) (isWord_decimal r)
  have hv (r : VReg) : isWord (vregText r) := isWord_cons (by decide) (isWord_decimal r)
  cases i <;> simp [operandTexts, hs, hk, hv, isWord_decimal]

/-- What may follow the last word of a line: nothing that the lexer makes a token of. -/
def endsLine (tail : List Char) : Prop := ∀ acc, tokens acc tail = endWord acc

theorem endsLine_nil : endsLine [] := fun _ => by rw [tokens]

theorem endsLine_comment (comment : List Char) : endsLine (';' :: comment) := fun _ => by rw [tokens, if_pos rfl]

/-- The tokens of a command's operands. -/
def operandTokens (ops : List (List Char)) : List Token :=
  match ops with
  | [] => []
  | w :: ws => .word w :: ws.flatMap fun v => [.comma, .word v]

theorem tokens_of_isWord {w : List Char} (h : isWord w) (rest : List Char) :
    tokens [] (w ++ rest) = tokens w rest := by
  rw [tokens_word w [] rest h.2, List.nil_append]

theorem endWord_of_isWord {w : List Char} (h : isWord w) : endWord w = [.word w] := if_neg h.1

theorem tokens_space (acc rest : List Char) : tokens acc (' ' :: rest) = endWord acc ++ tokens [] rest := by
  rw [tokens]
  simp [isSpace]

theorem tokens_comma (acc rest : List Char) : tokens acc (',' :: rest) = endWord acc ++ .comma :: tokens [] rest := by
  rw [tokens]
  simp

theorem tokens_operandLine {tail : List Char} (htail : endsLine tail) (w : List Char) (ws : List (List Char))
    (h : ∀ v ∈ w :: ws, isWord v) : tokens [] (operandLine w ws ++ tail) = operandTokens (w :: ws) := by
  induction ws generalizing w with
  | nil =>
    have hw := h w List.mem_cons_self
    rw [operandLine, tokens_of_isWord hw, htail, endWord_of_isWord hw]
    rfl
  | cons v vs ih =>
    obtain ⟨hw, hvs⟩ := List.forall_mem_cons.mp h
    rw [operandLine, List.append_assoc, tokens_of_isWord hw, List.cons_append, tokens_comma, List.cons_append,
      tokens_space, ih v hvs, endWord_of_isWord hw]
    rfl

/-- The tokens of a printed command. -/
theorem tokens_printCommand {tail : List Char} (htail : endsLine tail) (i : Instr) :
    tokens [] (printCommand i ++ tail) = .word (mnemonicText i) :: operandTokens (operandTexts i) := by
  have hm := isWord_mnemonicText i
  have hops := isWord_operandTexts i
  unfold printCommand
  cases hi : operandTexts i with
  | nil =>
    dsimp only
    rw [tokens_of_isWord hm, htail, endWord_of_isWord hm]
    rfl
  | cons w ws =>
    dsimp only
    rw [List.append_assoc, tokens_of_isWord hm, List.cons_append, tokens_space, endWord_of_isWord hm,
      tokens_operandLine htail w ws (hi ▸ hops)]
    rfl

theorem operandsAfter_operandTokens (w : List Char) (ws : List (List Char)) :
    operandsAfter w (ws.flatMap fun v => [.comma, .word v]) = some (w :: ws) := by
  induction ws generalizing w with
  | nil => rfl
  | cons v vs ih => simp [operandsAfter, ih v]

theorem operandList_operandTokens (ops : List (List Char)) : operandList (operandTokens ops) = some ops := by
  cases ops with
  | nil => rfl
  | cons w ws => exact operandsAfter_operandTokens w ws

/-! ## Printed operands read back -/

@[simp] theorem readSreg_sregText : ∀ r : SReg, readSreg (sregText r) = some r := by decide

@[simp] theorem readKreg_kregText : ∀ r : KReg, readKreg (kregText r) = some r := by decide

@[simp] theorem readVreg_vregText : ∀ r : VReg, readVreg (vregText r) = some r := by decide

@[simp] theorem readIdx_decimal (i : Idx) : readIdx (decimal i) = some i := by
  rw [readIdx, numeral_decimal (by omega), Option.bind_some, dif_pos i.isLt]

@[simp] theorem readImm_decimal (imm : Elem) : readImm (decimal imm.toNat) = some imm := by
  have hlt : imm.toNat < 65536 := imm.isLt
  rw [readImm, numeral_decimal (by omega), Option.bind_some, if_pos hlt, BitVec.ofNat_toNat, BitVec.setWidth_eq]

/-! ## The forms -/

/-- A command's mnemonic selects a form that reads the command from its printed operands. -/
theorem exists_form (i : Instr) : ∃ form, (asmForms.find? fun f => f.1 == (mnemonicText i).map lowerChar) = some form ∧
    form.2 (operandTexts i) = some i := by
  cases i <;> exact ⟨_, rfl, by simp [operandTexts]⟩

theorem readCommand_printed {i : Instr} (h : i.WellFormed = true) :
    readCommand (mnemonicText i) (operandTexts i) = some i := by
  obtain ⟨form, hform, hread⟩ := exists_form i
  simp [readCommand, hform, hread, h]

/-- A line that holds a printed command and perhaps a comment assembles to the command. -/
theorem assembleLine_printCommand {i : Instr} (h : i.WellFormed = true) {tail : List Char} (htail : endsLine tail) :
    assembleLine (printCommand i ++ tail) = .command i := by
  rw [assembleLine, tokens_printCommand htail]
  dsimp only
  rw [operandList_operandTokens, Option.bind_some, readCommand_printed h]

/-- Settles O13: nothing, or a comment, ends the line after the printed command. -/
theorem assemblerReadsWhatIsPrinted : Obligations.AssemblerReadsWhatIsPrinted := by
  intro i comment h
  have hbare := assembleLine_printCommand h endsLine_nil
  rw [List.append_nil] at hbare
  exact ⟨hbare, assembleLine_printCommand h (endsLine_comment comment)⟩

/-- Settles O12, by running the assembler on the fixed lines. -/
theorem workedLinesAssemble : Obligations.WorkedLinesAssemble := by
  unfold Obligations.WorkedLinesAssemble
  decide

end Sys2Proof.Machine
end

section
/-! PROOF. System and configuration commands (spec/40_system_config.md R80 to R83): NOP, SETM with its CFG faults, the
STATUS word, and the fault state, which a step keeps unless it resets or completes CLRERR. -/

namespace Sys2Proof.Machine

/-! ## SETM -/

/-- Outside the fault state SETM has one check, CFG, and one write (R81, R156). -/
theorem exec_setm_of_running (imm : Elem) {s : State} (hF : s.FAULT = false) :
    exec (.setm imm) s = .next (
      if s.MLOCK = true ∨ imm = 0 then s.raise (Instr.setm imm).opcode .cfg else s.setModulus imm) := by
  by_cases hc : s.MLOCK = true ∨ imm = 0
  · rw [if_pos hc]
    exact exec_faults rfl hF (if_pos hc)
  · rw [if_neg hc]
    exact exec_completes rfl hF (if_neg hc)

/-- Settles O23: squashed in the fault state, and outside it by its check. -/
theorem setmFixesTheModulus : Obligations.SetmFixesTheModulus := by
  intro imm s
  refine ⟨decodeOfEncode (.setm imm) rfl, ?_⟩
  have hzero : imm.toNat = 0 ↔ imm = 0 := BitVec.toNat_inj (y := 0)
  simp only [hzero]
  split
  · next hF => exact exec_squashed rfl hF
  · next hF => exact exec_setm_of_running imm (Bool.eq_false_of_not_eq_true hF)

/-! ## The fault state -/

section
variable {s t : State}

/-- In the fault state every command but CLRERR keeps the fault fields: it is squashed or it only responds (R155). -/
theorem exec_keeps_fault {i : Instr} (hF : s.FAULT = true) (hne : i ≠ .clrerr) (h : exec i s = .next t) :
    t.FAULT = true ∧ t.CODE = s.CODE ∧ t.FOP = s.FOP := by
  obtain ⟨-, rfl | ⟨-, v, rfl⟩ | ⟨hi, -⟩⟩ | ⟨-, -, rfl⟩ | ⟨-, hF', -⟩ | ⟨-, hF', -⟩ := exec_cases h
  · exact ⟨hF, rfl, rfl⟩
  · exact ⟨hF, rfl, rfl⟩
  · exact absurd hi hne
  · exact ⟨hF, rfl, rfl⟩
  all_goals nomatch hF.symm.trans hF'

/-- So does every word but CLRERR's; an illegal one is squashed (R152). -/
theorem execWord_keeps_fault {w : Word} (hF : s.FAULT = true) (hne : w ≠ encode .clrerr)
    (h : execWord w s = .next t) : t.FAULT = true ∧ t.CODE = s.CODE ∧ t.FOP = s.FOP := by
  obtain ⟨i, hd, e⟩ | ⟨-, e⟩ := execWord_cases w s <;> rw [e] at h
  · obtain ⟨henc, -⟩ := encodeOfDecode w i hd
    exact exec_keeps_fault hF (fun hi => hne (by rw [← henc, hi])) h
  · obtain ⟨-, e⟩ | ⟨hF', -⟩ := illegalWord_cases s (opcodeOf w)
    · obtain rfl := Host.Outcome.next.inj (e ▸ h)
      exact ⟨hF, rfl, rfl⟩
    · nomatch hF.symm.trans hF'

/-- So does every edge, unless it resets or completes CLRERR. -/
theorem step_fault_cases (hF : s.FAULT = true) (h : step s = .next t) :
    (t.FAULT = true ∧ t.CODE = s.CODE ∧ t.FOP = s.FOP) ∨ s.nextEdge.rst = true ∨
    (s.inProgress = some (encode .clrerr) ∧ s.nextEdge.finish = true) := by
  obtain ⟨hr, -⟩ | ⟨-, w, hp, hf, e⟩ | ⟨-, w, -, -, e⟩ | ⟨-, -, -, -, e⟩ | ⟨-, -, -, e⟩ := step_cases s
  · exact .inr (.inl hr)
  · by_cases hw : w = encode .clrerr
    · exact .inr (.inr ⟨hw ▸ hp, hf⟩)
    · exact .inl (execWord_keeps_fault (s := (s.sampled s.nextEdge).complete) hF hw (e.symm.trans h))
  all_goals
    obtain rfl := Host.Outcome.next.inj (e.symm.trans h)
    exact .inl ⟨hF, rfl, rfl⟩

end

/-- Settles O24: the word 2 is CLRERR's, the only one that does not keep the fault fields. -/
theorem clrerrAloneLeavesTheFaultState : Obligations.ClrerrAloneLeavesTheFaultState :=
  ⟨decodeOfEncode .clrerr rfl, fun _ => rfl, fun _ _ => step_fault_cases⟩

/-! ## NOP and RDSTAT -/

/-- Settles O22: the word 0 is NOP's, whose meaning answers the state it is given. -/
theorem nopChangesNothing : Obligations.NopChangesNothing := ⟨decodeOfEncode .nop rfl, fun _ => rfl⟩

/-- The STATUS view as a number (R27). -/
theorem status_toNat (s : State) : s.status.toNat =
    s.M.toNat * 65536 + s.FOP.toNat * 256 + s.CODE.toNat * 16 +
      (if s.MLOCK then 2 else 0) + (if s.FAULT then 1 else 0) := by
  have hbit (b : Bool) : (BitVec.ofBool b).toNat = if b then 1 else 0 := by cases b <;> rfl
  simp only [State.status, append_toNat, hbit, BitVec.toNat_ofNat]
  split <;> split <;> omega

/-- Settles O25: the word that RDSTAT responds is the STATUS view. -/
theorem rdstatRespondsStatus : Obligations.RdstatRespondsStatus :=
  ⟨decodeOfEncode .rdstat rfl, rfl, fun s => ⟨s.status, status_toNat s, rfl⟩⟩

end Sys2Proof.Machine
end

section
/-! PROOF. Data movement commands (spec/41_data_movement.md R90 to R97): the four writes change one register of one
file and have no check but MDIM's CFG; the four reads respond one value, zero-extended, in the fault state too. -/

namespace Sys2Proof.Machine

/-! ## The writes -/

/-- Settles O26: LDI has no check, and its write is one scalar register's. -/
theorem ldiLoadsTheImmediate : Obligations.LdiLoadsTheImmediate := fun sd imm s =>
  ⟨decodeOfEncode (.ldi sd imm) rfl, exec_squashed rfl,
    fun hF => ⟨s.setS sd imm, exec_completes rfl hF rfl, rfl, fun q => getS_setS s sd q imm⟩⟩

/-- A matrix register's elements stay when a dimension is given (R92). -/
@[simp] theorem getK_setDim (s : State) (k q : KReg) (n : BitVec 4) (a b : Idx) :
    (s.setDim k n).getK q a b = s.getK q a b := by
  simp only [State.getK, State.setDim, Fin.getElem_fin, Vector.getElem_set]
  split
  · next h => simp only [h]
  · rfl

/-- MDIM's word is format E with both indices unused; its six unused bits are the two index fields (R65). -/
theorem decode_mdim (kd : KReg) (n : Elem) :
    decode (n ++ 0#6 ++ BitVec.ofFin (w := 2) kd ++ 0x20#8) = some (.mdim kd n) := by
  have hword : n ++ 0#6 = n ++ 0#3 ++ 0#3 := (BitVec.append_assoc (x₁ := n) (x₂ := 0#3) (x₃ := 0#3)).symm
  rw [hword]
  exact decodeOfEncode (.mdim kd n) rfl

/-- A dimension that MDIM accepts fits `dim`'s four bits. -/
theorem dim_toNat_of_le {n : Elem} (h : n.toNat ≤ 8) : (n.setWidth 4).toNat = n.toNat := by
  rw [BitVec.toNat_setWidth, Nat.mod_eq_of_lt (by omega)]

/-- Settles O28: MDIM's one check is on n, and its write keeps every element and every other dimension. -/
theorem mdimGivesTheDimension : Obligations.MdimGivesTheDimension := by
  intro kd n s
  refine ⟨decode_mdim kd n, exec_squashed rfl, fun hF hn => exec_faults (c := .cfg) rfl hF (if_pos hn),
    fun hF h1 h8 => ?_⟩
  have hcheck : ¬ (n.toNat = 0 ∨ n.toNat > Config.nmax) := not_or.mpr ⟨by omega, h8.not_gt⟩
  refine ⟨s.setDim kd (n.setWidth 4), exec_completes rfl hF (if_neg hcheck), rfl, fun q => ?_,
    fun q => getK_setDim s kd q _⟩
  rw [getDim_setDim, apply_ite BitVec.toNat, dim_toNat_of_le h8]

/-- Settles O29: MSETI has no check, and its write is one matrix element's. -/
theorem msetiWritesOneElement : Obligations.MsetiWritesOneElement := fun kd i j imm s =>
  ⟨decodeOfEncode (.mseti kd i j imm) rfl, exec_squashed rfl,
    fun hF => ⟨s.setK kd i j imm, exec_completes rfl hF rfl, rfl, fun q => getDim_setK s kd q i j imm,
      fun q a b => getK_setK s kd q i j a b imm⟩⟩

/-- Settles O30: VSETI has no check, and its write is one vector element's. -/
theorem vsetiWritesOneElement : Obligations.VsetiWritesOneElement := fun vd i imm s =>
  ⟨decodeOfEncode (.vseti vd i imm) rfl, exec_squashed rfl,
    fun hF => ⟨s.setV vd i imm, exec_completes rfl hF rfl, rfl, fun q a => getV_setV s vd q i a imm⟩⟩

/-! ## The reads -/

/-- What a read command's pseudocode responds, zero-extended, is the number that was read. -/
theorem responds_toNat {i : Instr} {s : State} {n : Nat} {x : BitVec n} (hn : n ≤ 32)
    (h : exec i s = .next (s.respond (x.setWidth 32))) :
    ∃ w : Word, w.toNat = x.toNat ∧ exec i s = .next { s with RSP := s.RSP ++ [w], slot := some w } :=
  ⟨x.setWidth 32, BitVec.toNat_setWidth_of_le hn, h⟩

/-- Settles O27: the register's 16 bits, zero-extended. -/
theorem rdsRespondsTheRegister : Obligations.RdsRespondsTheRegister := fun ss _ =>
  ⟨decodeOfEncode (.rds ss) rfl, responds_toNat (by decide) rfl⟩

/-- Settles O31: each read responds what its register holds, and a dimension is responded as the number it is. -/
theorem elementReadsRespond : Obligations.ElementReadsRespond := by
  intro ks vs i j s
  obtain ⟨w, hw, hexec⟩ := responds_toNat (i := .rddim ks) (s := s) (by decide) rfl
  exact ⟨decodeOfEncode (.rdm ks i j) rfl, decodeOfEncode (.rdv vs i) rfl, decodeOfEncode (.rddim ks) rfl,
    responds_toNat (by decide) rfl, responds_toNat (by decide) rfl, w, hw, hw.trans_le, hexec⟩

end Sys2Proof.Machine
end

section
/-! PROOF. The affine unit's commands on one scalar result (spec/42_affine.md R100 to R103, R106): RANGE over the
sources first, then NONINV where a source is inverted, then the value; and AFF and AFFI undo each other. -/

namespace Sys2Proof.Machine

/-! ## Faults -/

section
variable {s : State} {i : Instr} {f : Unit → Except Cause Unit}

/-- Every scalar source of a command is a ring element (spec/00_scope.md R11). -/
def State.scalarsRing (s : State) (i : Instr) : Prop := ∀ r ∈ i.scalarSources, (s.getS r).toNat < s.M.toNat

theorem requireRing_scalars_ok (h : s.scalarsRing i) : requireRing s (i.scalarSources.map s.getS) = .ok () :=
  requireRing_ok s _ (List.forall_mem_map.mpr h)

theorem requireRing_scalars_error (h : ¬ s.scalarsRing i) :
    requireRing s (i.scalarSources.map s.getS) = .error .range :=
  requireRing_error s _ (mt List.forall_mem_map.mp h)

/-- RANGE comes before any other check of the command, which may have none (spec/60_exceptions.md R153, R157). -/
theorem exec_faults_range (ha : i.alwaysExecutes = false) (hF : s.FAULT = false)
    (hc : commandCheck i s = requireRing s (i.scalarSources.map s.getS) >>= f) (h : ¬ s.scalarsRing i) :
    exec i s = .next ((s.raise i.opcode .range).lockedBy i) :=
  exec_faults ha hF (by rw [hc, requireRing_scalars_error h, error_bind])

/-- NONINV when the ring element to invert is no unit (spec/60_exceptions.md R158). -/
theorem exec_faults_noninv {a m : Nat} (ha : i.alwaysExecutes = false) (hF : s.FAULT = false)
    (hc : commandCheck i s = requireRing s (i.scalarSources.map s.getS) >>= fun _ => requireUnit .noninv a m)
    (h : s.scalarsRing i) (hg : Nat.gcd a m ≠ 1) : exec i s = .next ((s.raise i.opcode .noninv).lockedBy i) :=
  exec_faults ha hF (by rw [hc, requireRing_scalars_ok h, ok_bind, requireUnit, if_pos hg])

end

@[simp] theorem scalarsRing_aff (s : State) (sd sa sx sb : SReg) : s.scalarsRing (.aff sd sa sx sb) ↔
    (s.getS sa).toNat < s.M.toNat ∧ (s.getS sx).toNat < s.M.toNat ∧ (s.getS sb).toNat < s.M.toNat := by
  simp [State.scalarsRing, Instr.scalarSources]

@[simp] theorem scalarsRing_affi (s : State) (sd sa sy sb : SReg) : s.scalarsRing (.affi sd sa sy sb) ↔
    (s.getS sa).toNat < s.M.toNat ∧ (s.getS sy).toNat < s.M.toNat ∧ (s.getS sb).toNat < s.M.toNat := by
  simp [State.scalarsRing, Instr.scalarSources]

@[simp] theorem scalarsRing_inv (s : State) (sd ss : SReg) :
    s.scalarsRing (.inv sd ss) ↔ (s.getS ss).toNat < s.M.toNat := by
  simp [State.scalarsRing, Instr.scalarSources]

@[simp] theorem scalarsRing_gcd (s : State) (sd ss : SReg) :
    s.scalarsRing (.gcd sd ss) ↔ (s.getS ss).toNat < s.M.toNat := by
  simp [State.scalarsRing, Instr.scalarSources]

@[simp] theorem scalarsRing_solve2 (s : State) (sd sx1 sy1 sx2 sy2 : SReg) :
    s.scalarsRing (.solve2 sd sx1 sy1 sx2 sy2) ↔ (s.getS sx1).toNat < s.M.toNat ∧
      (s.getS sy1).toNat < s.M.toNat ∧ (s.getS sx2).toNat < s.M.toNat ∧ (s.getS sy2).toNat < s.M.toNat := by
  simp [State.scalarsRing, Instr.scalarSources]

/-! ## AFF -/

/-- Settles O32: one check, RANGE, and one write. -/
theorem affComputesTheAffineTransform : Obligations.AffComputesTheAffineTransform := by
  intro sd sa sx sb s m a x b
  refine ⟨decodeOfEncode (.aff sd sa sx sb) rfl, exec_squashed rfl, fun hF h => ?_, fun hF ha hx hb => ?_⟩
  · exact exec_faults_range rfl hF (bind_pure _).symm (mt (scalarsRing_aff ..).mp h)
  · exact ⟨_, toElem_mod_toNat s.M (Nat.mod_lt _ (Nat.zero_lt_of_lt ha)), exec_aff_completes hF sd ha hx hb⟩

/-! ## AFFI -/

/-- AFFI reduces the difference before it multiplies and stores; the number stored is the product's residue. -/
theorem toElem_mul_residue {M : Elem} (hM : 0 < M.toNat) (n : Nat) (d : Int) :
    ((toElem ((n * residue d M.toNat) % M.toNat)).toNat : Int) = ((n : Int) * d) % (M.toNat : Int) := by
  rw [toElem_mod_toNat M (Nat.mod_lt _ hM)]
  push_cast
  exact (residue_modEq d hM).mul_left n

/-- Settles O33: RANGE, then NONINV, then the inverse of `a` times the difference. -/
theorem affiInvertsTheAffineTransform : Obligations.AffiInvertsTheAffineTransform := by
  intro sd sa sy sb s m a y b
  refine ⟨decodeOfEncode (.affi sd sa sy sb) rfl, exec_squashed rfl, fun hF h => ?_, fun hF ha hy hb hg => ?_,
    fun hF ha hy hb hg => ?_⟩
  · exact exec_faults_range rfl hF rfl (mt (scalarsRing_affi ..).mp h)
  · exact exec_faults_noninv rfl hF rfl ((scalarsRing_affi ..).mpr ⟨ha, hy, hb⟩) hg
  · have hm : 0 < m := Nat.zero_lt_of_lt ha
    obtain ⟨hlt, hinv⟩ := modinv_spec hm hg
    exact ⟨modinv a m, _, hlt, hinv, toElem_mul_residue hm _ _, exec_affi_completes hF sd ha hy hb hg⟩

/-! ## INV -/

/-- INV on a unit (R102). -/
theorem exec_inv_completes {s : State} (hF : s.FAULT = false) (sd : SReg) {ss : SReg}
    (hv : (s.getS ss).toNat < s.M.toNat) (hg : Nat.gcd (s.getS ss).toNat s.M.toNat = 1) :
    exec (.inv sd ss) s = .next (s.setS sd (toElem (modinv (s.getS ss).toNat s.M.toNat))).lock := by
  obtain ⟨h, -⟩ | ⟨-, h, -⟩ | ⟨-, -, e⟩ := invBody_cases s sd ss
  · exact absurd hv h
  · exact absurd hg h
  · exact congrArg Host.Outcome.next (runRing_ok s _ _ hF e)

/-- Settles O34: RANGE, then NONINV, then the inverse by its defining property. -/
theorem invComputesTheModularInverse : Obligations.InvComputesTheModularInverse := by
  intro sd ss s m v
  refine ⟨decodeOfEncode (.inv sd ss) rfl, exec_squashed rfl, fun hF h => ?_, fun hF hv hg => ?_,
    fun hF hv hg => ?_⟩
  · exact exec_faults_range rfl hF rfl (mt (scalarsRing_inv ..).mp h)
  · exact exec_faults_noninv rfl hF rfl ((scalarsRing_inv ..).mpr hv) hg
  · obtain ⟨hlt, hinv⟩ := modinv_spec (Nat.zero_lt_of_lt hv) hg
    have ht : (toElem (modinv v m)).toNat = modinv v m := toElem_mod_toNat s.M hlt
    exact ⟨_, ht.trans_lt hlt, ht.symm ▸ hinv, exec_inv_completes hF sd hv hg⟩

/-! ## GCD -/

/-- GCD on a ring element (R103). -/
theorem exec_gcd_completes {s : State} (hF : s.FAULT = false) (sd : SReg) {ss : SReg}
    (hv : (s.getS ss).toNat < s.M.toNat) :
    exec (.gcd sd ss) s = .next (s.setS sd (toElem (Nat.gcd (s.getS ss).toNat s.M.toNat))).lock := by
  obtain ⟨h, -⟩ | ⟨-, e⟩ := gcdBody_cases s sd ss
  · exact absurd hv h
  · exact congrArg Host.Outcome.next (runRing_ok s _ _ hF e)

/-- A greatest common divisor with `M` fits a register. -/
theorem toElem_gcd_toNat (v : Nat) {M : Elem} (hM : 0 < M.toNat) :
    (toElem (Nat.gcd v M.toNat)).toNat = Nat.gcd v M.toNat :=
  toElem_toNat ((Nat.gcd_le_right v hM).trans_lt M.isLt)

/-- Settles O35: one check, RANGE, and one write, which is a divisor of `m`, hence in [1, m]. -/
theorem gcdWithTheModulus : Obligations.GcdWithTheModulus := by
  intro sd ss s m v
  refine ⟨decodeOfEncode (.gcd sd ss) rfl, exec_squashed rfl, fun hF h => ?_, fun hF hv => ?_⟩
  · exact exec_faults_range rfl hF (bind_pure _).symm (mt (scalarsRing_gcd ..).mp h)
  · have hm : 0 < m := Nat.zero_lt_of_lt hv
    have hg : (toElem (Nat.gcd v m)).toNat = Nat.gcd v m := toElem_gcd_toNat v hm
    refine ⟨_, hg, ?_, ?_, fun h0 => ?_, exec_gcd_completes hF sd hv⟩
    · rw [hg]; exact Nat.gcd_pos_of_pos_right v hm
    · rw [hg]; exact Nat.gcd_le_right v hm
    · rw [hg, h0, Nat.gcd_zero_left]

/-! ## The affine round trip -/

section
variable {a b x m : Nat} (hm : 0 < m) (hx : x < m) (hg : Nat.gcd a m = 1)
include hm hx hg

/-- AFFI's value undoes AFF's (R106). -/
theorem affi_value_of_aff_value :
    (modinv a m * residue (((a * x + b) % m : Nat) - (b : Int)) m) % m = x := by
  refine nat_eq_of_zmod_eq (Nat.mod_lt _ hm) hx ?_
  rw [ZMod.natCast_mod, Nat.cast_mul, residue_zmod _ hm, Int.cast_sub, Int.cast_natCast, ZMod.natCast_mod]
  push_cast
  linear_combination (x : ZMod m) * modinv_zmod hm hg

/-- AFF's value undoes AFFI's (R106). -/
theorem aff_value_of_affi_value :
    (a * ((modinv a m * residue ((x : Int) - (b : Int)) m) % m) + b) % m = x := by
  refine nat_eq_of_zmod_eq (Nat.mod_lt _ hm) hx ?_
  rw [ZMod.natCast_mod, Nat.cast_add, Nat.cast_mul, ZMod.natCast_mod, Nat.cast_mul, residue_zmod _ hm]
  push_cast
  linear_combination ((x : ZMod m) - (b : ZMod m)) * modinv_zmod hm hg

end

/-- What a command that completed with one scalar result leaves: the number stored, and the rest of what a next
command of the affine unit may read. -/
structure State.Wrote (s t : State) (sd : SReg) (n : Nat) : Prop where
  fault : t.FAULT = false
  modulus : t.M = s.M
  value : (t.getS sd).toNat = n
  others : ∀ q, sd ≠ q → t.getS q = s.getS q

/-- Another register that held a ring element still holds one. -/
theorem State.Wrote.ring {s t : State} {sd q : SReg} {n : Nat} (h : s.Wrote t sd n) (hq : sd ≠ q)
    (hr : (s.getS q).toNat < s.M.toNat) : (t.getS q).toNat < t.M.toNat := by
  rwa [h.others q hq, h.modulus]

/-- A reduced result is a ring element. -/
theorem State.Wrote.result_ring {s t : State} {sd : SReg} {n : Nat} (h : s.Wrote t sd (n % s.M.toNat))
    (hm : 0 < s.M.toNat) : (t.getS sd).toNat < t.M.toNat := by
  rw [h.value, h.modulus]
  exact Nat.mod_lt n hm

theorem wrote_setS {s : State} (hF : s.FAULT = false) (sd : SReg) {n : Nat} (hn : n < s.M.toNat) :
    s.Wrote (s.setS sd (toElem n)).lock sd n := by
  refine ⟨hF, rfl, ?_, fun q hq => ?_⟩
  · rw [State.lock_getS, getS_setS_same, toElem_mod_toNat s.M hn]
  · rw [State.lock_getS, getS_setS, if_neg hq.symm]

section
variable {s : State} {sa sx sb : SReg} (hF : s.FAULT = false) (ha : (s.getS sa).toNat < s.M.toNat)
  (hx : (s.getS sx).toNat < s.M.toNat) (hb : (s.getS sb).toNat < s.M.toNat)
include hF ha hx hb

theorem exec_aff_wrote (sd : SReg) : ∃ t, exec (.aff sd sa sx sb) s = .next t ∧
    s.Wrote t sd (((s.getS sa).toNat * (s.getS sx).toNat + (s.getS sb).toNat) % s.M.toNat) :=
  ⟨_, exec_aff_completes hF sd ha hx hb, wrote_setS hF sd (Nat.mod_lt _ (Nat.zero_lt_of_lt ha))⟩

variable (hg : Nat.gcd (s.getS sa).toNat s.M.toNat = 1)
include hg

theorem exec_affi_wrote (sd : SReg) : ∃ t, exec (.affi sd sa sx sb) s = .next t ∧
    s.Wrote t sd ((modinv (s.getS sa).toNat s.M.toNat *
      residue ((s.getS sx).toNat - (s.getS sb).toNat) s.M.toNat) % s.M.toNat) :=
  ⟨_, exec_affi_completes hF sd ha hx hb hg, wrote_setS hF sd (Nat.mod_lt _ (Nat.zero_lt_of_lt ha))⟩

variable {sd : SReg} (hda : sd ≠ sa) (hdb : sd ≠ sb) (se : SReg)
include hda hdb

theorem exec_aff_then_affi : ∃ t u, exec (.aff sd sa sx sb) s = .next t ∧
    exec (.affi se sa sd sb) t = .next u ∧ u.FAULT = false ∧ u.getS se = s.getS sx := by
  have hm : 0 < s.M.toNat := Nat.zero_lt_of_lt ha
  obtain ⟨t, et, ht⟩ := exec_aff_wrote hF ha hx hb sd
  have hgt : Nat.gcd (t.getS sa).toNat t.M.toNat = 1 := by rwa [ht.others sa hda, ht.modulus]
  obtain ⟨u, eu, hu⟩ := exec_affi_wrote ht.fault (ht.ring hda ha) (ht.result_ring hm) (ht.ring hdb hb) hgt se
  refine ⟨t, u, et, eu, hu.fault, BitVec.eq_of_toNat_eq ?_⟩
  rw [hu.value, ht.others sa hda, ht.others sb hdb, ht.modulus, ht.value, affi_value_of_aff_value hm hx hg]

theorem exec_affi_then_aff : ∃ t u, exec (.affi sd sa sx sb) s = .next t ∧
    exec (.aff se sa sd sb) t = .next u ∧ u.FAULT = false ∧ u.getS se = s.getS sx := by
  have hm : 0 < s.M.toNat := Nat.zero_lt_of_lt ha
  obtain ⟨t, et, ht⟩ := exec_affi_wrote hF ha hx hb hg sd
  obtain ⟨u, eu, hu⟩ := exec_aff_wrote ht.fault (ht.ring hda ha) (ht.result_ring hm) (ht.ring hdb hb) se
  refine ⟨t, u, et, eu, hu.fault, BitVec.eq_of_toNat_eq ?_⟩
  rw [hu.value, ht.others sa hda, ht.others sb hdb, ht.modulus, ht.value, aff_value_of_affi_value hm hx hg]

end

/-- Settles O45: the first command leaves `a`, `b` and the modulus for the second, whose value undoes its. -/
theorem affineRoundTrip : Obligations.AffineRoundTrip := by
  intro s sa sx sb sd se m hF ha hx hb hg hda hdb
  exact ⟨exec_aff_then_affi hF ha hx hb hg hda hdb se, exec_affi_then_aff hF ha hx hb hg hda hdb se⟩

end Sys2Proof.Machine
end

section
/-! PROOF. The two-point solver (spec/42_affine.md R104, R105, R107, R159): a pair (a, b) lies on both points exactly
when a·dx ≡ dy mod m and b is what the first point then leaves; the solver context lists the solutions of that
congruence, each once, and SOLK reads the list. -/

namespace Sys2Proof.Machine

/-! ## The congruence a·dx ≡ dy -/

section
variable {m : Nat} (hm : 0 < m)
include hm

theorem mul_modEq_iff_of_unit {d e : Nat} (hd : Nat.gcd d m = 1) (a : Nat) :
    a * d ≡ e [MOD m] ↔ a ≡ e * modinv d m [MOD m] := by
  have hinv := modinv_zmod hm hd
  simp only [← ZMod.natCast_eq_natCast_iff, Nat.cast_mul]
  constructor <;> intro h
  · linear_combination (modinv d m : ZMod m) * h - (a : ZMod m) * hinv
  · linear_combination (d : ZMod m) * h + (e : ZMod m) * hinv

/-- Divided by gcd(dx, m) the congruence has a unit as its coefficient. -/
theorem mul_modEq_iff_of_gcd_dvd {dx dy : Nat} (h : Nat.gcd dx m ∣ dy) (a : Nat) :
    a * dx ≡ dy [MOD m] ↔
      a ≡ dy / Nat.gcd dx m * modinv (dx / Nat.gcd dx m) (m / Nat.gcd dx m) [MOD m / Nat.gcd dx m] := by
  set g := Nat.gcd dx m
  have hg : 0 < g := Nat.gcd_pos_of_pos_right dx hm
  have hdx : g * (dx / g) = dx := Nat.mul_div_cancel' (Nat.gcd_dvd_left dx m)
  have hdy : g * (dy / g) = dy := Nat.mul_div_cancel' h
  have hmg : g * (m / g) = m := Nat.mul_div_cancel' (Nat.gcd_dvd_right dx m)
  calc a * dx ≡ dy [MOD m]
      ↔ g * (a * (dx / g)) ≡ g * (dy / g) [MOD g * (m / g)] := by rw [hdy, hmg, Nat.mul_left_comm, hdx]
    _ ↔ a * (dx / g) ≡ dy / g [MOD m / g] := Nat.ModEq.mul_left_cancel_iff' hg.ne'
    _ ↔ a ≡ dy / g * modinv (dx / g) (m / g) [MOD m / g] :=
      mul_modEq_iff_of_unit (Nat.div_pos (Nat.gcd_le_right dx hm) hg) (Nat.coprime_div_gcd_div_gcd hg) a

omit hm in
theorem gcd_dvd_of_mul_modEq {a dx dy : Nat} (h : a * dx ≡ dy [MOD m]) : Nat.gcd dx m ∣ dy :=
  (h.dvd_iff (Nat.gcd_dvd_right dx m)).mp (Nat.dvd_mul_left_of_dvd (Nat.gcd_dvd_left dx m) a)

/-! ## Pairs on both points -/

omit hm in
theorem mod_eq_iff_zmod {n y : Nat} (hy : y < m) : n % m = y ↔ (n : ZMod m) = (y : ZMod m) := by
  rw [ZMod.natCast_eq_natCast_iff', Nat.mod_eq_of_lt hy]

theorem residue_eq_iff_zmod {z : Int} {b : Nat} (hb : b < m) : residue z m = b ↔ (z : ZMod m) = (b : ZMod m) := by
  rw [← residue_zmod z hm]
  exact ⟨congrArg _, nat_eq_of_zmod_eq (residue_lt z hm) hb⟩

/-- The difference of the equations of the two points, and the first of them solved for b. -/
theorem on_both_points_iff {a b x1 y1 x2 y2 : Nat} (hb : b < m) (hy1 : y1 < m) (hy2 : y2 < m) :
    ((a * x1 + b) % m = y1 ∧ (a * x2 + b) % m = y2) ↔
      a * residue ((x2 : Int) - x1) m ≡ residue ((y2 : Int) - y1) m [MOD m] ∧
      residue ((y1 : Int) - (a : Int) * x1) m = b := by
  rw [mod_eq_iff_zmod hy1, mod_eq_iff_zmod hy2, residue_eq_iff_zmod hm hb, ← ZMod.natCast_eq_natCast_iff,
    Nat.cast_mul, residue_zmod _ hm, residue_zmod _ hm]
  push_cast
  constructor
  · rintro ⟨h1, h2⟩
    exact ⟨by linear_combination h2 - h1, by linear_combination -h1⟩
  · rintro ⟨hd, h1⟩
    exact ⟨by linear_combination -h1, by linear_combination hd - h1⟩

end

/-! ## A solver context that belongs to the modulus (R188 e) -/

section
variable {c : SolverCtx} {m k : Nat} (hmul : c.G.toNat * c.MP.toNat = m) (hA0 : c.A0.toNat < c.MP.toNat)
include hmul hA0

/-- Below the count the reduction of a_k changes nothing (R105). -/
theorem coeff_eq_of_lt (hk : k < c.G.toNat) : c.coeff m k = c.A0.toNat + k * c.MP.toNat := by
  refine Nat.mod_eq_of_lt ?_
  calc c.A0.toNat + k * c.MP.toNat < c.MP.toNat + k * c.MP.toNat := Nat.add_lt_add_right hA0 _
    _ = (k + 1) * c.MP.toNat := by ring
    _ ≤ c.G.toNat * c.MP.toNat := Nat.mul_le_mul_right _ hk
    _ = m := hmul

theorem coeff_injective {l : Nat} (hk : k < c.G.toNat) (hl : l < c.G.toNat) (h : c.coeff m k = c.coeff m l) :
    k = l := by
  rw [coeff_eq_of_lt hmul hA0 hk, coeff_eq_of_lt hmul hA0 hl] at h
  exact Nat.eq_of_mul_eq_mul_right (Nat.zero_lt_of_lt hA0) (Nat.add_left_cancel h)

/-- The a_k below the count are the ring elements congruent to A0 mod MP. -/
theorem exists_coeff_iff {a : Nat} (ha : a < m) :
    (∃ k < c.G.toNat, c.coeff m k = a) ↔ a ≡ c.A0.toNat [MOD c.MP.toNat] := by
  constructor
  · rintro ⟨k, hk, rfl⟩
    rw [coeff_eq_of_lt hmul hA0 hk, Nat.ModEq, Nat.add_mul_mod_self_right]
  · intro h
    have hlt : a / c.MP.toNat < c.G.toNat := Nat.div_lt_of_lt_mul (by rwa [Nat.mul_comm, hmul])
    have hmod : a % c.MP.toNat = c.A0.toNat := Eq.trans h (Nat.mod_eq_of_lt hA0)
    exact ⟨_, hlt, by rw [coeff_eq_of_lt hmul hA0 hlt, ← hmod, Nat.mod_add_div']⟩

end

/-! ## SOLVE2's context -/

/-- A difference of two stored values mod m, as SOLVE2 takes it (R104). -/
abbrev elemDiff (p q : Elem) (m : Nat) : Nat := residue ((q.toNat : Int) - (p.toNat : Int)) m

section
variable {x1 y1 x2 y2 : Elem} {m : Nat} {c : SolverCtx} (hc : c = solve x1 y1 x2 y2 m)
include hc

theorem solve_X1_Y1 : c.X1 = x1 ∧ c.Y1 = y1 := by
  obtain ⟨-, e⟩ | ⟨-, e⟩ := solve_cases x1 y1 x2 y2 m <;> rw [hc, e] <;> exact ⟨rfl, rfl⟩

theorem solve_of_not_dvd (h : ¬ Nat.gcd (elemDiff x1 x2 m) m ∣ elemDiff y1 y2 m) : c = ⟨0, 0, 0, x1, y1⟩ := by
  obtain ⟨-, e⟩ | ⟨h', -⟩ := solve_cases x1 y1 x2 y2 m
  · exact hc.trans e
  · exact absurd h' h

end

section
variable {x1 y1 x2 y2 M : Elem} {c : SolverCtx} (hM : 0 < M.toNat) (hc : c = solve x1 y1 x2 y2 M.toNat)
include hM hc

theorem solve_of_dvd (h : Nat.gcd (elemDiff x1 x2 M.toNat) M.toNat ∣ elemDiff y1 y2 M.toNat) :
    let dx := elemDiff x1 x2 M.toNat
    let g := Nat.gcd dx M.toNat
    c.G.toNat = g ∧ c.A0.toNat = (elemDiff y1 y2 M.toNat / g * modinv (dx / g) (M.toNat / g)) % (M.toNat / g) ∧
      c.MP.toNat = M.toNat / g := by
  intro dx g
  have hpos : 0 < M.toNat / g := Nat.div_pos (Nat.gcd_le_right dx hM) (Nat.gcd_pos_of_pos_right dx hM)
  have hlt : M.toNat / g < 65536 := (Nat.div_le_self _ _).trans_lt M.isLt
  obtain ⟨h', -⟩ | ⟨-, e⟩ := solve_cases x1 y1 x2 y2 M.toNat
  · exact absurd h h'
  · rw [hc, e]
    exact ⟨toElem_gcd_toNat dx hM, toElem_toNat ((Nat.mod_lt _ hpos).trans hlt), toElem_toNat hlt⟩

/-- A context with a solution belongs to the modulus (R188 e). -/
theorem solve_belongs (hG : 0 < c.G.toNat) : c.G.toNat * c.MP.toNat = M.toNat ∧ c.A0.toNat < c.MP.toNat := by
  by_cases h : Nat.gcd (elemDiff x1 x2 M.toNat) M.toNat ∣ elemDiff y1 y2 M.toNat
  · obtain ⟨hg, ha, hp⟩ := solve_of_dvd hM hc h
    have hdvd := Nat.gcd_dvd_right (elemDiff x1 x2 M.toNat) M.toNat
    rw [hg, ha, hp]
    exact ⟨Nat.mul_div_cancel' hdvd, Nat.mod_lt _ (Nat.div_pos (Nat.le_of_dvd hM hdvd) (hg ▸ hG))⟩
  · rw [solve_of_not_dvd hc h] at hG
    exact absurd hG (lt_irrefl _)

/-- The context lists the solutions of the congruence: none when gcd(dx, m) does not divide dy. -/
theorem solve_lists_coeff {a : Nat} (ha : a < M.toNat) :
    (∃ k < c.G.toNat, c.coeff M.toNat k = a) ↔
      a * elemDiff x1 x2 M.toNat ≡ elemDiff y1 y2 M.toNat [MOD M.toNat] := by
  by_cases h : Nat.gcd (elemDiff x1 x2 M.toNat) M.toNat ∣ elemDiff y1 y2 M.toNat
  · obtain ⟨hg, hA0, hp⟩ := solve_of_dvd hM hc h
    obtain ⟨hmul, hlt⟩ := solve_belongs hM hc (hg ▸ Nat.gcd_pos_of_pos_right _ hM)
    rw [exists_coeff_iff hmul hlt ha, mul_modEq_iff_of_gcd_dvd hM h, hA0, hp]
    exact ⟨fun e => e.trans (Nat.mod_modEq _ _), fun e => e.trans (Nat.mod_modEq _ _).symm⟩
  · refine iff_of_false ?_ (mt gcd_dvd_of_mul_modEq h)
    rintro ⟨k, hk, -⟩
    rw [solve_of_not_dvd hc h] at hk
    exact Nat.not_lt_zero k hk

/-- The pairs on both points are those of the context (R107). -/
theorem solve_lists_pairs {a b : Nat} (ha : a < M.toNat) (hb : b < M.toNat) (hy1 : y1.toNat < M.toNat)
    (hy2 : y2.toNat < M.toNat) :
    ((a * x1.toNat + b) % M.toNat = y1.toNat ∧ (a * x2.toNat + b) % M.toNat = y2.toNat) ↔
      ∃ k < c.G.toNat, c.coeff M.toNat k = a ∧ c.offset M.toNat k = b := by
  obtain ⟨hX1, hY1⟩ := solve_X1_Y1 hc
  have hoff {k : Nat} (hk : c.coeff M.toNat k = a) :
      c.offset M.toNat k = residue ((y1.toNat : Int) - (a : Int) * x1.toNat) M.toNat := by
    rw [SolverCtx.offset, hk, hX1, hY1]
  rw [on_both_points_iff hM hb hy1 hy2, ← solve_lists_coeff hM hc ha]
  constructor
  · rintro ⟨⟨k, hk, hka⟩, hkb⟩
    exact ⟨k, hk, hka, (hoff hka).trans hkb⟩
  · rintro ⟨k, hk, hka, hkb⟩
    exact ⟨⟨k, hk, hka⟩, (hoff hka).symm.trans hkb⟩

end

/-! ## SOLVE2 -/

/-- Settles O36: RANGE, and then the context in its two cases. -/
theorem solve2FindsTheSolutionSet : Obligations.Solve2FindsTheSolutionSet := by
  intro sd sx1 sy1 sx2 sy2 s m x1 y1 x2 y2 dx dy g ring
  have completes (hF : s.FAULT = false) (hr : ring) := by
    obtain ⟨hx1, hy1, hx2, hy2⟩ := hr
    exact exec_solve2_completes hF sd hx1 hy1 hx2 hy2
  refine ⟨decodeOfEncode (.solve2 sd sx1 sy1 sx2 sy2) rfl, exec_squashed rfl, fun hF h => ?_,
    fun hF hr h => ?_, fun hF hr h => ?_⟩
  · exact exec_faults_range rfl hF (bind_pure _).symm (mt (scalarsRing_solve2 ..).mp h)
  · rw [completes hF hr, solve_of_not_dvd rfl h]
    rfl
  · have hm : 0 < m := Nat.zero_lt_of_lt hr.1
    have hg : 0 < g := Nat.gcd_pos_of_pos_right dx hm
    obtain ⟨hlt, hinv⟩ := modinv_spec (Nat.div_pos (Nat.gcd_le_right dx hm) hg) (Nat.coprime_div_gcd_div_gcd hg)
    obtain ⟨hG, hA0, hMP⟩ := solve_of_dvd hm rfl h
    obtain ⟨hX1, hY1⟩ := solve_X1_Y1 rfl
    exact ⟨_, _, hlt, hinv, hG, hA0, hMP, hX1, hY1, completes hF hr⟩

/-- Settles O48: the count is the gcd, which is not 0, or 0. -/
theorem solverCountsTheSolutions : Obligations.SolverCountsTheSolutions := by
  intro s sd sx1 sy1 sx2 sy2 m dx dy hF hx1 hy1 hx2 hy2
  have hm : 0 < m := Nat.zero_lt_of_lt hx1
  refine ⟨_, exec_solve2_completes hF sd hx1 hy1 hx2 hy2, hF, ?_⟩
  rw [State.lock_getS, getS_setS_same]
  by_cases h : Nat.gcd dx m ∣ dy
  · obtain ⟨hG, -, -⟩ := solve_of_dvd hm rfl h
    rw [hG]
    exact ⟨iff_of_false (Nat.gcd_pos_of_pos_right dx hm).ne' (not_not.mpr h), fun _ => rfl⟩
  · rw [solve_of_not_dvd rfl h]
    exact ⟨iff_of_true rfl h, fun h' => absurd h' h⟩

/-! ## SOLK -/

/-- One register cannot hold both results: SOLK's word with equal destinations is no command (R70). -/
theorem decode_solk_same (sd sk : SReg) : decode (encode (.solk sd sd sk)) = none := by
  cases h : decode (encode (.solk sd sd sk)) with
  | none => rfl
  | some i =>
    have hne := (solkDestinationsDiffer_iff _).mp (solkDestinationsDiffer_of_decode h (opcodeOf_encode _))
    rw [encode, sregAt_formatS_8, sregAt_formatS_12] at hne
    exact absurd rfl hne

/-- Settles O37: k is checked against the count, and then the two results are stored residues. -/
theorem solkComputesTheKthSolution : Obligations.SolkComputesTheKthSolution := by
  intro sda sdb sk s hM m k
  refine ⟨?_, exec_squashed rfl, fun hF hk => exec_faults (c := .range) rfl hF (if_pos hk), fun hF hk => ?_⟩
  · split
    · next h => exact h ▸ decode_solk_same sda sk
    · next h => exact decodeOfEncode (.solk sda sdb sk) (bne_iff_ne.mpr h)
  · have ha : (toElem (s.SOL.coeff m k)).toNat = s.SOL.coeff m k := toElem_mod_toNat s.M (Nat.mod_lt _ hM)
    have hb : (toElem (s.SOL.offset m k)).toNat = s.SOL.offset m k := toElem_mod_toNat s.M (residue_lt _ hM)
    refine ⟨_, _, ha, fun hc => ?_, ?_, exec_solk_completes hF sda sdb hk⟩
    · obtain ⟨hmul, hA0, -⟩ := hc (Nat.zero_lt_of_lt hk)
      exact ha.trans (coeff_eq_of_lt hmul hA0 hk)
    · rw [ha, hb]
      exact residue_cast _ hM

/-- Any index that a register can hold is asked for in some state with a given context and modulus. -/
theorem exists_state_asking (t : State) {k : Nat} (hk : k < 65536) :
    ∃ u : State, u.FAULT = false ∧ u.M = t.M ∧ u.SOL = t.SOL ∧ (u.getS 2).toNat = k := by
  refine ⟨({ t with FAULT := false } : State).setS 2 (toElem k), rfl, rfl, rfl, ?_⟩
  rw [getS_setS_same, toElem_toNat hk]

section
variable {t : State} {k a b : Nat} (hM : 0 < t.M.toNat) (hk : k < t.SOL.G.toNat)
include hM hk

theorem solkGives_coeff_offset : t.solkGives k (t.SOL.coeff t.M.toNat k) (t.SOL.offset t.M.toNat k) := by
  rintro u sda sdb sk hne hF hMu hSol rfl
  rw [← hSol] at hk
  rw [← hMu] at hM
  refine ⟨_, exec_solk_completes hF sda sdb hk, hF, ?_, ?_⟩
  · rw [State.lock_getS, getS_setS, if_neg hne, getS_setS_same, hMu, hSol]
    exact toElem_mod_toNat t.M (Nat.mod_lt _ (hMu ▸ hM))
  · rw [State.lock_getS, getS_setS_same, hMu, hSol]
    exact toElem_mod_toNat t.M (residue_lt _ (hMu ▸ hM))

/-- SOLK's answer below the count is one pair: some state asks for it, and SOLK answers that state once. -/
theorem solkGives_iff :
    t.solkGives k a b ↔ t.SOL.coeff t.M.toNat k = a ∧ t.SOL.offset t.M.toNat k = b := by
  have hgives := solkGives_coeff_offset hM hk
  constructor
  · intro h
    obtain ⟨u, hF, hMu, hSol, hu⟩ := exists_state_asking t (hk.trans t.SOL.G.isLt)
    obtain ⟨w, e, -, ha, hb⟩ := h u 0 1 2 (by decide) hF hMu hSol hu
    obtain ⟨w', e', -, ha', hb'⟩ := hgives u 0 1 2 (by decide) hF hMu hSol hu
    obtain rfl := Host.Outcome.next.inj (e.symm.trans e')
    exact ⟨ha'.symm.trans ha, hb'.symm.trans hb⟩
  · rintro ⟨rfl, rfl⟩
    exact hgives

end

/-! ## The laws of the solver -/

/-- What SOLVE2 on ring elements leaves for SOLK and the host: the context, its count and the modulus. -/
theorem exec_solve2_context {s : State} (hF : s.FAULT = false) (sd : SReg) {sx1 sy1 sx2 sy2 : SReg}
    (hx1 : (s.getS sx1).toNat < s.M.toNat) (hy1 : (s.getS sy1).toNat < s.M.toNat)
    (hx2 : (s.getS sx2).toNat < s.M.toNat) (hy2 : (s.getS sy2).toNat < s.M.toNat) :
    ∃ t, exec (.solve2 sd sx1 sy1 sx2 sy2) s = .next t ∧ t.M = s.M ∧ t.getS sd = t.SOL.G ∧
      t.SOL = solve (s.getS sx1) (s.getS sy1) (s.getS sx2) (s.getS sy2) s.M.toNat :=
  ⟨_, exec_solve2_completes hF sd hx1 hy1 hx2 hy2, rfl, getS_setS_same .., rfl⟩

/-- Settles O46: SOLK's k-th pair is the context's, and the context lists pairs on both points. -/
theorem solverIsSound : Obligations.SolverIsSound := by
  intro s sd sx1 sy1 sx2 sy2 m x1 y1 x2 y2 hF hx1 hy1 hx2 hy2
  obtain ⟨t, e, hMt, hcount, hSol⟩ := exec_solve2_context hF sd hx1 hy1 hx2 hy2
  have hm : 0 < m := Nat.zero_lt_of_lt hx1
  refine ⟨t, e, fun k hk => ?_⟩
  rw [hcount] at hk
  have hgives := solkGives_coeff_offset (hMt ▸ hm) hk
  rw [hMt] at hgives
  have ha : t.SOL.coeff m k < m := Nat.mod_lt _ hm
  have hb : t.SOL.offset m k < m := residue_lt _ hm
  exact ⟨_, _, hgives, ha, hb, (solve_lists_pairs hm hSol ha hb hy1 hy2).mpr ⟨k, hk, rfl, rfl⟩⟩

/-- Settles O47: the context lists every pair on both points, no coefficient twice. -/
theorem solverIsComplete : Obligations.SolverIsComplete := by
  intro s sd sx1 sy1 sx2 sy2 m x1 y1 x2 y2 hF hx1 hy1 hx2 hy2
  obtain ⟨t, e, hMt, hcount, hSol⟩ := exec_solve2_context hF sd hx1 hy1 hx2 hy2
  have hm : 0 < m := Nat.zero_lt_of_lt hx1
  refine ⟨t, e, fun a ha b hb h1 h2 => ?_⟩
  have hgives {k : Nat} (hk : k < t.SOL.G.toNat) := solkGives_iff (a := a) (b := b) (hMt ▸ hm) hk
  rw [hMt] at hgives
  rw [hcount]
  obtain ⟨k, hk, hka, hkb⟩ := (solve_lists_pairs hm hSol ha hb hy1 hy2).mp ⟨h1, h2⟩
  refine ⟨k, ⟨hk, (hgives hk).mpr ⟨hka, hkb⟩⟩, fun l ⟨hl, hlg⟩ => ?_⟩
  obtain ⟨hla, -⟩ := (hgives hl).mp hlg
  obtain ⟨hmul, hA0⟩ := solve_belongs hm hSol (Nat.zero_lt_of_lt hk)
  exact coeff_injective hmul hA0 hl hk (hla.trans hka.symm)

end Sys2Proof.Machine
end

section
/-! PROOF. VMUL and MVMUL (spec/43_hill_multiply.md R120 to R122): CFG, then RANGE over the block and the vector,
then the product, whose elements beyond the dimension are those the destination held. -/

namespace Sys2Proof.Machine

/-! ## Checks -/

section
variable {s : State} {k : KReg} {v : VReg} {i : Instr}

/-- CFG comes first: the source matrix has no dimension (spec/60_exceptions.md R156, R157). -/
theorem exec_faults_matVec_cfg (ha : i.alwaysExecutes = false) (hF : s.FAULT = false)
    (hc : commandCheck i s = readMatVec s k v >>= fun _ => pure ()) (h : (s.getDim k).toNat = 0) :
    exec i s = .next ((s.raise i.opcode .cfg).lockedBy i) := by
  obtain ⟨-, e⟩ | ⟨hd, -⟩ | ⟨hd, -⟩ := readMatVec_cases s k v
  · exact exec_faults ha hF (by rw [hc, e, error_bind])
  · exact absurd (BitVec.eq_of_toNat_eq h) hd
  · exact absurd (BitVec.eq_of_toNat_eq h) hd

/-- RANGE comes next: some element of the leading block or of the vector's first n is no ring element
(spec/60_exceptions.md R153, R157). -/
theorem exec_faults_matVec_range (ha : i.alwaysExecutes = false) (hF : s.FAULT = false)
    (hc : commandCheck i s = readMatVec s k v >>= fun _ => pure ()) (h : (s.getDim k).toNat ≠ 0)
    (hr : ¬ (s.blockRing k ∧ s.vecRing v (s.getDim k).toNat)) :
    exec i s = .next ((s.raise i.opcode .range).lockedBy i) := by
  obtain ⟨h0, -⟩ | ⟨-, -, e⟩ | ⟨-, hb, hv, -⟩ := readMatVec_cases s k v
  · exact absurd (congrArg BitVec.toNat h0) h
  · exact exec_faults ha hF (by rw [hc, e, error_bind])
  · exact absurd ⟨hb, hv⟩ hr

end

/-! ## The product -/

theorem getDim_ne_zero {s : State} {k : KReg} (h : (s.getDim k).toNat ≠ 0) : s.getDim k ≠ 0 :=
  mt (congrArg BitVec.toNat) h

theorem rowTimes_lt (n : Nat) (v : Nat → Int) (A : Nat → Nat → Int) {m : Nat} (hm : 0 < m) (j : Nat) :
    rowTimes n v A m j < m := residue_lt _ hm

theorem timesCol_lt (n : Nat) (A : Nat → Nat → Int) (v : Nat → Int) {m : Nat} (hm : 0 < m) (i : Nat) :
    timesCol n A v m i < m := residue_lt _ hm

/-- The vector register that a product of residues leaves: the residues, and beyond n what it held. -/
theorem exists_setVec_toElem (s : State) (vd : VReg) (n : Nat) {r : Nat → Nat} (hr : ∀ j, r j < s.M.toNat) :
    ∃ x : Vector Elem 8, (∀ j : Idx, j.val < n → (x[j]).toNat = r j) ∧
      (∀ j : Idx, n ≤ j.val → x[j] = s.getV vd j) ∧
      (s.setVec vd n fun j => toElem (r j)).lock = { s with V := s.V.set vd x, MLOCK := true } := by
  refine ⟨_, fun j hj => ?_, fun j hj => ?_, rfl⟩
  · rw [Fin.getElem_fin, Vector.getElem_ofFn, if_pos hj, toElem_mod_toNat s.M (hr j)]
  · rw [Fin.getElem_fin, Vector.getElem_ofFn, if_neg (Nat.not_lt.mpr hj), State.getV]

/-- Settles O38: the checks in their order, then one write of the sums' residues. -/
theorem vmulIsRowVectorTimesMatrix : Obligations.VmulIsRowVectorTimesMatrix := by
  intro vd vs ks s m n
  refine ⟨decodeOfEncode (.vmul vd vs ks) rfl, exec_squashed rfl,
    fun hF hn => exec_faults_matVec_cfg rfl hF rfl hn,
    fun hF hn hr => exec_faults_matVec_range rfl hF rfl hn hr, fun hF hn hb hv => ?_⟩
  have hd : s.getDim ks ≠ 0 := getDim_ne_zero hn
  obtain ⟨r, hsum, hrest, e⟩ := exists_setVec_toElem s vd n
    (rowTimes_lt n (s.vecEntries vs) (s.entries ks) (blockRing_pos s hb hd))
  refine ⟨r, fun j hj => ?_, hrest, ?_⟩
  · rw [hsum j hj, rowTimes_eq_sum]
  · rw [exec_vmul_completes hF hd hb vd hv, e]

/-- Settles O39: the checks in their order, then one write of the sums' residues. -/
theorem mvmulIsMatrixTimesColumnVector : Obligations.MvmulIsMatrixTimesColumnVector := by
  intro vd vs ks s m n
  refine ⟨decodeOfEncode (.mvmul vd vs ks) rfl, exec_squashed rfl,
    fun hF hn => exec_faults_matVec_cfg rfl hF rfl hn,
    fun hF hn hr => exec_faults_matVec_range rfl hF rfl hn hr, fun hF hn hb hv => ?_⟩
  have hd : s.getDim ks ≠ 0 := getDim_ne_zero hn
  obtain ⟨r, hsum, hrest, e⟩ := exists_setVec_toElem s vd n
    (timesCol_lt n (s.entries ks) (s.vecEntries vs) (blockRing_pos s hb hd))
  refine ⟨r, fun i hi => ?_, hrest, ?_⟩
  · rw [hsum i hi, timesCol_eq_sum]
  · rw [exec_mvmul_completes hF hd hb vd hv, e]

/-! ## The transpose -/

/-- A matrix times a column vector is the row vector times the transpose (R122). -/
theorem timesCol_eq_rowTimes (n : Nat) (A : Nat → Nat → Int) (v : Nat → Int) (m i : Nat) :
    timesCol n A v m i = rowTimes n v (fun a b => A b a) m i := by
  simp only [timesCol, rowTimes, mul_comm]

/-- One element of a row vector times a matrix reads one column of the matrix. -/
theorem rowTimes_congr_column {n : Nat} {A B : Nat → Nat → Int} {j : Nat} (v : Nat → Int) (m : Nat)
    (h : ∀ i < n, A i j = B i j) : rowTimes n v A m j = rowTimes n v B m j := by
  rw [rowTimes, rowTimes, sumTo_congr fun i hi => by rw [h i hi]]

/-- The transpose of a block of ring elements is one. -/
theorem blockRing_transpose {s : State} {k kT : KReg} (hdT : s.getDim kT = s.getDim k)
    (hT : ∀ i < (s.getDim k).toNat, ∀ j < (s.getDim k).toNat, s.K[kT].entry i j = s.K[k].entry j i)
    (hb : s.blockRing k) : s.blockRing kT := by
  unfold State.blockRing
  rw [hdT]
  intro i hi j hj
  rw [hT i hi j hj]
  exact hb j hj i hi

/-- Settles O49: both commands complete, and element by element they write one sum. -/
theorem mvmulIsVmulOfTheTranspose : Obligations.MvmulIsVmulOfTheTranspose := by
  intro s vd vs k kT hF hd hdT hT hb hv
  refine ⟨_, exec_mvmul_completes hF hd hb vd hv, ?_, hF⟩
  rw [exec_vmul_completes hF (hdT ▸ hd) (blockRing_transpose hdT hT hb) vd (hdT ▸ hv), hdT]
  refine congrArg (fun t : State => Host.Outcome.next t.lock) (setVec_congr s vd fun j hj => congrArg toElem ?_)
  rw [timesCol_eq_rowTimes]
  exact rowTimes_congr_column _ _ fun i hi => congrArg (fun x : Elem => (x.toNat : Int)) (hT i hi j hj)

end Sys2Proof.Machine
end

section
/-! PROOF. The Hill round trip (spec/43_hill_multiply.md R123, R124): over Z/mZ, MATINV's block is the inverse of its
source's block, from either side, and VMUL and MVMUL multiply by the block and by its transpose. -/

namespace Sys2Proof.Machine

/-! ## Matrices and vectors over Z/mZ -/

/-- The n×n matrix whose entries `A` gives, over Z/mZ. -/
def zmodMatrix (m n : Nat) (A : Nat → Nat → Int) : Matrix (Fin n) (Fin n) (ZMod m) :=
  (Int.castRingHom (ZMod m)).mapMatrix (toMatrix n A)

/-- The vector of the first n elements that `v` gives, over Z/mZ. -/
def zmodVector (m n : Nat) (v : Nat → Int) : Fin n → ZMod m := fun i => (v i : ZMod m)

@[simp] theorem zmodMatrix_apply (m n : Nat) (A : Nat → Nat → Int) (i j : Fin n) :
    zmodMatrix m n A i j = (A i j : ZMod m) := rfl

section
variable {m n : Nat} (hm : 0 < m)
include hm

/-- VMUL's element is that of the product over Z/mZ. -/
theorem rowTimes_zmod (v : Nat → Int) (A : Nat → Nat → Int) (j : Fin n) :
    ((rowTimes n v A m j : Nat) : ZMod m) = Matrix.vecMul (zmodVector m n v) (zmodMatrix m n A) j := by
  rw [rowTimes, residue_zmod _ hm, sumTo_eq_sum, Int.cast_sum]
  exact Finset.sum_congr rfl fun i _ => Int.cast_mul _ _

/-- The determinant residue is the determinant over Z/mZ. -/
theorem residue_idet_zmod (A : Nat → Nat → Int) :
    ((residue (idet n A) m : Nat) : ZMod m) = (zmodMatrix m n A).det := by
  rw [residue_zmod _ hm, idet_eq_det]
  exact RingHom.map_det (Int.castRingHom (ZMod m)) (toMatrix n A)

/-- The adjugate residue is the adjugate over Z/mZ. -/
theorem adjugate_zmod (A : Nat → Nat → Int) (i j : Fin n) :
    ((adjugate n A m i j : Nat) : ZMod m) = (zmodMatrix m n A).adjugate i j := by
  rw [adjugate_eq, residue_zmod _ hm, zmodMatrix, ← RingHom.map_adjugate]
  rfl

/-- The adjugate times the inverse of the determinant is a right inverse: A · adj(A) = det(A) · I (R124). -/
theorem zmodMatrix_mul_inverse {A B : Nat → Nat → Int} (hg : Nat.gcd (residue (idet n A) m) m = 1)
    (hB : ∀ i < n, ∀ j < n,
      B i j = ((modinv (residue (idet n A) m) m * adjugate n A m i j % m : Nat) : Int)) :
    zmodMatrix m n A * zmodMatrix m n B = 1 := by
  have hinv : zmodMatrix m n B = (modinv (residue (idet n A) m) m : ZMod m) • (zmodMatrix m n A).adjugate := by
    ext i j
    rw [zmodMatrix_apply, hB i i.isLt j j.isLt, Int.cast_natCast, ZMod.natCast_mod, Nat.cast_mul,
      adjugate_zmod hm, Matrix.smul_apply, smul_eq_mul]
  rw [hinv, Matrix.mul_smul, Matrix.mul_adjugate, smul_smul, ← residue_idet_zmod hm, mul_comm,
    modinv_zmod hm hg, one_smul]

/-- A block times a matrix and then times its right inverse is the block again. -/
theorem rowTimes_inverse {A B : Nat → Nat → Int} (hAB : zmodMatrix m n A * zmodMatrix m n B = 1)
    {v w : Nat → Int} (hw : ∀ j < n, w j = rowTimes n v A m j) {i x : Nat} (hi : i < n) (hx : x < m)
    (hv : v i = x) : rowTimes n w B m i = x := by
  have hvec : zmodVector m n w = Matrix.vecMul (zmodVector m n v) (zmodMatrix m n A) := by
    ext j
    rw [zmodVector, hw j j.isLt, Int.cast_natCast, rowTimes_zmod hm]
  refine nat_eq_of_zmod_eq (rowTimes_lt n w B hm i) hx ?_
  rw [rowTimes_zmod hm w B ⟨i, hi⟩, hvec, Matrix.vecMul_vecMul, hAB, Matrix.vecMul_one, zmodVector, hv,
    Int.cast_natCast]

end

/-! ## MATINV's register -/

/-- The elements of a matrix register as integers. -/
def MatReg.ints (k : MatReg) : Nat → Nat → Int := fun i j => ((k.entry i j).toNat : Int)

/-- A source matrix is what its register holds (R130). -/
theorem entries_eq_ints (s : State) (k : KReg) : s.entries k = s.K[k].ints := rfl

/-- Every element of the register's leading block is a ring element mod m. -/
def MatReg.ringBlock (k : MatReg) (m : Nat) : Prop :=
  ∀ i < k.dim.toNat, ∀ j < k.dim.toNat, (k.entry i j).toNat < m

theorem blockRing_iff_ringBlock (s : State) (k : KReg) : s.blockRing k ↔ s.K[k].ringBlock s.M.toNat := Iff.rfl

/-- What MATINV asks of its source: a dimension, ring elements, and a unit as determinant (R134). -/
structure MatReg.Invertible (k : MatReg) (m : Nat) : Prop where
  configured : k.dim ≠ 0
  ring : k.ringBlock m
  unit : Nat.gcd (residue (idet k.dim.toNat k.ints) m) m = 1

/-- What MATINV leaves in its destination: an inverse mod m of its source, as ring elements. -/
structure MatReg.IsInverse (k q : MatReg) (m : Nat) : Prop where
  dim : q.dim = k.dim
  ring : q.ringBlock m
  mul : zmodMatrix m k.dim.toNat k.ints * zmodMatrix m k.dim.toNat q.ints = 1

/-- MATINV's elements make an inverse (R134). -/
theorem MatReg.Invertible.isInverse {k q : MatReg} {m : Nat} (h : k.Invertible m) (hm : 0 < m) (hdim : q.dim = k.dim)
    (hq : ∀ i < k.dim.toNat, ∀ j < k.dim.toNat, (q.entry i j).toNat =
      modinv (residue (idet k.dim.toNat k.ints) m) m * adjugate k.dim.toNat k.ints m i j % m) :
    k.IsInverse q m := by
  refine ⟨hdim, fun i hi j hj => ?_, zmodMatrix_mul_inverse hm h.unit fun i hi j hj => ?_⟩
  · rw [hdim] at hi hj
    rw [hq i hi j hj]
    exact Nat.mod_lt _ hm
  · rw [MatReg.ints, hq i hi j hj]

/-- What a completed MATINV leaves for a next command: the inverse, and all but its destination as it was. -/
structure State.Inverted (s t : State) (kd ks : KReg) : Prop where
  fault : t.FAULT = false
  modulus : t.M = s.M
  vectors : t.V = s.V
  others : ∀ k ≠ kd, t.K[k] = s.K[k]
  inverse : s.K[ks].IsInverse t.K[kd] s.M.toNat

/-- Only a register that MATINV can invert lets it complete. -/
theorem invertible_of_exec_matinv {s t : State} {kd ks : KReg} (h : exec (.matinv kd ks) s = .next t)
    (hF : t.FAULT = false) : s.FAULT = false ∧ s.K[ks].Invertible s.M.toNat := by
  have hs : s.FAULT = false := by
    by_contra hs
    obtain rfl := Host.Outcome.next.inj ((exec_squashed rfl (Bool.of_not_eq_false hs)).symm.trans h)
    exact hs hF
  have faulted {c : Cause} (e : matinvBody kd ks s = .error c) : False := by
    obtain rfl := Host.Outcome.next.inj (h.symm.trans (congrArg Host.Outcome.next (runRing_error s _ _ hs e)))
    nomatch hF
  obtain ⟨-, e⟩ | ⟨-, -, e⟩ | ⟨-, -, -, e⟩ | ⟨hd, hb, hg, -⟩ := matinvBody_cases s kd ks
  · exact (faulted e).elim
  · exact (faulted e).elim
  · exact (faulted e).elim
  · exact ⟨hs, hd, hb, hg⟩

/-- MATINV of a register it can invert completes with an inverse. -/
theorem exec_matinv_inverted {s : State} {ks : KReg} (hF : s.FAULT = false) (h8 : (s.getDim ks).toNat ≤ 8)
    (h : s.K[ks].Invertible s.M.toNat) (kd : KReg) :
    ∃ t, exec (.matinv kd ks) s = .next t ∧ s.Inverted t kd ks := by
  have hm : 0 < s.M.toNat := blockRing_pos s h.ring h.configured
  obtain ⟨hn, -⟩ | ⟨-, e⟩ := exec_matinv_on_ring hF h.configured h.ring kd
  · exact absurd h.unit hn
  · refine ⟨_, e, hF, rfl, rfl, fun k hk => ?_, h.isInverse hm ?_ fun i hi j hj => ?_⟩
    · exact Vector.getElem_set_ne kd.isLt k.isLt fun hkd => hk (Fin.ext hkd.symm)
    · exact (getDim_setBlock ..).trans (if_pos rfl)
    · have hi' : i < (s.getDim ks).toNat := hi
      have hj' : j < (s.getDim ks).toNat := hj
      rw [← entries_eq_ints, State.lock_K, entry_setBlock _ _ _ _ _ (by omega) (by omega), if_pos ⟨rfl, hi, hj⟩]
      exact toElem_mod_toNat s.M (Nat.mod_lt _ hm)

/-! ## VMUL and MVMUL as one command -/

/-- The side from which a block multiplies the key: a row vector from the left, a column vector from the right. -/
inductive Orientation where
  | row
  | column

/-- The multiply command of an orientation (R120, R121). -/
def Orientation.command (o : Orientation) (vd vs : VReg) (ks : KReg) : Instr :=
  match o with
  | .row => .vmul vd vs ks
  | .column => .mvmul vd vs ks

/-- The matrix that the block, as a row vector, is multiplied by: for MVMUL the transpose (R122). -/
def Orientation.key (o : Orientation) (A : Nat → Nat → Int) : Nat → Nat → Int :=
  match o with
  | .row => A
  | .column => fun i j => A j i

/-- Inverses stay inverses when both are transposed. -/
theorem Orientation.key_mul_inverse (o : Orientation) {m n : Nat} {A B : Nat → Nat → Int}
    (h : zmodMatrix m n A * zmodMatrix m n B = 1) : zmodMatrix m n (o.key A) * zmodMatrix m n (o.key B) = 1 := by
  cases o with
  | row => exact h
  | column =>
    calc (zmodMatrix m n A).transpose * (zmodMatrix m n B).transpose
        = (zmodMatrix m n B * zmodMatrix m n A).transpose := (Matrix.transpose_mul _ _).symm
      _ = 1 := by rw [mul_eq_one_comm.mp h, Matrix.transpose_one]

/-- What a completed multiply command leaves for a next command: the product, and all but the vectors as it was. -/
structure State.Multiplied (s t : State) (vd : VReg) (n : Nat) (r : Nat → Nat) : Prop where
  fault : t.FAULT = false
  modulus : t.M = s.M
  matrices : t.K = s.K
  value : ∀ j < n, (t.vecAt vd j).toNat = r j

theorem multiplied_setVec {s : State} (hF : s.FAULT = false) (vd : VReg) {n : Nat} (h8 : n ≤ 8) {r : Nat → Nat}
    (hr : ∀ j, r j < s.M.toNat) : s.Multiplied (s.setVec vd n fun j => toElem (r j)).lock vd n r := by
  refine ⟨hF, rfl, rfl, fun j hj => ?_⟩
  rw [State.lock_vecAt, vecAt_setVec _ _ _ _ _ (by omega), if_pos ⟨rfl, hj⟩, toElem_mod_toNat s.M (hr j)]

/-- A multiply command on ring elements completes with the product. -/
theorem exec_multiplied (o : Orientation) {s : State} {ks : KReg} {vs : VReg} (hF : s.FAULT = false)
    (hd : s.getDim ks ≠ 0) (h8 : (s.getDim ks).toNat ≤ 8) (hb : s.blockRing ks)
    (hv : s.vecRing vs (s.getDim ks).toNat) (vd : VReg) :
    ∃ t, exec (o.command vd vs ks) s = .next t ∧ s.Multiplied t vd (s.getDim ks).toNat
      (rowTimes (s.getDim ks).toNat (s.vecEntries vs) (o.key (s.entries ks)) s.M.toNat) := by
  have ht := multiplied_setVec hF vd h8
    (rowTimes_lt (s.getDim ks).toNat (s.vecEntries vs) (o.key (s.entries ks)) (blockRing_pos s hb hd))
  cases o with
  | row => exact ⟨_, exec_vmul_completes hF hd hb vd hv, ht⟩
  | column =>
    refine ⟨_, ?_, ht⟩
    rw [Orientation.command, exec_mvmul_completes hF hd hb vd hv]
    simp only [timesCol_eq_rowTimes, Orientation.key]

/-! ## The round trip -/

section
variable (o : Orientation) {s : State} {ks : KReg} {vs : VReg}
  (h8 : (s.getDim ks).toNat ≤ 8) (hv : s.vecRing vs (s.getDim ks).toNat)
include h8 hv

/-- The second multiplication, by the inverse of the first one's key, in any state that still has the product. -/
theorem exec_multiply_by_inverse {u x : State} {kd : KReg} {v1 : VReg} (hm : 0 < s.M.toNat)
    (hd : s.getDim ks ≠ 0)
    (hu : s.Multiplied u v1 (s.getDim ks).toNat
      (rowTimes (s.getDim ks).toNat (s.vecEntries vs) (o.key (s.entries ks)) s.M.toNat))
    (hx : x.FAULT = false) (hM : x.M = s.M) (hV : x.V = u.V) (hK : s.K[ks].IsInverse x.K[kd] s.M.toNat)
    (v2 : VReg) :
    ∃ w, exec (o.command v2 v1 kd) x = .next w ∧ w.FAULT = false ∧
      ∀ i < (s.getDim ks).toNat, w.vecAt v2 i = s.vecAt vs i := by
  obtain ⟨hdim, hring, hmul⟩ := hK
  have hdx : x.getDim kd = s.getDim ks := hdim
  have hprod (j : Nat) (hj : j < (s.getDim ks).toNat) : (x.vecAt v1 j).toNat =
      rowTimes (s.getDim ks).toNat (s.vecEntries vs) (o.key (s.entries ks)) s.M.toNat j := by
    rw [State.vecAt, hV]
    exact hu.value j hj
  have hvx : x.vecRing v1 (x.getDim kd).toNat := by
    intro j hj
    rw [hdx] at hj
    rw [hprod j hj, hM]
    exact rowTimes_lt _ _ _ hm j
  obtain ⟨w, e, hw⟩ := exec_multiplied o hx (hdx ▸ hd) (hdx ▸ h8)
    ((blockRing_iff_ringBlock x kd).mpr (hM ▸ hring)) hvx v2
  refine ⟨w, e, hw.fault, fun i hi => BitVec.eq_of_toNat_eq ?_⟩
  rw [hw.value i (hdx ▸ hi), hdx, hM]
  exact rowTimes_inverse hm (o.key_mul_inverse hmul)
    (fun j hj => congrArg (Nat.cast : Nat → Int) (hprod j hj)) hi (hv i hi) rfl

variable (h : s.K[ks].Invertible s.M.toNat) (kd : KReg) (v1 v2 : VReg)
include h

/-- The inverse taken first, into another register than the key's. -/
theorem exec_roundTrip_inverse_first {t : State} (ht : s.Inverted t kd ks) (hne : kd ≠ ks) :
    ∃ u w, exec (o.command v1 vs ks) t = .next u ∧ exec (o.command v2 v1 kd) u = .next w ∧ w.FAULT = false ∧
      ∀ i < (s.getDim ks).toNat, w.vecAt v2 i = s.vecAt vs i := by
  have hKt : t.K[ks] = s.K[ks] := ht.others ks hne.symm
  have hdt : t.getDim ks = s.getDim ks := congrArg MatReg.dim hKt
  have hvt (i : Nat) : t.vecAt vs i = s.vecAt vs i := by rw [State.vecAt, State.vecAt, ht.vectors]
  have hbt : t.blockRing ks := by
    rw [blockRing_iff_ringBlock, hKt, ht.modulus]
    exact h.ring
  have h8t : (t.getDim ks).toNat ≤ 8 := by rwa [hdt]
  have hvrt : t.vecRing vs (t.getDim ks).toNat := fun i hi => by
    rw [hvt, ht.modulus]
    exact hv i (hdt ▸ hi)
  have hd : t.getDim ks ≠ 0 := hdt ▸ h.configured
  obtain ⟨u, eu, hu⟩ := exec_multiplied o ht.fault hd h8t hbt hvrt v1
  have hinv : t.K[ks].IsInverse u.K[kd] t.M.toNat := by
    rw [hKt, hu.matrices, ht.modulus]
    exact ht.inverse
  obtain ⟨w, ew, hFw, hw⟩ := exec_multiply_by_inverse o h8t hvrt (blockRing_pos t hbt hd) hd hu hu.fault
    hu.modulus rfl hinv v2
  exact ⟨u, w, eu, ew, hFw, fun i hi => (hw i (hdt ▸ hi)).trans (hvt i)⟩

/-- The inverse taken after the first multiplication, into any register. -/
theorem exec_roundTrip_inverse_between (hF : s.FAULT = false) :
    ∃ u x w, exec (o.command v1 vs ks) s = .next u ∧ exec (.matinv kd ks) u = .next x ∧
      exec (o.command v2 v1 kd) x = .next w ∧ w.FAULT = false ∧
      ∀ i < (s.getDim ks).toNat, w.vecAt v2 i = s.vecAt vs i := by
  have hd : s.getDim ks ≠ 0 := h.configured
  have hb : s.blockRing ks := h.ring
  obtain ⟨u, eu, hu⟩ := exec_multiplied o hF hd h8 hb hv v1
  have hKu : u.K[ks] = s.K[ks] := by rw [hu.matrices]
  have h8u : (u.getDim ks).toNat ≤ 8 := by rwa [State.getDim, hKu]
  have hIu : u.K[ks].Invertible u.M.toNat := by rwa [hKu, hu.modulus]
  obtain ⟨x, ex, hx⟩ := exec_matinv_inverted hu.fault h8u hIu kd
  have hinv := hx.inverse
  rw [hKu, hu.modulus] at hinv
  obtain ⟨w, ew, hw⟩ := exec_multiply_by_inverse o h8 hv (blockRing_pos s hb hd) hd hu hx.fault
    (hx.modulus.trans hu.modulus) hx.vectors hinv v2
  exact ⟨u, x, w, eu, ex, ew, hw⟩

end

/-- Settles O50: in each orientation, whenever the inverse is taken. -/
theorem hillRoundTrip : Obligations.HillRoundTrip := by
  intro s t kd ks vs v1 v2 h8 e hFt hv
  obtain ⟨hF, h⟩ := invertible_of_exec_matinv e hFt
  obtain ⟨t', e', ht⟩ := exec_matinv_inverted hF h8 h kd
  obtain rfl := Host.Outcome.next.inj (e'.symm.trans e)
  have first (o : Orientation) := exec_roundTrip_inverse_first o h8 hv h kd v1 v2 ht
  have between (o : Orientation) := exec_roundTrip_inverse_between o h8 hv h kd v1 v2 hF
  exact ⟨fun hne => ⟨first .row hne, first .column hne⟩, between .row, between .column⟩

end Sys2Proof.Machine
end

section
/-! PROOF. DET, ADJ and MATINV (spec/44_matrix_inversion.md R130 to R134): CFG, then RANGE over the leading block, and
SINGULAR from MATINV alone; then the values that Mathlib's determinant and adjugate have mod m. -/

namespace Sys2Proof.Machine

/-! ## Checks -/

section
variable {s : State} {k : KReg} {i : Instr} {f : Nat → Except Cause Unit}

/-- CFG comes first: the source matrix has no dimension (spec/60_exceptions.md R156, R157). -/
theorem exec_faults_matrix_cfg (ha : i.alwaysExecutes = false) (hF : s.FAULT = false)
    (hc : commandCheck i s = readMatrix s k >>= f) (h : s.getDim k = 0) :
    exec i s = .next ((s.raise i.opcode .cfg).lockedBy i) := by
  obtain ⟨-, e⟩ | ⟨hd, -⟩ | ⟨hd, -⟩ := readMatrix_cases s k
  · exact exec_faults ha hF (by rw [hc, e, error_bind])
  · exact absurd h hd
  · exact absurd h hd

/-- RANGE comes before any other check of the command, which may have none (spec/60_exceptions.md R153, R157). -/
theorem exec_faults_matrix_range (ha : i.alwaysExecutes = false) (hF : s.FAULT = false)
    (hc : commandCheck i s = readMatrix s k >>= f) (hd : s.getDim k ≠ 0) (hr : ¬ s.blockRing k) :
    exec i s = .next ((s.raise i.opcode .range).lockedBy i) := by
  obtain ⟨h0, -⟩ | ⟨-, -, e⟩ | ⟨-, hb, -⟩ := readMatrix_cases s k
  · exact absurd h0 hd
  · exact exec_faults ha hF (by rw [hc, e, error_bind])
  · exact absurd hb hr

end

/-! ## Values -/

/-- The element that stores a residue holds the integer remainder. -/
theorem toElem_residue_toNat {M : Elem} (hM : 0 < M.toNat) (a : Int) :
    ((toElem (residue a M.toNat)).toNat : Int) = a % (M.toNat : Int) := by
  rw [toElem_mod_toNat M (residue_lt a hM), residue_cast a hM]

/-- DET's number is the remainder of Mathlib's determinant (R132). -/
theorem detResidue_eq_det (s : State) (k : KReg) :
    s.detResidue k (s.getDim k).toNat = ((s.matrix k).det % (s.M.toNat : Int)).toNat := by
  rw [State.detResidue, idet_eq_det, residue]

/-- The matrix register that a written block leaves: the dimension, the block, and outside it what it held (R133). -/
theorem exists_setBlock (s : State) (kd : KReg) (d : BitVec 4) (R : Nat → Nat → Elem) :
    ∃ B : MatReg, B.dim = d ∧ (∀ i j : Idx, i.val < d.toNat → j.val < d.toNat → (B.e[i])[j] = R i j) ∧
      (∀ i j : Idx, ¬ (i.val < d.toNat ∧ j.val < d.toNat) → (B.e[i])[j] = s.getK kd i j) ∧
      (s.setBlock kd d R).lock = { s with K := s.K.set kd B, MLOCK := true } := by
  have get (i j : Idx) : ((s.K[kd].withBlock d R).e[i])[j] =
      if i.val < d.toNat ∧ j.val < d.toNat then R i j else s.getK kd i j := by
    simp [MatReg.withBlock, State.getK]
  exact ⟨s.K[kd].withBlock d R, rfl, fun i j hi hj => (get i j).trans (if_pos ⟨hi, hj⟩),
    fun i j h => (get i j).trans (if_neg h), rfl⟩

/-! ## DET, ADJ, MATINV -/

/-- DET's word: its two unused register fields side by side are one zero field (R66). -/
theorem decode_det (sd : SReg) (ks : KReg) :
    decode (0#12 ++ BitVec.ofFin (w := 4) sd ++ 0#2 ++ BitVec.ofFin (w := 2) ks ++ 0#4 ++ 0x30#8) =
      some (.det sd ks) := by
  have hword (x : BitVec 20) : x ++ 0#4 = x ++ 0#2 ++ 0#2 :=
    (BitVec.append_assoc (x₁ := x) (x₂ := 0#2) (x₃ := 0#2)).symm
  rw [hword]
  exact decodeOfEncode (.det sd ks) rfl

/-- Settles O40: the checks in their order, then one write of the determinant's residue. -/
theorem detComputesTheDeterminant : Obligations.DetComputesTheDeterminant := by
  intro sd ks s m
  refine ⟨decode_det sd ks, exec_squashed rfl, fun hF h0 => exec_faults_matrix_cfg rfl hF rfl h0,
    fun hF hd hr => exec_faults_matrix_range rfl hF rfl hd hr, fun hF hd hb => ?_⟩
  refine ⟨_, ?_, exec_det_completes hF hd hb sd⟩
  rw [detResidue_eq_det]
  exact toElem_residue_toNat (blockRing_pos s hb hd) _

/-- Settles O41: the checks in their order, then one write of the adjugate's residues. -/
theorem adjComputesTheAdjugate : Obligations.AdjComputesTheAdjugate := by
  intro kd ks s m n
  refine ⟨decodeOfEncode (.adj kd ks) rfl, exec_squashed rfl, fun hF h0 => exec_faults_matrix_cfg rfl hF rfl h0,
    fun hF hd hr => exec_faults_matrix_range rfl hF rfl hd hr, fun hF hd hb => ?_⟩
  obtain ⟨B, hdim, hin, hout, hB⟩ := exists_setBlock s kd (s.getDim ks) fun i j =>
    toElem (adjugate n (s.entries ks) m i j)
  refine ⟨B, hdim, fun i j hi hj => ?_, hout, ?_⟩
  · rw [hin i j hi hj, adjugate_eq n (s.entries ks) m ⟨i, hi⟩ ⟨j, hj⟩]
    exact toElem_residue_toNat (blockRing_pos s hb hd) _
  · rw [exec_adj_completes hF hd hb kd, hB]

/-- Settles O42: the checks in their order, SINGULAR the last, then one write of the inverse's residues. -/
theorem matinvComputesTheInverse : Obligations.MatinvComputesTheInverse := by
  intro kd ks s m n det
  have hdet : s.detResidue ks n = det := detResidue_eq_det s ks
  refine ⟨decodeOfEncode (.matinv kd ks) rfl, exec_squashed rfl,
    fun hF h0 => exec_faults_matrix_cfg rfl hF rfl h0,
    fun hF hd hr => exec_faults_matrix_range rfl hF rfl hd hr, fun hF hd hb hg => ?_, fun hF hd hb hg => ?_⟩
  · obtain ⟨-, e⟩ | ⟨h1, -⟩ := exec_matinv_on_ring hF hd hb kd
    · exact e
    · exact absurd (hdet ▸ h1) hg
  · have hm : 0 < m := blockRing_pos s hb hd
    obtain ⟨hn, -⟩ | ⟨-, e⟩ := exec_matinv_on_ring hF hd hb kd
    · exact absurd hg (hdet ▸ hn)
    obtain ⟨hlt, hinv⟩ := modinv_spec hm hg
    obtain ⟨B, hdim, hin, hout, hB⟩ := exists_setBlock s kd (s.getDim ks) fun i j =>
      toElem ((modinv det m * adjugate n (s.entries ks) m i j) % m)
    refine ⟨B, modinv det m, hlt, hinv, hdim, fun i j hi hj => ?_, hout, ?_⟩
    · rw [hin i j hi hj, adjugate_eq n (s.entries ks) m ⟨i, hi⟩ ⟨j, hj⟩]
      exact toElem_mul_residue hm _ _
    · rw [e, hdet, hB]

end Sys2Proof.Machine
end

section
/-! PROOF. What inversion mod m obeys (spec/44_matrix_inversion.md R135, R136): over Z/mZ an inverse is two-sided and
is itself inverted by the matrix alone, and a matrix has one exactly when its determinant is a unit. -/

namespace Sys2Proof.Machine

/-! ## Inverses over Z/mZ -/

section
variable {m : Nat} {k q r : MatReg}

/-- A matrix with a right inverse mod m has a unit as determinant residue. -/
theorem gcd_idet_of_mul_eq_one (hm : 0 < m) {n : Nat} {A B : Nat → Nat → Int}
    (h : zmodMatrix m n A * zmodMatrix m n B = 1) : Nat.gcd (residue (idet n A) m) m = 1 := by
  refine (ZMod.isUnit_iff_coprime _ m).mp ?_
  rw [residue_idet_zmod hm]
  exact Matrix.isUnit_det_of_right_inverse h

/-- An inverse is two-sided. -/
theorem MatReg.IsInverse.symm (h : k.IsInverse q m) (hk : k.ringBlock m) : q.IsInverse k m := by
  refine ⟨h.dim.symm, hk, ?_⟩
  rw [h.dim]
  exact mul_eq_one_comm.mp h.mul

/-- What MATINV leaves, MATINV can invert. -/
theorem MatReg.IsInverse.invertible (h : k.IsInverse q m) (hm : 0 < m) (hk : k.Invertible m) : q.Invertible m :=
  ⟨h.dim ▸ hk.configured, h.ring, gcd_idet_of_mul_eq_one hm (h.symm hk.ring).mul⟩

/-- The inverse of the inverse is the matrix: a left and a right inverse of `q` are equal, and ring elements equal
mod m are equal (R135). -/
theorem MatReg.IsInverse.entry_eq (h : k.IsInverse q m) (hr : q.IsInverse r m) (hk : k.ringBlock m) :
    ∀ i < k.dim.toNat, ∀ j < k.dim.toNat, r.entry i j = k.entry i j := by
  intro i hi j hj
  have hdim : r.dim = k.dim := hr.dim.trans h.dim
  have hmul : zmodMatrix m k.dim.toNat q.ints * zmodMatrix m k.dim.toNat r.ints = 1 := h.dim ▸ hr.mul
  have heq : zmodMatrix m k.dim.toNat r.ints = zmodMatrix m k.dim.toNat k.ints :=
    (left_inv_eq_right_inv h.mul hmul).symm
  refine BitVec.eq_of_toNat_eq (nat_eq_of_zmod_eq (hr.ring i (hdim ▸ hi) j (hdim ▸ hj)) (hk i hi j hj) ?_)
  simpa [MatReg.ints] using congrFun₂ heq ⟨i, hi⟩ ⟨j, hj⟩

/-- An inverse by the exact sums of the registers' elements: each is that of the identity mod m (R136). -/
theorem MatReg.sum_mod_of_mul_eq_one {n : Nat} (h : zmodMatrix m n k.ints * zmodMatrix m n q.ints = 1) (i j : Fin n) :
    (∑ l : Fin n, (k.entry i l).toNat * (q.entry l j).toNat) % m = (if i = j then 1 else 0) % m := by
  refine (ZMod.natCast_eq_natCast_iff' _ _ m).mp ?_
  push_cast
  simpa [Matrix.mul_apply, Matrix.one_apply, MatReg.ints] using congrFun₂ h i j

end

/-! ## The inverse of the inverse -/

/-- A MATINV that completed has inverted its source. -/
theorem inverted_of_exec_matinv {s t : State} {kd ks : KReg} (h8 : (s.getDim ks).toNat ≤ 8)
    (e : exec (.matinv kd ks) s = .next t) (hF : t.FAULT = false) :
    s.K[ks].Invertible s.M.toNat ∧ s.Inverted t kd ks := by
  obtain ⟨hs, h⟩ := invertible_of_exec_matinv e hF
  obtain ⟨t', e', ht⟩ := exec_matinv_inverted hs h8 h kd
  obtain rfl := Host.Outcome.next.inj (e'.symm.trans e)
  exact ⟨h, ht⟩

/-- Settles O51: the first result is a matrix that MATINV can invert, and its inverse is the first source. -/
theorem inverseOfTheInverse : Obligations.InverseOfTheInverse := by
  intro s t ka kb kc h8 e hF
  obtain ⟨h, ht⟩ := inverted_of_exec_matinv h8 e hF
  have hm : 0 < s.M.toNat := blockRing_pos s h.ring h.configured
  have hB : s.K[ka].IsInverse t.K[kb] s.M.toNat := ht.inverse
  have hdim : t.getDim kb = s.getDim ka := hB.dim
  obtain ⟨u, eu, hu⟩ := exec_matinv_inverted hF (hdim ▸ h8) (ht.modulus ▸ hB.invertible hm h) kc
  have hC : t.K[kb].IsInverse u.K[kc] s.M.toNat := ht.modulus ▸ hu.inverse
  exact ⟨u, eu, hu.fault, hC.dim.trans hdim, hB.entry_eq hC h.ring⟩

/-! ## The criterion -/

section
variable {s : State} {ks : KReg} (hF : s.FAULT = false) (hd : s.getDim ks ≠ 0) (hb : s.blockRing ks) (sd : SReg)
include hF hd hb

theorem exec_det_wrote : ∃ t, exec (.det sd ks) s = .next t ∧
    s.Wrote t sd (s.detResidue ks (s.getDim ks).toNat) :=
  ⟨_, exec_det_completes hF hd hb sd, wrote_setS hF sd (residue_lt _ (blockRing_pos s hb hd))⟩

/-- DET, then GCD: the greatest common divisor of the determinant residue and m, without a fault (R132, R103). -/
theorem exec_det_then_gcd :
    ∃ t u, exec (.det sd ks) s = .next t ∧ exec (.gcd sd sd) t = .next u ∧ t.FAULT = false ∧ u.FAULT = false ∧
      (u.getS sd).toNat = Nat.gcd (s.detResidue ks (s.getDim ks).toNat) s.M.toNat := by
  have hm : 0 < s.M.toNat := blockRing_pos s hb hd
  obtain ⟨t, e, ht⟩ := exec_det_wrote hF hd hb sd
  have hring : (t.getS sd).toNat < t.M.toNat := by
    rw [ht.value, ht.modulus]
    exact residue_lt _ hm
  refine ⟨t, _, e, exec_gcd_completes ht.fault sd hring, ht.fault, ht.fault, ?_⟩
  rw [State.lock_getS, getS_setS_same, ht.value, ht.modulus]
  exact toElem_gcd_toNat _ hm

end

/-- Settles O52: the determinant residue is a unit or not; MATINV and GCD both tell. -/
theorem invertibilityCriterion : Obligations.InvertibilityCriterion := by
  intro s kd ks sd m n hF hd h8 hb
  obtain ⟨u, w, eu, ew, hu, hw, hgcd⟩ := exec_det_then_gcd hF hd hb sd
  obtain ⟨hg, e⟩ | ⟨hg, -⟩ := exec_matinv_on_ring hF hd hb kd
  · exact ⟨_, u, w, e, eu, ew, hu, hw, iff_of_false nofun (hgcd ▸ hg), fun _ => ⟨rfl, rfl⟩, nofun⟩
  · obtain ⟨t, e, ht⟩ := exec_matinv_inverted hF h8 ⟨hd, hb, hg⟩ kd
    have hBA : zmodMatrix m n t.K[kd].ints * zmodMatrix m n s.K[ks].ints = 1 := mul_eq_one_comm.mp ht.inverse.mul
    refine ⟨t, u, w, e, eu, ew, hu, hw, iff_of_true ht.fault (hgcd.trans hg), fun h => ?_, fun _ i j => ?_⟩
    · exact absurd h (Bool.eq_false_iff.mp ht.fault)
    · exact ⟨MatReg.sum_mod_of_mul_eq_one ht.inverse.mul i j, MatReg.sum_mod_of_mul_eq_one hBA i j⟩

end Sys2Proof.Machine
end

section
/-! PROOF. Faults and the fault state (spec/60_exceptions.md R151 to R155, R164, R165). The one idea: outside the fault
state a command that ends in it has done nothing but enter it, with a cause that the table of R164 marks for the
command; and in the fault state a command is squashed or always executed. -/

namespace Sys2Proof.Machine

/-! ## Every outcome is a next state -/

/-- Settles O7, by `exec` command by command and by the cases of an edge. -/
theorem nothingStopsTheMachine : Obligations.NothingStopsTheMachine :=
  ⟨exec_answers, fun s => ⟨s.tick, step_tick s⟩⟩

/-! ## Fault entry -/

/-- Settles O14: an illegal word is squashed or raises ILLEGAL with its low byte. -/
theorem illegalWordFaultsOrIsSquashed : Obligations.IllegalWordFaultsOrIsSquashed := by
  intro w s hd
  rw [execWord_illegal s hd]
  obtain ⟨hF, e⟩ | ⟨hF, e⟩ := illegalWord_cases s (opcodeOf w) <;> rw [e, hF] <;> rfl

/-- The codes of R151. -/
theorem Cause.code_bounds (c : Cause) : 1 ≤ c.code.toNat ∧ c.code.toNat ≤ 5 := by
  cases c <;> decide

/-- No command raises ILLEGAL: that is the cause of words that are no command (R152, R164). -/
theorem code_ne_illegal_of_mem_mayRaise {i : Instr} {c : BitVec 4} (hc : c ∈ i.mayRaise) : c ≠ 1 := by
  rintro rfl
  revert hc
  cases i <;> simp [Instr.mayRaise]

/-- Fault entry of a command as the fields it writes (R154). -/
theorem raise_lockedBy (s : State) (op : BitVec 8) (c : Cause) (i : Instr) :
    (s.raise op c).lockedBy i =
      { s with FAULT := true, CODE := c.code, FOP := op, MLOCK := s.MLOCK || i.isRing } := by
  unfold State.lockedBy
  cases i.isRing <;> simp [State.raise, State.lock]

/-- `t` is `s` after fault entry by the command: one of its causes, its opcode, and the lock of a ring command
(R154, R164). -/
def EntersFault (i : Instr) (s t : State) : Prop :=
  ∃ c : Cause, c.code ∈ i.mayRaise ∧ t = (s.raise i.opcode c).lockedBy i

section
variable {s t : State}

/-- A command that ends in the fault state, and did not start there, has entered it and done nothing else: no other
update of a command sets `FAULT`. -/
theorem exec_enters_fault {i : Instr} (hF : s.FAULT = false) (h : exec i s = .next t) (ht : t.FAULT = true) :
    EntersFault i s t := by
  have absent {u : State} (hu : u.FAULT = s.FAULT) (hu' : u.FAULT = true) : EntersFault i s u :=
    nomatch hF.symm.trans (hu.symm.trans hu')
  refine exec_induct i s (fun u => u.FAULT = true → EntersFault i s u)
    (hClear := fun _ hu => nomatch hu)
    (hRaise := fun _ c hc _ => ⟨c, hc, rfl⟩)
    (hS := fun _ r x => absent (lockedBy_fault i (s.setS r x)).1)
    (absent rfl) ?_ ?_ ?_ ?_ ?_ ?_ ?_ ?_ ?_ t h ht
  all_goals
    intros
    exact absent rfl ‹_›

/-- Settles O17: the cause of its fault entry is one of the command's. -/
theorem onlyTheStatedCodesAreRaised : Obligations.OnlyTheStatedCodesAreRaised := by
  intro i s t hF h ht
  obtain ⟨c, hc, rfl⟩ := exec_enters_fault hF h ht
  rwa [raise_lockedBy]

/-- A word that ends in the fault state, and did not start there, has entered it and done nothing else; an illegal one
with ILLEGAL and without the lock (R152, R154). -/
theorem execWord_enters_fault {w : Word} (hF : s.FAULT = false) (h : execWord w s = .next t) (ht : t.FAULT = true) :
    ∃ c : Cause, t = { s with
      FAULT := true
      CODE := c.code
      FOP := opcodeOf w
      MLOCK := s.MLOCK || (c.code != 1 && (decode w).any Instr.isRing) } := by
  obtain ⟨i, hd, e⟩ | ⟨hd, -⟩ := execWord_cases w s
  · obtain ⟨c, hc, rfl⟩ := exec_enters_fault hF (e.symm.trans h) ht
    obtain ⟨henc, -⟩ := encodeOfDecode w i hd
    have hop : opcodeOf w = i.opcode := henc ▸ opcodeOf_encode i
    have hne : (c.code != 1) = true := bne_iff_ne.mpr (code_ne_illegal_of_mem_mayRaise hc)
    refine ⟨c, ?_⟩
    rw [raise_lockedBy, hd, hop, hne, Option.any_some, Bool.true_and]
  · have e := illegalWordFaultsOrIsSquashed w s hd
    rw [hF, if_neg Bool.false_ne_true] at e
    obtain rfl := Host.Outcome.next.inj (e.symm.trans h)
    refine ⟨.illegal, ?_⟩
    rw [hd, Option.any_none, Bool.and_false, Bool.or_false]
    rfl

end

/-- Settles O15: the whole of a word's fault entry. -/
theorem faultEntryIsTheWholeTransition : Obligations.FaultEntryIsTheWholeTransition := by
  intro w s t hF h ht
  obtain ⟨c, rfl⟩ := execWord_enters_fault hF h ht
  obtain ⟨h1, h5⟩ := c.code_bounds
  exact ⟨h1, h5, rfl⟩

/-! ## The fault state -/

/-- A word that is no always-execute command, legal or not, is squashed in the fault state (R155). -/
theorem execWord_squashed {w : Word} {s : State} (hF : s.FAULT = true)
    (ha : (decode w).any Instr.alwaysExecutes = false) : execWord w s = .next s := by
  obtain ⟨i, hd, e⟩ | ⟨hd, -⟩ := execWord_cases w s
  · rw [hd, Option.any_some] at ha
    rw [e, exec_squashed ha hF]
  · rw [illegalWordFaultsOrIsSquashed w s hd, if_pos hF]

/-- A read command responds one word in every state and does nothing else (R155; spec/10_state.md R31). -/
theorem exec_read {i : Instr} (hr : i.isRead = true) (s : State) : ∃ v, exec i s = .next (s.respond v) := by
  cases i
  case rdstat | rds | rdm | rdv | rddim => exact ⟨_, rfl⟩
  all_goals nomatch hr

/-- The always-execute commands are the reads, NOP and CLRERR (R155). -/
theorem eq_nop_or_clrerr {i : Instr} (ha : i.alwaysExecutes = true) (hr : i.isRead = false) :
    i = .nop ∨ i = .clrerr := by
  cases i
  case nop => exact .inl rfl
  case clrerr => exact .inr rfl
  case rdstat | rds | rdm | rdv | rddim => nomatch hr
  all_goals nomatch ha

/-- Settles O16: squashed, or a response, nothing and CLRERR's three fields for the always-execute commands. -/
theorem faultStateSquashes : Obligations.FaultStateSquashes := by
  intro w s hF
  refine ⟨execWord_squashed hF, fun i hd ha => ?_⟩
  rw [execWord_legal s hd]
  cases hr : i.isRead
  · obtain rfl | rfl := eq_nop_or_clrerr ha hr
    · exact ⟨s, rfl, rfl, nofun, fun _ => ⟨rfl, rfl⟩⟩
    · exact ⟨s.clearFault, rfl, rfl, nofun, fun _ => ⟨rfl, rfl⟩⟩
  · obtain ⟨v, e⟩ := exec_read hr s
    exact ⟨s.respond v, e, rfl, fun _ => ⟨hF, rfl, rfl, v, rfl, rfl⟩, nofun⟩

end Sys2Proof.Machine
end

section
/-! PROOF. Words and the architectural state (spec/70_reset_and_hazards.md R188 f, R189, R190). The one idea: a command
reads no port, so its effect on the architectural state is the same with the ports forgotten before it; and an edge
without reset changes the architectural state only by the word that completes at it. -/

namespace Sys2Proof.Machine

/-! ## A word in the architectural state -/

section
variable (i : Instr) (s : State) (w : Word)

theorem commandCheck_arch : commandCheck i s.arch = commandCheck i s := by
  cases i <;> rfl

theorem commandWrite_arch : (commandWrite i s.arch s.arch).arch = (commandWrite i s s).arch := by
  cases i <;> rfl

theorem lockedBy_arch : (s.lockedBy i).arch = s.arch.lockedBy i := by
  unfold State.lockedBy
  split <;> rfl

/-- A command's effect on the architectural state is a function of the architectural state (R189). -/
theorem exec_arch : ∃ t u, exec i s = .next t ∧ exec i s.arch = .next u ∧ u.arch = t.arch := by
  cases ha : i.alwaysExecutes
  · have hc' := commandCheck_arch i s
    cases hF : s.FAULT
    · cases hc : commandCheck i s with
      | ok =>
        refine ⟨_, _, exec_completes ha hF hc, exec_completes ha hF (hc'.trans hc), ?_⟩
        rw [lockedBy_arch, lockedBy_arch, commandWrite_arch]
      | error c =>
        refine ⟨_, _, exec_faults ha hF hc, exec_faults ha hF (hc'.trans hc), ?_⟩
        rw [lockedBy_arch, lockedBy_arch]
        rfl
    · exact ⟨_, _, exec_squashed ha hF, exec_squashed ha hF, rfl⟩
  · cases i
    case nop | clrerr | rdstat | rds | rdm | rdv | rddim => exact ⟨_, _, rfl, rfl, rfl⟩
    all_goals nomatch ha

theorem illegalWord_arch (op : BitVec 8) : (illegalWord op s.arch).arch = (illegalWord op s).arch := by
  unfold illegalWord
  rw [apply_ite State.arch, apply_ite State.arch]
  rfl

theorem afterWord_legal {i : Instr} {t : State} (hd : decode w = some i) (h : exec i s = .next t) :
    s.afterWord w = t := by
  rw [State.afterWord, execWord_legal s hd, h, stateOr_next]

theorem afterWord_illegal (hd : decode w = none) : s.afterWord w = illegalWord (opcodeOf w) s := by
  rw [State.afterWord, execWord_illegal s hd, stateOr_next]

theorem afterWord_arch : (s.arch.afterWord w).arch = (s.afterWord w).arch := by
  cases hd : decode w with
  | some i =>
    obtain ⟨t, u, ht, hu, e⟩ := exec_arch i s
    rw [afterWord_legal _ w hd ht, afterWord_legal _ w hd hu, e]
  | none =>
    rw [afterWord_illegal _ w hd, afterWord_illegal _ w hd, illegalWord_arch]

end

/-- A run's effect on the architectural state is a function of the architectural state, too (R189). -/
theorem afterWords_arch (ws : List Word) (s : State) : (s.arch.afterWords ws).arch = (s.afterWords ws).arch := by
  induction ws generalizing s with
  | nil => rfl
  | cons w ws ih =>
    calc ((s.arch.afterWord w).afterWords ws).arch
      _ = ((s.arch.afterWord w).arch.afterWords ws).arch := (ih _).symm
      _ = ((s.afterWord w).arch.afterWords ws).arch := by rw [afterWord_arch]
      _ = ((s.afterWord w).afterWords ws).arch := ih _

/-! ## Runs of clock edges -/

/-- An edge without reset changes the architectural state by the word completing at it, and by nothing else. -/
theorem tick_arch {s : State} (hr : s.nextEdge.rst = false) :
    s.tick.arch = (s.arch.afterWords s.completesNow).arch := by
  obtain ⟨w, hp, hf, e⟩ | ⟨w, hp, hf, e⟩ | ⟨hp, -, -, e⟩ | ⟨hp, -, e⟩ := tick_cases hr
  · have hw : s.completesNow = [w] := by simp [State.completesNow, hr, hp, hf]
    rw [e, hw, ← afterWord_arch]
    rfl
  · have hw : s.completesNow = [] := by simp [State.completesNow, hf]
    rw [e, hw]
    rfl
  all_goals
    have hw : s.completesNow = [] := by simp [State.completesNow, hp]
    rw [e, hw]
    rfl

/-- Settles O57, by induction on the number of edges. -/
theorem stateIsAFunctionOfTheCompletedWords : Obligations.StateIsAFunctionOfTheCompletedWords := by
  intro k
  induction k with
  | zero => exact fun _ _ => rfl
  | succ k ih =>
    intro s h
    obtain ⟨hr, hk⟩ := noReset_succ h
    let ws := State.trace State.completesNow k s.tick
    calc (State.ticks k s.tick).arch
      _ = (s.tick.arch.afterWords ws).arch := ih s.tick hk
      _ = ((s.arch.afterWords s.completesNow).afterWords ws).arch := by rw [tick_arch hr, afterWords_arch]
      _ = (s.arch.afterWords (s.completesNow ++ ws)).arch := by
        rw [State.afterWords, State.afterWords, State.afterWords, List.foldl_append]

/-! ## Responses -/

theorem rsp_notMem_writes_of_not_isRead {i : Instr} (hr : i.isRead = false) : Column.RSP ∉ i.writes := by
  revert hr
  cases i <;> simp [Instr.isRead, Instr.writes]

/-- A word responds once if it is a legal read command, in the fault state too, and not at all otherwise
(R155, R188 f). -/
theorem afterWord_RSP_length (s : State) (w : Word) :
    (s.afterWord w).RSP.length = s.RSP.length + if isReadWord w then 1 else 0 := by
  cases hd : decode w with
  | some i =>
    have hw : isReadWord w = i.isRead := by rw [isReadWord, hd]
    rw [hw]
    cases hr : i.isRead
    · obtain ⟨t, ht⟩ := exec_answers i s
      obtain ⟨hR, -⟩ : sameColumn .RSP s t := exec_column ht (rsp_notMem_writes_of_not_isRead hr)
      rw [afterWord_legal s w hd ht, hR]
      rfl
    · obtain ⟨v, hv⟩ := exec_read hr s
      rw [afterWord_legal s w hd hv, State.respond_RSP, List.length_append]
      rfl
  | none =>
    have hw : isReadWord w = false := by rw [isReadWord, hd]
    rw [hw, afterWord_illegal s w hd]
    obtain ⟨-, e⟩ | ⟨-, e⟩ := illegalWord_cases s (opcodeOf w) <;> rw [e] <;> rfl

/-- Settles O55, by induction on the words. -/
theorem oneResponsePerReadCommand : Obligations.OneResponsePerReadCommand := by
  intro ws
  induction ws with
  | nil => exact fun _ => rfl
  | cons w ws ih =>
    intro s
    calc ((s.afterWord w).afterWords ws).RSP.length
      _ = (s.afterWord w).RSP.length + ws.countP isReadWord := ih _
      _ = s.RSP.length + (w :: ws).countP isReadWord := by
        rw [afterWord_RSP_length, List.countP_cons, Nat.add_assoc, Nat.add_comm (ite ..)]

end Sys2Proof.Machine
end

section
/-! PROOF. Reset and the invariants of every reachable state (spec/70_reset_and_hazards.md R180, R181, R188). The one
idea: R188 (a) to (e) speak of the architectural state alone, which an edge without reset changes only by the word
completing at it, so they need an argument per update of a command and none per edge. -/

namespace Sys2Proof.Machine

/-! ## Reset -/

/-- The first edge without reset after a reset edge ends the cycle after reset and finds nothing else to do
(R180). -/
theorem resetEdge_sampled (s : State) (e : ClockEdge) :
    s.resetEdge.sampled e = { State.reset with afterReset := false, edges := s.edges.tail.tail } := by
  simp only [State.sampled, State.resetEdge, State.reset, ite_self]

/-- Settles O2: the reset case of `step`, then an edge at which a block that is not ready has nothing in
progress. -/
theorem resetEdgeResetsEverything : Obligations.ResetEdgeResetsEverything := by
  intro s hr
  refine ⟨s.resetEdge, step_reset s hr, rfl, rfl, rfl, rfl, rfl, fun hn => ?_⟩
  have hidle : ¬ (s.resetEdge.nextEdge.cmdValid = true ∧ s.resetEdge.cmdReady = true) := fun h => nomatch h.2
  exact ⟨_, step_idle s.resetEdge hn rfl hidle, resetEdge_sampled s _, by rw [resetEdge_sampled]; rfl, rfl⟩

/-! ## The invariants of the architectural state -/

/-- R188 (a) to (e): what `State.Inv` asks of the architectural state. -/
structure State.ArchInv (s : State) : Prop where
  modulus : 1 ≤ s.M.toNat
  fault   : s.faultCoherent
  dims    : ∀ k : KReg, (s.getDim k).toNat ≤ 8
  lock    : s.lockCoherent
  solver  : s.solverCoherent

theorem inv_iff (s : State) : s.Inv ↔ s.ArchInv ∧ s.portCoherent :=
  ⟨fun h => ⟨{ h with }, h.ports⟩, fun ⟨h, hp⟩ => { h with ports := hp }⟩

theorem archInv_arch (s : State) : s.arch.ArchInv ↔ s.ArchInv :=
  ⟨fun h => { h with }, fun h => { h with }⟩

theorem archInv_reset : State.reset.ArchInv := by
  obtain ⟨hM, -, hF, hC, hO, -, hdim, -, -, hSOL, -⟩ := resetLeavesStatedValues
  refine ⟨by rw [hM]; decide, ⟨fun _ => ⟨hC, hO⟩, nofun⟩, fun k => ?_, fun _ => ⟨hM, hSOL⟩, fun h => ?_⟩
  · rw [hdim]
    decide
  · rw [hSOL] at h
    nomatch h

/-! ## Each update of a command -/

section
variable {s : State} (h : s.ArchInv)
include h

theorem archInv_lock : s.lock.ArchInv :=
  { h with
    lock := nofun
    solver := fun hG =>
      let ⟨hmul, hA0, hX1, hY1, _⟩ := h.solver hG
      ⟨hmul, hA0, hX1, hY1, rfl⟩ }

theorem archInv_lockedBy (i : Instr) : (s.lockedBy i).ArchInv := by
  unfold State.lockedBy
  split
  · exact archInv_lock h
  · exact h

theorem archInv_raise (op : BitVec 8) (c : Cause) : (s.raise op c).ArchInv :=
  { h with fault := ⟨nofun, fun _ => c.code_bounds⟩ }

theorem archInv_clearFault : s.clearFault.ArchInv :=
  { h with fault := ⟨fun _ => ⟨rfl, rfl⟩, nofun⟩ }

/-- SETM succeeds only while the modulus is not fixed, when no solver context belongs to the old one (R81, R188 d). -/
theorem archInv_setModulus (hl : s.MLOCK = false) {m : Elem} (hm : m ≠ 0) : (s.setModulus m).ArchInv :=
  { h with
    modulus := Nat.pos_of_ne_zero fun h0 => hm (BitVec.eq_of_toNat_eq h0)
    lock := nofun
    solver := fun hG => by
      obtain ⟨-, hSOL⟩ := h.lock hl
      rw [State.setModulus_SOL, hSOL] at hG
      nomatch hG }

/-- SOLVE2's context belongs to the modulus, which SOLVE2 locks (R104, R188 e). -/
theorem archInv_setSol_lock {x1 y1 : Elem} (x2 y2 : Elem) (hx1 : x1.toNat < s.M.toNat) (hy1 : y1.toNat < s.M.toNat) :
    (s.setSol (solve x1 y1 x2 y2 s.M.toNat)).lock.ArchInv :=
  { h with
    lock := nofun
    solver := fun hG => by
      obtain ⟨hmul, hA0⟩ := solve_belongs h.modulus rfl hG
      obtain ⟨hX1, hY1⟩ := solve_X1_Y1 (rfl : solve x1 y1 x2 y2 s.M.toNat = _)
      exact ⟨hmul, hA0, hX1.symm ▸ hx1, hY1.symm ▸ hy1, rfl⟩ }

theorem archInv_setDim (k : KReg) {n : BitVec 4} (hn : n.toNat ≤ 8) : (s.setDim k n).ArchInv :=
  { h with
    dims := fun q => by
      rw [getDim_setDim]
      split
      · exact hn
      · exact h.dims q }

/-- ADJ and MATINV copy a dimension (R133, R134). -/
theorem archInv_setBlock (k q : KReg) (R : Nat → Nat → Elem) : (s.setBlock k (s.getDim q) R).ArchInv :=
  { h with
    dims := fun p => by
      rw [getDim_setBlock]
      split <;> exact h.dims _ }

theorem archInv_setK (k : KReg) (a b : Idx) (x : Elem) : (s.setK k a b x).ArchInv :=
  { h with dims := fun q => by rw [getDim_setK]; exact h.dims q }

/-- The invariants speak of no scalar register. -/
theorem archInv_setS (r : SReg) (x : Elem) : (s.setS r x).ArchInv := { h with }

/-! ## Words and edges -/

theorem archInv_exec {i : Instr} {t : State} (ht : exec i s = .next t) : t.ArchInv := by
  refine exec_induct i s State.ArchInv
    (hSame := h)
    (hRespond := fun _ _ => { h with })
    (hClear := fun _ => archInv_clearFault h)
    (hRaise := fun _ c _ => archInv_lockedBy (archInv_raise h _ c) i)
    (hModulus := fun _ hl _ _ hm => archInv_setModulus h hl hm)
    (hS := fun _ r x => archInv_lockedBy (archInv_setS h r x) i)
    (hSS := fun _ r x q y => archInv_lock (archInv_setS (archInv_setS h r x) q y))
    (hSol := fun _ _ _ _ _ hx1 hy1 r x => archInv_setS (archInv_setSol_lock h _ _ hx1 hy1) r x)
    (hDim := fun _ k n _ h8 => archInv_setDim h k ?_)
    (hK := fun _ => archInv_setK h)
    (hV := fun _ _ _ _ => { h with })
    (hVec := fun _ _ _ _ => archInv_lock { h with })
    (hBlock := fun _ k q R => archInv_lock (archInv_setBlock h k q R))
    t ht
  rw [BitVec.toNat_setWidth]
  exact (Nat.mod_le _ _).trans h8

theorem archInv_afterWord (w : Word) : (s.afterWord w).ArchInv := by
  cases hd : decode w with
  | some i =>
    obtain ⟨t, ht⟩ := exec_answers i s
    rw [afterWord_legal s w hd ht]
    exact archInv_exec h ht
  | none =>
    rw [afterWord_illegal s w hd]
    obtain ⟨-, e⟩ | ⟨-, e⟩ := illegalWord_cases s (opcodeOf w) <;> rw [e]
    · exact h
    · exact archInv_raise h _ _

theorem archInv_afterWords (ws : List Word) : (s.afterWords ws).ArchInv := by
  induction ws generalizing s with
  | nil => exact h
  | cons w ws ih => exact ih (archInv_afterWord h w)

/-- An edge resets the architectural state or runs the word completing at it. -/
theorem archInv_tick : s.tick.ArchInv := by
  cases hr : s.nextEdge.rst
  · rw [← archInv_arch, tick_arch hr, archInv_arch]
    exact archInv_afterWords ((archInv_arch s).mpr h) _
  · rw [tick_reset hr]
    exact { archInv_reset with }

end

/-- Settles O53: R33's values, and ports at which nothing is in progress and nothing waits. -/
theorem invariantsHoldAtReset : Obligations.InvariantsHoldAtReset :=
  (inv_iff _).mpr ⟨archInv_reset, nofun, fun _ => rfl, nofun⟩

/-- Settles O54: the architectural invariants by the words, the handshake's by the cases of an edge. -/
theorem everyStepKeepsTheInvariants : Obligations.EveryStepKeepsTheInvariants := by
  intro s t hs h
  obtain ⟨ha, hp⟩ := (inv_iff s).mp hs
  rw [← tick_eq_of_step h, inv_iff]
  exact ⟨archInv_tick ha, portCoherent_tick hp⟩

end Sys2Proof.Machine
end
